-- ==== Sys2Proof/Word.lean ====
section
/-! DEFINITION. The word types of KPOLY and their plainest arithmetic (00_scope.md R12, 10_state.md R20, R21). -/

namespace Sys2Proof

/-- One byte of BMEM, `uint8` (00_scope.md R12). -/
abbrev Byte := BitVec 8

/-- A 32-bit command word or host-port word (30_encoding.md R60, 20_memory.md R50). -/
abbrev Word := BitVec 32

/-- A coefficient: 16 bits, two's complement, `int16` (10_state.md R21). -/
abbrev Coeff := BitVec 16

/-- The contents of a polynomial register: 256 coefficients, index i the coefficient of X^i (10_state.md R20). -/
abbrev KPoly := Vector Coeff 256

/-- A register field of a command word: 4 bits, unsigned (30_encoding.md R61, R64). -/
abbrev Reg := BitVec 4

/-- The BMEM byte address of a command word: 12 bits, unsigned (30_encoding.md R61, R63). -/
abbrev Addr := BitVec 12

/-- Coefficient i of a polynomial, `P[r][i]` (00_scope.md R13); no index of 256 or more occurs in a rule. -/
def KPoly.coeff (p : KPoly) (i : Nat) : Coeff := p.toList.getD i 0

/-- Coefficient i as the integer it stands for (00_scope.md R12). -/
def KPoly.lane (p : KPoly) (i : Nat) : Int := (p.coeff i).toInt

/-- The polynomial whose coefficient i is `f i`. -/
def KPoly.ofLanes (f : Nat → Coeff) : KPoly := ⟨⟨(List.range 256).map f⟩, by simp⟩

/-- A scalar function applied to every lane alone (40_datapath_primitives.md R80). -/
def KPoly.mapLanes (f : Coeff → Coeff) (p : KPoly) : KPoly := ⟨⟨p.toList.map f⟩, by simp⟩

/-- A two-operand scalar function applied lane by lane (40_datapath_primitives.md R80). -/
def KPoly.zipLanes (f : Coeff → Coeff → Coeff) (p r : KPoly) : KPoly :=
  ⟨⟨List.zipWith f p.toList r.toList⟩, by simp⟩

/-- The zero polynomial (41_construction.md R101). -/
def KPoly.zero : KPoly := Vector.replicate 256 0

/-- Every coefficient, as an integer, satisfies `ok`. -/
def KPoly.allLanes (ok : Int → Bool) (p : KPoly) : Bool := p.toList.all fun c => ok c.toInt

/-! The small lemmas of the lane operations. -/

namespace KPoly

theorem coeff_ofLanes (f : Nat → Coeff) {i : Nat} (h : i < 256) : (ofLanes f).coeff i = f i := by
  simp [ofLanes, coeff, Vector.toList, h]

theorem lane_ofLanes (f : Nat → Coeff) {i : Nat} (h : i < 256) : (ofLanes f).lane i = (f i).toInt := by
  rw [lane, coeff_ofLanes f h]

theorem coeff_mapLanes (f : Coeff → Coeff) (p : KPoly) {i : Nat} (h : i < 256) :
    (mapLanes f p).coeff i = f (p.coeff i) := by
  simp [mapLanes, coeff, Vector.toList, h]

theorem coeff_zipLanes (f : Coeff → Coeff → Coeff) (p r : KPoly) {i : Nat} (h : i < 256) :
    (zipLanes f p r).coeff i = f (p.coeff i) (r.coeff i) := by
  simp [zipLanes, coeff, Vector.toList, h]

theorem coeff_eq_getElem (p : KPoly) {i : Nat} (h : i < 256) : p.coeff i = p[i] := by
  simp [coeff, Vector.toList, h]

theorem coeff_of_ge (p : KPoly) {i : Nat} (h : 256 ≤ i) : p.coeff i = 0 := by
  simp [coeff, Vector.toList, h]

theorem coeff_zero (i : Nat) : zero.coeff i = 0 := by
  rcases Nat.lt_or_ge i 256 with h | h
  · rw [coeff_eq_getElem _ h, zero, Vector.getElem_replicate]
  · exact coeff_of_ge _ h

theorem lane_zero (i : Nat) : zero.lane i = 0 := by
  rw [lane, coeff_zero]; rfl

/-- Two polynomials with the same 256 coefficients are one polynomial. -/
theorem ext_coeff {p r : KPoly} (h : ∀ i, i < 256 → p.coeff i = r.coeff i) : p = r := by
  apply Vector.ext
  intro i hi
  have := h i hi
  simpa [coeff, Vector.toList, hi] using this

theorem allLanes_iff (ok : Int → Bool) (p : KPoly) :
    p.allLanes ok = true ↔ ∀ i, i < 256 → ok (p.lane i) = true := by
  simp only [allLanes, List.all_eq_true, lane, coeff]
  constructor
  · intro h i hi
    have hl : i < p.toList.length := by simpa using hi
    rw [List.getD_eq_getElem _ _ hl]
    exact h _ (List.getElem_mem hl)
  · intro h c hc
    obtain ⟨i, hi, rfl⟩ := List.getElem_of_mem hc
    have := h i (by simpa using hi)
    rwa [List.getD_eq_getElem _ _ hi] at this

end KPoly

/-- An integer of the `int16` range is what its 16-bit word stands for (00_scope.md R12). -/
theorem toInt_ofInt16 {x : Int} (h₁ : -32768 ≤ x) (h₂ : x ≤ 32767) : (BitVec.ofInt 16 x).toInt = x := by
  rw [BitVec.toInt_ofInt, Int.bmod_def]
  norm_num
  split <;> omega

/-- A coefficient is in the `int16` range. -/
theorem toInt_int16 (c : Coeff) : -32768 ≤ c.toInt ∧ c.toInt ≤ 32767 := by
  have h₁ := BitVec.le_toInt c
  have h₂ := BitVec.toInt_lt (x := c)
  norm_num at h₁ h₂
  omega

/-- Two coefficients that stand for the same integer are one coefficient. -/
theorem coeff_eq_of_toInt {c d : Coeff} (h : c.toInt = d.toInt) : c = d := BitVec.eq_of_toInt_eq h

end Sys2Proof
end

