-- ==== Sys2Proof/Machine/Codec.lean ====
section
/-! DEFINITION. Bit-stream packing (20_memory.md R45, R46). A list of values of width w is a stream of bits, least
significant bit first in each value; packing cuts that stream into bytes, unpacking cuts the stream of the bytes into
values. Both are one cut, `fields`. -/

namespace Sys2Proof.Machine

/-- Bits 0 .. w-1 of a value, least significant first. -/
def bitsOf (w x : Nat) : List Bool := (List.range w).map fun j => x.testBit j

/-- The bit stream of a list of w-bit values: stream bit i*w + j is bit j of value i (20_memory.md R45). -/
def bitStream (w : Nat) (v : List Nat) : List Bool := v.flatMap (bitsOf w)

/-- The value of a list of bits, least significant first. -/
def natOfBits : List Bool → Nat
  | [] => 0
  | b :: bs => b.toNat + 2 * natOfBits bs

/-- The first k values of width w of a bit stream (20_memory.md R46). -/
def fields (w : Nat) : Nat → List Bool → List Nat
  | 0, _ => []
  | k + 1, bits => natOfBits (bits.take w) :: fields w k (bits.drop w)

/-- Pack_w (20_memory.md R45): k values into k*w/8 bytes. -/
def pack (w : Nat) (v : List Nat) : List Byte :=
  (fields 8 (v.length * w / 8) (bitStream w v)).map fun x => BitVec.ofNat 8 x

/-- Unpack_w (20_memory.md R46): k values in [0, 2^w). -/
def unpack (w k : Nat) (b : List Byte) : List Nat := fields w k (bitStream 8 (b.map fun x => x.toNat))

@[simp] theorem length_fields (w k : Nat) (bits : List Bool) : (fields w k bits).length = k := by
  induction k generalizing bits with
  | zero => rfl
  | succ k ih => simp [fields, ih]

@[simp] theorem length_unpack (w k : Nat) (b : List Byte) : (unpack w k b).length = k := length_fields ..

@[simp] theorem length_pack (w : Nat) (v : List Nat) : (pack w v).length = v.length * w / 8 := by simp [pack]

/-- The polynomial of the 256 values unpacked from `b`, each mapped by `f`. -/
def unpackPoly (w : Nat) (f : Nat → Coeff) (b : List Byte) : KPoly := ⟨⟨(unpack w 256 b).map f⟩, by simp⟩

/-- The bytes of the 256 coefficients, each mapped to its w-bit value by `f`. -/
def packPoly (w : Nat) (f : Coeff → Nat) (p : KPoly) : List Byte := pack w (p.toList.map f)

end Sys2Proof.Machine
end

