-- ==== Sys2Proof/Config.lean ====
section
/-! DEFINITION. What is fixed for one KPOLY: the constants and elaboration parameters of 00_scope.md R8 and the types of
the function parameters of R11. The contract of the function parameters and the constant that stands for them are in
Sys2Proof/Config/Contract.lean and Sys2Proof/Config/Chosen.lean. -/

namespace Sys2Proof

namespace Config

/-- POLYBYTES, the bytes of a serialized polynomial, 12*N/8 (00_scope.md R8). -/
abbrev polyBytes : Nat := 384

/-- MSGBYTES, the bytes of a message, N/8 (00_scope.md R8). -/
abbrev msgBytes : Nat := 32

/-- NOISEBYTES(η) = 64*η, the length of the PRF output (00_scope.md R8). -/
abbrev noiseBytes (eta : Nat) : Nat := 64 * eta

/-- The lazy-reduction range L = [-6657, 6657] (40_datapath_primitives.md R94). -/
def inLazy (x : Int) : Bool := decide (-6657 ≤ x) && decide (x ≤ 6657)

/-- The range [-Q, Q-1] on which SignFix returns a value in [0, Q) (40_datapath_primitives.md R82). -/
def inSignFix (x : Int) : Bool := decide (-3329 ≤ x) && decide (x ≤ 3328)

/-- The canonical range [0, Q) (00_scope.md R16). -/
def inCanonical (x : Int) : Bool := decide (0 ≤ x) && decide (x ≤ 3328)

/-- The range of `int16` (00_scope.md R12). -/
def inInt16 (x : Int) : Bool := decide (-32768 ≤ x) && decide (x ≤ 32767)

end Config

/-- The elaboration parameters (00_scope.md R8, R9), fixed for a machine and reported by CONFIG and CONFIG2
(10_state.md R27, R28). -/
structure Params where
  /-- CBYTES, the configured compressed byte width, even when unsupported. -/
  cbytes   : Nat
  /-- ETA1, the noise parameter η1. -/
  eta1     : Nat
  /-- ETA2, the noise parameter η2. -/
  eta2     : Nat
  /-- NPOLY, the number of polynomial registers. -/
  npoly    : Nat
  /-- BMEM_SIZE, the bytes of the byte-buffer memory. -/
  bmemSize : Nat
  /-- SYMBYTES, the seed length in bytes. -/
  symbytes : Nat
deriving DecidableEq, Repr

namespace Params

/-- CBYTES is one of the two supported widths (00_scope.md R8, 43_compression.md R120). -/
def supported (c : Params) : Bool := c.cbytes == 128 || c.cbytes == 160

/-- The ranges 00_scope.md R8 gives the OPEN parameters; CBYTES is any value its 16-bit CONFIG field holds, since an
unsupported one is a machine too (60_exceptions.md R196). -/
def legal (c : Params) : Bool :=
  decide (c.cbytes < 65536) && (c.eta1 == 2 || c.eta1 == 3) && (c.eta2 == 2 || c.eta2 == 3) &&
    decide (1 ≤ c.npoly) && decide (c.npoly ≤ 16) && decide (512 ≤ c.bmemSize) && decide (c.bmemSize ≤ 4096) &&
    decide (1 ≤ c.symbytes) && decide (c.symbytes ≤ 255)

/-- D, the compressed bits of a coefficient, 8*CBYTES/N (00_scope.md R8): 4 when CBYTES = 128, 5 when CBYTES = 160. -/
def compressBits (c : Params) : Nat := 8 * c.cbytes / 256

/-- The configuration of 95_test_vectors.md: the defaults of R8, and CBYTES = 128, ETA1 = ETA2 = 2 where R8 gives no
default (DESIGN CHOICE, log entry 1). -/
def testVectors : Params :=
  { cbytes := 128, eta1 := 2, eta2 := 2, npoly := 16, bmemSize := 4096, symbytes := 32 }

end Params

/-- The function parameters of 00_scope.md R11, as bare functions. A meaning that needs one takes this structure as an
argument ("A model takes each one as an argument"). -/
structure PrimFns where
  /-- PRF(seed, nonce, len) (44_noise.md R135). -/
  prf         : List Byte → Byte → Nat → List Byte
  /-- CBD(η)(buf) (44_noise.md R136). -/
  cbd         : Nat → List Byte → KPoly
  /-- NTT_PRIM (45_ntt.md R150). -/
  nttPrim     : KPoly → KPoly
  /-- INVNTT_PRIM (45_ntt.md R151). -/
  invnttPrim  : KPoly → KPoly
  /-- BASEMUL_PRIM(a0, a1, b0, b1, τ) (45_ntt.md R152). -/
  basemulPrim : Coeff → Coeff → Coeff → Coeff → Coeff → Coeff × Coeff
  /-- ZETA_TW(j), j = 0..63 (45_ntt.md R153). -/
  zetaTw      : Nat → Coeff
  /-- MONT_REDUCE: int32 -> int16 (40_datapath_primitives.md R86). -/
  montReduce  : BitVec 32 → Coeff

end Sys2Proof
end

