-- ==== Sys2Proof/Syntax.lean ====
section
/-! DEFINITION. The commands (30_encoding.md R65), one constructor for each row of spec/opcode_table.json, with the operands
in the order of the assembly forms of R69, and the pseudo-instructions of R70. -/

namespace Sys2Proof

/-- A KPOLY command. Register operands are the 4-bit fields of the word; which of them exist depends on NPOLY and is checked
in WellFormed (30_encoding.md R64). -/
inductive Instr where
  /-- NOP: no operation (41_construction.md R100). -/
  | nop
  /-- PZERO rd: the zero polynomial (41_construction.md R101). -/
  | pzero (rd : Reg)
  /-- TOBYTES rs1, addr: serialize (42_serialization.md R110). -/
  | tobytes (rs1 : Reg) (addr : Addr)
  /-- FROMBYTES rd, addr: deserialize (42_serialization.md R111). -/
  | frombytes (rd : Reg) (addr : Addr)
  /-- COMPRESS rs1, addr (43_compression.md R121). -/
  | compress (rs1 : Reg) (addr : Addr)
  /-- DECOMPRESS rd, addr (43_compression.md R122). -/
  | decompress (rd : Reg) (addr : Addr)
  /-- GETNOISE1 rd, addr, nonce (44_noise.md R137). -/
  | getnoise1 (rd : Reg) (addr : Addr) (nonce : Byte)
  /-- GETNOISE2 rd, addr, nonce (44_noise.md R138). -/
  | getnoise2 (rd : Reg) (addr : Addr) (nonce : Byte)
  /-- NTT rd (45_ntt.md R155). -/
  | ntt (rd : Reg)
  /-- INVNTT rd (45_ntt.md R156). -/
  | invntt (rd : Reg)
  /-- BASEMUL rd, rs1, rs2 (45_ntt.md R157). -/
  | basemul (rd rs1 rs2 : Reg)
  /-- TOMONT rd (45_ntt.md R158). -/
  | tomont (rd : Reg)
  /-- ADD rd, rs1 (46_arithmetic.md R170). -/
  | add (rd rs1 : Reg)
  /-- SUB rd, rs1: P[rs1] - P[rd] (46_arithmetic.md R171). -/
  | sub (rd rs1 : Reg)
  /-- REDUCE rd (46_arithmetic.md R172). -/
  | reduce (rd : Reg)
  /-- FROMMSG rd, addr (47_message.md R180). -/
  | frommsg (rd : Reg) (addr : Addr)
  /-- TOMSG rs1, addr (47_message.md R181). -/
  | tomsg (rs1 : Reg) (addr : Addr)
deriving DecidableEq, Repr

/-- The seven formats of the command word (30_encoding.md R62). -/
inductive Format where
  | Z | D | R2 | R3 | S | L | N
deriving DecidableEq, Repr

/-- The pseudo-instructions (30_encoding.md R70). -/
inductive Pseudo where
  /-- pclr pd. -/
  | pclr (pd : Reg)
  /-- pmov pd, ps with pd ≠ ps. -/
  | pmov (pd ps : Reg)
  /-- pneg pd, pt with pd ≠ pt; pt is a scratch register that ends as zero. -/
  | pneg (pd pt : Reg)
deriving DecidableEq, Repr

/-- The commands a pseudo-instruction expands to, in order (30_encoding.md R70). -/
def Pseudo.expand : Pseudo → List Instr
  | .pclr pd => [.pzero pd]
  | .pmov pd ps => [.pzero pd, .add pd ps]
  | .pneg pd pt => [.pzero pt, .sub pd pt]

/-- The side conditions of R70: pd ≠ ps and pd ≠ pt. -/
def Pseudo.wellFormed : Pseudo → Bool
  | .pclr _ => true
  | .pmov pd ps => pd != ps
  | .pneg pd pt => pd != pt

end Sys2Proof
end

