-- ==== Sys2Proof/WellFormed.lean ====
section
/-! DEFINITION. Which commands exist on a machine with `npoly` polynomial registers: every register field the format uses
names one of them (30_encoding.md R64). The other operands fill their fields (R63), so every value of them is well formed. -/

namespace Sys2Proof

namespace Instr

/-- The register fields the command's format uses (30_encoding.md R62). -/
def regs : Instr → List Reg
  | nop => []
  | pzero rd => [rd]
  | tobytes rs1 _ => [rs1]
  | frombytes rd _ => [rd]
  | compress rs1 _ => [rs1]
  | decompress rd _ => [rd]
  | getnoise1 rd _ _ => [rd]
  | getnoise2 rd _ _ => [rd]
  | ntt rd => [rd]
  | invntt rd => [rd]
  | basemul rd rs1 rs2 => [rd, rs1, rs2]
  | tomont rd => [rd]
  | add rd rs1 => [rd, rs1]
  | sub rd rs1 => [rd, rs1]
  | reduce rd => [rd]
  | frommsg rd _ => [rd]
  | tomsg rs1 _ => [rs1]

/-- Every register field is below NPOLY (30_encoding.md R64, R68). -/
def wellFormed (npoly : Nat) (i : Instr) : Bool := i.regs.all fun r => decide (r.toNat < npoly)

end Instr

end Sys2Proof
end

