-- ==== Sys2Proof/Decode.lean ====
section
/-! DEFINITION. Decoding a command word, total on every 32-bit word (30_encoding.md R68), and after it the encoder, written
from the same tables (R61, R62, R65, R66). -/

namespace Sys2Proof

/-! The opcode map (30_encoding.md R65) and the masks (R66). -/

/-- The format of an opcode; opcodes 0x11 to 0xFF are reserved (30_encoding.md R65, R67). -/
def formatOf (op : Nat) : Option Format :=
  match op with
  | 0x00 => some .Z
  | 0x01 => some .D
  | 0x02 => some .S
  | 0x03 => some .L
  | 0x04 => some .S
  | 0x05 => some .L
  | 0x06 => some .N
  | 0x07 => some .N
  | 0x08 => some .D
  | 0x09 => some .D
  | 0x0A => some .R3
  | 0x0B => some .D
  | 0x0C => some .R2
  | 0x0D => some .R2
  | 0x0E => some .D
  | 0x0F => some .L
  | 0x10 => some .S
  | _ => none

/-- The mask of a format: the opcode and every must-be-zero bit (30_encoding.md R66). -/
def Format.mask : Format → Word
  | .Z => 0xFFFFFFFF#32
  | .D => 0xFFFFF0FF#32
  | .R2 => 0xFFFF00FF#32
  | .R3 => 0xFFF000FF#32
  | .S => 0x000F0FFF#32
  | .L => 0x000FF0FF#32
  | .N => 0x000000FF#32

/-! The fields of a command word (30_encoding.md R61). -/

def opcodeField (w : Word) : BitVec 8 := w.extractLsb' 0 8
def rdField (w : Word) : Reg := w.extractLsb' 8 4
def rs1Field (w : Word) : Reg := w.extractLsb' 12 4
def rs2Field (w : Word) : Reg := w.extractLsb' 16 4
def nonceField (w : Word) : Byte := w.extractLsb' 12 8
def addrField (w : Word) : Addr := w.extractLsb' 20 12

/-- The command of an opcode with the fields of `w` (30_encoding.md R65); none for a reserved opcode. -/
def commandOf (op : Nat) (w : Word) : Option Instr :=
  match op with
  | 0x00 => some .nop
  | 0x01 => some (.pzero (rdField w))
  | 0x02 => some (.tobytes (rs1Field w) (addrField w))
  | 0x03 => some (.frombytes (rdField w) (addrField w))
  | 0x04 => some (.compress (rs1Field w) (addrField w))
  | 0x05 => some (.decompress (rdField w) (addrField w))
  | 0x06 => some (.getnoise1 (rdField w) (addrField w) (nonceField w))
  | 0x07 => some (.getnoise2 (rdField w) (addrField w) (nonceField w))
  | 0x08 => some (.ntt (rdField w))
  | 0x09 => some (.invntt (rdField w))
  | 0x0A => some (.basemul (rdField w) (rs1Field w) (rs2Field w))
  | 0x0B => some (.tomont (rdField w))
  | 0x0C => some (.add (rdField w) (rs1Field w))
  | 0x0D => some (.sub (rdField w) (rs1Field w))
  | 0x0E => some (.reduce (rdField w))
  | 0x0F => some (.frommsg (rdField w) (addrField w))
  | 0x10 => some (.tomsg (rs1Field w) (addrField w))
  | _ => none

/-- The word has a listed opcode and every must-be-zero field of its format is 0 (30_encoding.md R66, R67). -/
def matchesFormat (w : Word) : Bool :=
  match formatOf (opcodeField w).toNat with
  | none => false
  | some f => w &&& f.mask == (opcodeField w).setWidth 32

/-- Decode (30_encoding.md R68) on a machine with `npoly` registers; `none` is the word that raises Fault(ILLEGAL, 0). -/
def decode (npoly : Nat) (w : Word) : Option Instr :=
  if matchesFormat w then
    match commandOf (opcodeField w).toNat w with
    | none => none
    | some i => if i.wellFormed npoly then some i else none
  else none

/-! The encoder: every must-be-zero field is 0 (30_encoding.md R69). -/

/-- The opcode of a command (30_encoding.md R65). -/
def Instr.opcode : Instr → BitVec 8
  | nop => 0x00
  | pzero _ => 0x01
  | tobytes _ _ => 0x02
  | frombytes _ _ => 0x03
  | compress _ _ => 0x04
  | decompress _ _ => 0x05
  | getnoise1 _ _ _ => 0x06
  | getnoise2 _ _ _ => 0x07
  | ntt _ => 0x08
  | invntt _ => 0x09
  | basemul _ _ _ => 0x0A
  | tomont _ => 0x0B
  | add _ _ => 0x0C
  | sub _ _ => 0x0D
  | reduce _ => 0x0E
  | frommsg _ _ => 0x0F
  | tomsg _ _ => 0x10

/-- The format of a command (30_encoding.md R62). -/
def Instr.format : Instr → Format
  | nop => .Z
  | pzero _ | ntt _ | invntt _ | tomont _ | reduce _ => .D
  | add _ _ | sub _ _ => .R2
  | basemul _ _ _ => .R3
  | tobytes _ _ | compress _ _ | tomsg _ _ => .S
  | frombytes _ _ | decompress _ _ | frommsg _ _ => .L
  | getnoise1 _ _ _ | getnoise2 _ _ _ => .N

/-- A command word from its fields, addr 31:20, rs2 19:16, rs1 15:12, rd 11:8, opcode 7:0 (30_encoding.md R61). -/
def packWord (addr : Addr) (rs2 rs1 rd : Reg) (op : BitVec 8) : Word := addr ++ rs2 ++ rs1 ++ rd ++ op

/-- A format-N word: the nonce stands in bits 19:12 (30_encoding.md R61, R62). -/
def packNonceWord (addr : Addr) (nonce : Byte) (rd : Reg) (op : BitVec 8) : Word := addr ++ nonce ++ rd ++ op

/-- The command word of an instruction (30_encoding.md R62). -/
def encode (i : Instr) : Word :=
  match i with
  | .nop => packWord 0 0 0 0 i.opcode
  | .pzero rd => packWord 0 0 0 rd i.opcode
  | .tobytes rs1 addr => packWord addr 0 rs1 0 i.opcode
  | .frombytes rd addr => packWord addr 0 0 rd i.opcode
  | .compress rs1 addr => packWord addr 0 rs1 0 i.opcode
  | .decompress rd addr => packWord addr 0 0 rd i.opcode
  | .getnoise1 rd addr nonce => packNonceWord addr nonce rd i.opcode
  | .getnoise2 rd addr nonce => packNonceWord addr nonce rd i.opcode
  | .ntt rd => packWord 0 0 0 rd i.opcode
  | .invntt rd => packWord 0 0 0 rd i.opcode
  | .basemul rd rs1 rs2 => packWord 0 rs2 rs1 rd i.opcode
  | .tomont rd => packWord 0 0 0 rd i.opcode
  | .add rd rs1 => packWord 0 0 rs1 rd i.opcode
  | .sub rd rs1 => packWord 0 0 rs1 rd i.opcode
  | .reduce rd => packWord 0 0 0 rd i.opcode
  | .frommsg rd addr => packWord addr 0 0 rd i.opcode
  | .tomsg rs1 addr => packWord addr 0 rs1 0 i.opcode

/-- What the decoder reads from an instruction of the opcode table whose bits are `w`: KPOLY's commands are one 32-bit word
(30_encoding.md R60), bit 0 the least significant; NPOLY is that of the reset configuration (log entry 1). -/
def decodeTableWord (nbits w : Nat) : Option Instr :=
  if nbits ≤ 32 then decode Params.testVectors.npoly (BitVec.ofNat 32 (w % 2 ^ nbits)) else none

end Sys2Proof
end

