-- ==== Sys2Proof/Machine/State.lean ====
section
/-! DEFINITION. The state of KPOLY and of the host that drives it, as plain data (10_state.md; INVENTORY.md, State), the
reasons a step can stop, and the state after reset (10_state.md R36). -/

namespace Sys2Proof.Machine

/-- The cause codes 0 to 6 of STATUS.CAUSE (60_exceptions.md R190); codes 7 to 15 are never raised, so the type has no
value for them. -/
inductive Cause where
  | noFault | config | illegal | bufferRange | uninitReg | uninitMem | coeffRange
deriving DecidableEq, Repr

/-- The fields of STATUS (10_state.md R26); its reserved bits read 0. -/
structure Status where
  /-- BUSY: 1 while a command executes. A command of the model is one step, so no run reaches a state with BUSY = 1
  (10_state.md R33, log entry 11). -/
  busy   : Bool
  /-- HALTED: 1 after any fault. -/
  halted : Bool
  /-- CAUSE: the cause of the first fault. -/
  cause  : Cause
  /-- FIDX: the 9-bit fault index (60_exceptions.md R197). -/
  fidx   : BitVec 9
deriving DecidableEq, Repr

/-- BMEM with its WRITTEN bits: the bytes with WRITTEN = 1, addresses strictly rising. A byte that is not listed has
WRITTEN = 0 (10_state.md R25, log entry 4). -/
abbrev Memory := List Host.Cell

/-- What an address that is not listed reads as: no value, since its WRITTEN bit is 0 (10_state.md R25, R36). -/
def Memory.unlisted : Option Byte := none

/-- The canonical form of BMEM: addresses strictly rising. No entry can equal what an unlisted address reads as. -/
abbrev Memory.wf (m : Memory) : Prop := m.Pairwise fun c d => c.1 < d.1

/-- One item of the host's program (70_reset_and_hazards.md R220, R230; 20_memory.md R50, R51). `size` is the width of the
access in bytes, `offset` the offset from the base of the host port. -/
inductive HostOp where
  /-- The host asserts reset. -/
  | reset
  /-- A host read. -/
  | read (size offset : Nat)
  /-- A host write; a byte write stores the low byte of `data`. A 32-bit write at offset 0 issues a command. -/
  | write (size offset : Nat) (data : Word)
deriving DecidableEq, Repr

structure State where
  /-- The elaboration parameters, read by the host as CONFIG and CONFIG2 (10_state.md R27, R28); no step changes them. -/
  params  : Params
  /-- P0 .. P15 (10_state.md R20); only those below NPOLY exist (log entry 14). -/
  polys   : Vector KPoly 16
  /-- VALID[r] (10_state.md R22). -/
  valid   : Vector Bool 16
  /-- BMEM and WRITTEN (10_state.md R25). -/
  bmem    : Memory
  /-- STATUS (10_state.md R26). -/
  status  : Status
  /-- FCMD (10_state.md R29). -/
  fcmd    : Word
  /-- The model's pc: the index of the host's next command, with no width (10_state.md R30). -/
  pc      : Nat
  /-- The model's own: what is left of the host's program, oldest first (log entry 6). -/
  host    : List HostOp
  /-- The model's own: the values host reads returned, newest first (log entry 7). -/
  replies : List Word
  /-- The model's own: the number of host resets so far, to which the free value of an unwritten byte is applied
  (log entry 5). -/
  resets  : Nat
deriving DecidableEq, Repr

/-- Why the model stops with a fault. No command stops so: a command's fault is KPOLY's own halt, a next state
(60_exceptions.md R199). -/
inductive Fault where
  /-- Raised by `hostAccess` for a host access that is not inside the 8192-byte window of 20_memory.md R50: the spec gives it
  no address. Safe: the model stops where a device might go on (log entry 9). -/
  | outsideHostWindow (offset : Nat)
deriving DecidableEq, Repr

/-- Why the model has no transition. -/
inductive Refusal where
  /-- Raised by `exec` for an instruction that has no meaning yet; no arm raises it. Safe: the model stops. -/
  | notModelled (mnemonic : String)
  /-- Raised by `hostAccess` for a host access of a width or alignment 20_memory.md R51 does not list ("A model refuses any
  other width or alignment"). Safe: the model stops (log entry 9). -/
  | hostAccessForm (size offset : Nat)
deriving DecidableEq, Repr

/-- STATUS after reset: halted with CONFIG when CBYTES is unsupported, else all 0 (10_state.md R36, 60_exceptions.md R196,
70_reset_and_hazards.md R221). -/
def Status.reset (c : Params) : Status :=
  { busy := false
    halted := !c.supported
    cause := if c.supported then .noFault else .config
    fidx := 0 }

/-- The state right after the reset of a machine with parameters `c` (10_state.md R36). P is zero with VALID clear
(DESIGN CHOICE, log entry 3); no host action is pending (log entry 6). -/
def State.resetOf (c : Params) : State :=
  { params := c
    polys := Vector.replicate 16 KPoly.zero
    valid := Vector.replicate 16 false
    bmem := []
    status := Status.reset c
    fcmd := 0
    pc := 0
    host := []
    replies := []
    resets := 0 }

/-- The state right after reset, for the configuration of 95_test_vectors.md (log entry 1). -/
def State.reset : State := State.resetOf Params.testVectors

end Sys2Proof.Machine
end

