-- ==== Sys2Proof/Machine/Ops.lean ====
section
/-! DEFINITION. The named operations over BMEM, the polynomial registers and the fault record, and the way every command
ends: its checks in order, then its commit or the fault entry (00_scope.md R14, 60_exceptions.md R198, R199). -/

namespace Sys2Proof.Machine

/-! BMEM and its WRITTEN bits (20_memory.md R41, R42). -/

/-- BMEM[a] when WRITTEN[a] = 1, none when WRITTEN[a] = 0. -/
def Memory.read : Memory → Nat → Option Byte
  | [], _ => Memory.unlisted
  | (k, b) :: m, a => if k = a then some b else Memory.read m a

/-- WRITTEN[a] (10_state.md R25). -/
def Memory.written (m : Memory) (a : Nat) : Bool := (m.read a).isSome

/-- The cells of `bytes` from address `a` up. -/
def cellsAt (a : Nat) : List Byte → Memory
  | [] => []
  | b :: bs => (a, b) :: cellsAt (a + 1) bs

/-- BMEM with `bytes` written from address `a` up and their WRITTEN bits set (20_memory.md R42, commit phase). -/
def Memory.write (m : Memory) (a : Nat) (bytes : List Byte) : Memory :=
  m.filter (fun c => decide (c.1 < a)) ++ cellsAt a bytes ++ m.filter (fun c => decide (a + bytes.length ≤ c.1))

/-! The polynomial registers (10_state.md R20, R22). -/

/-- P[r]. -/
def State.poly (s : State) (r : Reg) : KPoly := s.polys[r.toNat]

/-- VALID[r]. -/
def State.isValid (s : State) (r : Reg) : Bool := s.valid[r.toNat]

/-- P[r] <- v, all coefficients at once, and VALID[r] <- 1 (00_scope.md R13, 41_construction.md R102). -/
def State.writeReg (s : State) (r : Reg) (v : KPoly) : State :=
  { s with polys := s.polys.set r.toNat v, valid := s.valid.set r.toNat true }

/-- MemWrite, commit phase (20_memory.md R42). -/
def State.memWrite (s : State) (addr : Nat) (bytes : List Byte) : State :=
  { s with bmem := s.bmem.write addr bytes }

/-! Faults (60_exceptions.md R190-R201). -/

/-- What `raise Fault(cause, fidx)` carries (00_scope.md R13). -/
structure FaultRecord where
  cause : Cause
  fidx  : BitVec 9
deriving DecidableEq, Repr

/-- The result of a check phase: the values it read, or the first fault (60_exceptions.md R198). -/
abbrev Check (α : Type) := Except FaultRecord α

/-- Fault entry (60_exceptions.md R199): HALTED, CAUSE, FIDX and FCMD are written, nothing else. This is KPOLY's "trap": the
machine goes on to a halted state. There is no return from it (R201); only reset leaves the halted state. -/
def State.enterFault (s : State) (f : FaultRecord) (word : Word) : State :=
  { s with status := { s.status with halted := true, cause := f.cause, fidx := f.fidx }, fcmd := word }

/-- Fault(ILLEGAL, 0) (60_exceptions.md R191). -/
def illegalFault : FaultRecord := ⟨.illegal, 0⟩

/-- How the command `i` ends in state `s`: ILLEGAL if a register field it uses is NPOLY or more, else the commit of its
check phase `c`, else the entry of the first fault `c` met, with the command's own word in FCMD (00_scope.md R14,
60_exceptions.md R191, R198, R199; log entry 12). Every command ends in a next state (R204). -/
def conclude (i : Instr) (s : State) (c : Check State) : Host.Outcome State Fault Refusal :=
  if i.wellFormed s.params.npoly then
    match c with
    | .ok t => .next t
    | .error f => .next (s.enterFault f (encode i))
  else .next (s.enterFault illegalFault (encode i))

/-- Reset, asserted by the host (70_reset_and_hazards.md R220, R221): every piece of KPOLY's state gets its reset value, the
elaboration parameters stay, and what is left of the host's program and its replies are the host's own (log entry 13). -/
def State.hostReset (s : State) : State :=
  { State.resetOf s.params with host := s.host, replies := s.replies, resets := s.resets + 1 }

end Sys2Proof.Machine
end

