-- ==== Sys2Proof/Machine/Primitives.lean ====
section
/-! DEFINITION. The scalar functions the commands share (40_datapath_primitives.md R82-R93), written from the results the
rules state, and the block dispatch of BASEMUL (45_ntt.md R157). -/

namespace Sys2Proof.Machine

/-- SignFix (40_datapath_primitives.md R82): `x + (Q & m)` with m the arithmetic shift of x by 15, so no branch depends
on x (R83). -/
def signFix (x : Coeff) : Coeff := x + (3329#16 &&& x.sshiftRight 15)

/-- BarrettReduce (40_datapath_primitives.md R84): `x mod Q`, in [0, Q), for every int16. -/
def barrettReduce (x : Coeff) : Coeff := BitVec.ofInt 16 (x.toInt % 3329)

/-- Compress_d (40_datapath_primitives.md R89): ((2^(d+1)*u + Q) div (2*Q)) mod 2^d. -/
def compressD (d u : Nat) : Nat := ((2 ^ (d + 1) * u + 3329) / (2 * 3329)) % 2 ^ d

/-- Decompress_d (40_datapath_primitives.md R91): (y*q + 2^(d-1)) >> d. -/
def decompressD (d y : Nat) : Nat := (y * 3329 + 2 ^ (d - 1)) >>> d

/-- MsgSym (40_datapath_primitives.md R92): (-b) & HALFQ, with -b a 16-bit two's-complement value. -/
def msgSym (b : Nat) : Coeff := (-(BitVec.ofNat 16 b)) &&& 1665#16

/-- MsgBit (40_datapath_primitives.md R93): ((((x << 1) + 1665) * 80635) >> 28) & 1. -/
def msgBit (x : Nat) : Nat := ((((x <<< 1) + 1665) * 80635) >>> 28) &&& 1

/-- The product TOMONT hands to MONT_REDUCE, an int32: x * 1353 with 1353 = 2^32 mod Q (45_ntt.md R158). -/
def tomontLane (F : PrimFns) (x : Coeff) : Coeff := F.montReduce (BitVec.ofInt 32 (x.toInt * 1353))

/-- The full reduction pass, BarrettReduce on every lane (45_ntt.md R155, 46_arithmetic.md R172). -/
def reducePoly (p : KPoly) : KPoly := KPoly.mapLanes barrettReduce p

/-- The twist of pair h of BASEMUL: block h/2 uses +ZETA_TW for its first pair and -ZETA_TW for its second, the int16
negation (45_ntt.md R153, R157; of −32768, which R153 does not exclude, log entry 2). -/
def pairTwist (F : PrimFns) (h : Nat) : Coeff :=
  if h % 2 = 0 then F.zetaTw (h / 2) else -(F.zetaTw (h / 2))

/-- The result of pair h of BASEMUL, coefficients 2h and 2h+1 (45_ntt.md R157). -/
def basemulPair (F : PrimFns) (a b : KPoly) (h : Nat) : Coeff × Coeff :=
  F.basemulPrim (a.coeff (2 * h)) (a.coeff (2 * h + 1)) (b.coeff (2 * h)) (b.coeff (2 * h + 1)) (pairTwist F h)

/-- The BASEMUL dispatch: 64 blocks of 4 coefficients, each two pairs (45_ntt.md R157). -/
def basemulPoly (F : PrimFns) (a b : KPoly) : KPoly :=
  KPoly.ofLanes fun i => if i % 2 = 0 then (basemulPair F a b (i / 2)).1 else (basemulPair F a b (i / 2)).2

/-! The small lemmas the contract's witness needs; the laws of the other primitives are in Laws/Primitives.lean. -/

theorem barrettReduce_toInt (x : Coeff) : (barrettReduce x).toInt = x.toInt % 3329 := by
  have := Int.emod_nonneg x.toInt (show (3329 : Int) ≠ 0 by decide)
  have := Int.emod_lt_of_pos x.toInt (show (0 : Int) < 3329 by decide)
  exact toInt_ofInt16 (by omega) (by omega)

theorem lane_reducePoly (p : KPoly) {i : Nat} (h : i < 256) : (reducePoly p).lane i = p.lane i % 3329 := by
  rw [KPoly.lane, reducePoly, KPoly.coeff_mapLanes _ _ h, barrettReduce_toInt, KPoly.lane]

/-- Pair h of BASEMUL gives coefficients 2h and 2h+1. -/
theorem coeff_basemulPoly (F : PrimFns) (a b : KPoly) {h : Nat} (hh : h < 128) :
    (basemulPoly F a b).coeff (2 * h) = (basemulPair F a b h).1 ∧
      (basemulPoly F a b).coeff (2 * h + 1) = (basemulPair F a b h).2 := by
  constructor
  · rw [basemulPoly, KPoly.coeff_ofLanes _ (by omega), if_pos (by omega)]
    congr 2; omega
  · rw [basemulPoly, KPoly.coeff_ofLanes _ (by omega), if_neg (by omega)]
    congr 2; omega

end Sys2Proof.Machine
end

