-- ==== Sys2Proof/Machine/Operands.lean ====
section
/-! DEFINITION. The check phase's reads and tests, one for each operand form (20_memory.md R41, R42; 10_state.md R22;
60_exceptions.md R192-R194). A command's rule lists them in the order of R198. -/

namespace Sys2Proof.Machine

/-- The range check of a BMEM access: addr + n ≤ BMEM_SIZE, else Fault(BUFFER_RANGE, 0) (20_memory.md R41-R43). -/
def checkRange (s : State) (addr n : Nat) : Check Unit :=
  if addr + n ≤ s.params.bmemSize then .ok () else .error ⟨.bufferRange, 0⟩

/-- A register source: VALID[r] = 1, else Fault(UNINIT_REG, r) (10_state.md R22, 60_exceptions.md R194). -/
def readReg (s : State) (r : Reg) : Check KPoly :=
  if s.isValid r then .ok (s.poly r) else .error ⟨.uninitReg, r.setWidth 9⟩

/-- The lowest offset k < n with WRITTEN[addr + k] = 0 (20_memory.md R41). -/
def firstUnwritten (m : Memory) (addr n : Nat) : Option Nat :=
  (List.range n).find? fun k => !m.written (addr + k)

/-- The n bytes from address `addr` up (20_memory.md R41), read once each is known to be written. -/
def bytesAt (m : Memory) (addr n : Nat) : List Byte :=
  (List.range n).map fun k => (m.read (addr + k)).getD 0

/-- MemRead (20_memory.md R41): BUFFER_RANGE, then UNINIT_MEM at the lowest unwritten offset. -/
def memRead (s : State) (addr n : Nat) : Check (List Byte) :=
  if addr + n ≤ s.params.bmemSize then
    match firstUnwritten s.bmem addr n with
    | some k => .error ⟨.uninitMem, BitVec.ofNat 9 k⟩
    | none => .ok (bytesAt s.bmem addr n)
  else .error ⟨.bufferRange, 0⟩

/-- A domain check over the lanes: Fault(COEFF_RANGE, i) at the lowest lane i that is not good (60_exceptions.md R193). -/
def checkLanes (good : List Bool) : Check Unit :=
  match good.findIdx? (fun g => !g) with
  | some i => .error ⟨.coeffRange, BitVec.ofNat 9 i⟩
  | none => .ok ()

/-- Which lanes of a register lie in the domain `ok`. -/
def goodLanes (ok : Int → Bool) (p : KPoly) : List Bool := p.toList.map fun c => ok c.toInt

/-- At which lanes both registers lie in the domain `ok` (45_ntt.md R157). -/
def goodPairs (ok : Int → Bool) (p r : KPoly) : List Bool :=
  List.zipWith (fun c d => ok c.toInt && ok d.toInt) p.toList r.toList

/-- At which lanes the exact result of `f` lies in int16 (46_arithmetic.md R173). -/
def goodResults (f : Int → Int → Int) (p r : KPoly) : List Bool :=
  List.zipWith (fun c d => Config.inInt16 (f c.toInt d.toInt)) p.toList r.toList

/-- The lane-by-lane exact result of `f`, once every result is known to be an int16 (40_datapath_primitives.md R81). -/
def exactLanes (f : Int → Int → Int) (p r : KPoly) : KPoly :=
  KPoly.zipLanes (fun c d => BitVec.ofInt 16 (f c.toInt d.toInt)) p r

end Sys2Proof.Machine
end

