-- ==== Sys2Proof/Machine/Arithmetic.lean ====
section
/-! DEFINITION. The plain arithmetic ADD, SUB and REDUCE (46_arithmetic.md). -/

namespace Sys2Proof.Machine

/-- The exact integer sum of ADD (46_arithmetic.md R170). -/
def sumLane (a b : Int) : Int := a + b

/-- The exact integer difference of SUB, from P[rd] and P[rs1]: P[rs1] − P[rd] (46_arithmetic.md R171). -/
def diffLane (r a : Int) : Int := a - r

/-- ADD rd, rs1: exact sum, COEFF_RANGE where it leaves int16 (46_arithmetic.md R170, R173). -/
def execAdd (rd rs1 : Reg) (s : State) : Host.Outcome State Fault Refusal :=
  conclude (.add rd rs1) s do
    let a ← readReg s rd
    let b ← readReg s rs1
    checkLanes (goodResults sumLane a b)
    .ok (s.writeReg rd (exactLanes sumLane a b))

/-- SUB rd, rs1: exact difference P[rs1] − P[rd], COEFF_RANGE where it leaves int16 (46_arithmetic.md R171, R173). -/
def execSub (rd rs1 : Reg) (s : State) : Host.Outcome State Fault Refusal :=
  conclude (.sub rd rs1) s do
    let r ← readReg s rd
    let a ← readReg s rs1
    checkLanes (goodResults diffLane r a)
    .ok (s.writeReg rd (exactLanes diffLane r a))

/-- REDUCE rd: every coefficient mod Q; every int16 is in its domain (46_arithmetic.md R172). -/
def execReduce (rd : Reg) (s : State) : Host.Outcome State Fault Refusal :=
  conclude (.reduce rd) s do
    let x ← readReg s rd
    .ok (s.writeReg rd (reducePoly x))

end Sys2Proof.Machine
end

