-- ==== Sys2Proof/Machine/Compression.lean ====
section
/-! DEFINITION. The compression codec COMPRESS and DECOMPRESS (43_compression.md). D comes from CBYTES (R120). -/

namespace Sys2Proof.Machine

/-- The bytes of a register at d bits a coefficient: Pack_d of Compress_d(SignFix(c)) (43_compression.md R121). -/
def compressPoly (d : Nat) (p : KPoly) : List Byte := packPoly d (fun c => compressD d (signFix c).toNat) p

/-- The register of the compressed bytes: Decompress_d of Unpack_d (43_compression.md R122). -/
def decompressPoly (d : Nat) (b : List Byte) : KPoly := unpackPoly d (fun y => BitVec.ofNat 16 (decompressD d y)) b

/-- COMPRESS rs1, addr (43_compression.md R121). -/
def execCompress (rs1 : Reg) (addr : Addr) (s : State) : Host.Outcome State Fault Refusal :=
  conclude (.compress rs1 addr) s do
    checkRange s addr.toNat s.params.cbytes
    let x ← readReg s rs1
    checkLanes (goodLanes Config.inSignFix x)
    .ok (s.memWrite addr.toNat (compressPoly s.params.compressBits x))

/-- DECOMPRESS rd, addr (43_compression.md R122). -/
def execDecompress (rd : Reg) (addr : Addr) (s : State) : Host.Outcome State Fault Refusal :=
  conclude (.decompress rd addr) s do
    let b ← memRead s addr.toNat s.params.cbytes
    .ok (s.writeReg rd (decompressPoly s.params.compressBits b))

end Sys2Proof.Machine
end

