-- ==== Sys2Proof/Machine/Construction.lean ====
section
/-! DEFINITION. The construction commands NOP and PZERO (41_construction.md). -/

namespace Sys2Proof.Machine

/-- NOP: nothing (41_construction.md R100). -/
def execNop (s : State) : Host.Outcome State Fault Refusal := conclude .nop s (.ok s)

/-- PZERO rd: P[rd] <- 0; P[rd] is not read, so VALID[rd] may be 0 (41_construction.md R101). -/
def execPzero (rd : Reg) (s : State) : Host.Outcome State Fault Refusal :=
  conclude (.pzero rd) s (.ok (s.writeReg rd KPoly.zero))

end Sys2Proof.Machine
end

