-- ==== Sys2Proof/Machine/Message.lean ====
section
/-! DEFINITION. The message codec FROMMSG and TOMSG (47_message.md): one bit a coefficient, LSB first in each byte, which is
the packing of width 1 (20_memory.md R45). -/

namespace Sys2Proof.Machine

/-- The register of a message: MsgSym of each bit (47_message.md R180). -/
def messagePoly (m : List Byte) : KPoly := unpackPoly 1 msgSym m

/-- The message of a register: MsgBit of each coefficient (47_message.md R181). -/
def messageBytes (p : KPoly) : List Byte := packPoly 1 (fun c => msgBit c.toNat) p

/-- FROMMSG rd, addr (47_message.md R180). -/
def execFrommsg (rd : Reg) (addr : Addr) (s : State) : Host.Outcome State Fault Refusal :=
  conclude (.frommsg rd addr) s do
    let m ← memRead s addr.toNat Config.msgBytes
    .ok (s.writeReg rd (messagePoly m))

/-- TOMSG rs1, addr (47_message.md R181). -/
def execTomsg (rs1 : Reg) (addr : Addr) (s : State) : Host.Outcome State Fault Refusal :=
  conclude (.tomsg rs1 addr) s do
    checkRange s addr.toNat Config.msgBytes
    let x ← readReg s rs1
    checkLanes (goodLanes Config.inCanonical x)
    .ok (s.memWrite addr.toNat (messageBytes x))

end Sys2Proof.Machine
end

