-- ==== Sys2Proof/Config/Contract.lean ====
section
/-! DEFINITION. The contract of the function parameters: exactly the properties the spec lets a model assume of them
(00_scope.md R11; 40_datapath_primitives.md R86; 44_noise.md R135, R136; 45_ntt.md R150-R154). -/

namespace Sys2Proof

open Finset

/-- Coefficient k of the negacyclic convolution of a and b (45_ntt.md R154):
Σ_{i+j=k} a[i]·b[j] − Σ_{i+j=k+256} a[i]·b[j]. -/
def negacyclic (a b : KPoly) (k : Nat) : Int :=
  ∑ i ∈ range 256, ∑ j ∈ range 256,
    if i + j = k then a.lane i * b.lane j else if i + j = k + 256 then -(a.lane i * b.lane j) else 0

/-- The result of the NTT command: NTT_PRIM and then BarrettReduce on every lane, `ntt(x)` of 45_ntt.md R154. -/
def PrimFns.ntt (F : PrimFns) (p : KPoly) : KPoly := Machine.reducePoly (F.nttPrim p)

/-- What the spec says every instance of the function parameters satisfies. -/
structure PrimFns.Contract (F : PrimFns) : Prop where
  /-- PRF returns exactly `len` bytes (44_noise.md R135). -/
  prf_length : ∀ seed nonce len, (F.prf seed nonce len).length = len
  /-- Every output coefficient of CBD(η) is in [-η, η], on every buffer of the right length (44_noise.md R136). -/
  cbd_bound : ∀ eta buf, eta = 2 ∨ eta = 3 → buf.length = Config.noiseBytes eta →
    ∀ i, i < 256 → -(eta : Int) ≤ (F.cbd eta buf).lane i ∧ (F.cbd eta buf).lane i ≤ eta
  /-- (M1) MONT_REDUCE(a) ≡ a · 2^-16 (mod Q) for -Q·2^15 ≤ a < Q·2^15 (40_datapath_primitives.md R86), that is
  MONT_REDUCE(a) · 2^16 ≡ a. -/
  mont_congr : ∀ a : BitVec 32, -109084672 ≤ a.toInt → a.toInt ≤ 109084671 →
    ((F.montReduce a).toInt * 65536) % 3329 = a.toInt % 3329
  /-- (M2) -Q < MONT_REDUCE(a) < Q on the same range (40_datapath_primitives.md R86). -/
  mont_bound : ∀ a : BitVec 32, -109084672 ≤ a.toInt → a.toInt ≤ 109084671 →
    -3329 < (F.montReduce a).toInt ∧ (F.montReduce a).toInt < 3329
  /-- (B1) BASEMUL_PRIM returns values in L when its inputs are in L and τ = ±ZETA_TW(j) (45_ntt.md R152). -/
  basemul_lazy : ∀ a0 a1 b0 b1 : Coeff, ∀ h, h < 128 →
    Config.inLazy a0.toInt = true → Config.inLazy a1.toInt = true →
    Config.inLazy b0.toInt = true → Config.inLazy b1.toInt = true →
    Config.inLazy (F.basemulPrim a0 a1 b0 b1 (Machine.pairTwist F h)).1.toInt = true ∧
    Config.inLazy (F.basemulPrim a0 a1 b0 b1 (Machine.pairTwist F h)).2.toInt = true
  /-- (C1) INVNTT_PRIM(ntt(p))[i] ≡ p[i] · 2^16 (mod Q) for p in L (45_ntt.md R154). -/
  ntt_round_trip : ∀ p : KPoly, p.allLanes Config.inLazy = true → ∀ i, i < 256 →
    (F.invnttPrim (F.ntt p)).lane i % 3329 = (p.lane i * 65536) % 3329
  /-- (C2) INVNTT_PRIM(BM(ntt(a), ntt(b)))[k] ≡ c[k] (mod Q), c the negacyclic convolution, for a and b in L
  (45_ntt.md R154). -/
  ntt_product : ∀ a b : KPoly, a.allLanes Config.inLazy = true → b.allLanes Config.inLazy = true →
    ∀ k, k < 256 →
    (F.invnttPrim (Machine.basemulPoly F (F.ntt a) (F.ntt b))).lane k % 3329 = negacyclic a b k % 3329

end Sys2Proof
end

