-- ==== Sys2Proof/Config/Witness.lean ====
section
/-! DEFINITION. One instance of the function parameters, with the proof that it meets the contract. Its only use is to show
that the contract can be met, so that Config/Chosen.lean may name an instance of which nothing else is known; no meaning and
no statement rests on its values (log entry 2).

The transform evaluates the two halves of a polynomial (even and odd coefficients) at the 128 odd powers of 17, which are the
roots of X^128 + 1 mod 3329. -/

namespace Sys2Proof.Config.Witness

open Finset

/-- The integers mod Q. -/
abbrev Zq := ZMod 3329

/-- The root of pair h: the odd power 17^(2j+1) for h = 2j, its negation for h = 2j+1. -/
def root (h : Nat) : Int :=
  if h % 2 = 0 then 17 ^ (2 * (h / 2) + 1) % 3329 else -(17 ^ (2 * (h / 2) + 1) % 3329)

/-- The canonical representative as a coefficient. -/
def canon (x : Int) : Coeff := BitVec.ofInt 16 (x % 3329)

def ntt (p : KPoly) : KPoly :=
  KPoly.ofLanes fun i => canon (∑ m ∈ range 128, p.lane (2 * m + i % 2) * root (i / 2) ^ m)

def invntt (g : KPoly) : KPoly :=
  KPoly.ofLanes fun i =>
    canon (65536 * 3303 * ∑ h ∈ range 128, g.lane (2 * h + i % 2) * root h ^ (256 - i / 2))

def basemul (a0 a1 b0 b1 t : Coeff) : Coeff × Coeff :=
  (canon ((a0.toInt * b0.toInt + t.toInt * (a1.toInt * b1.toInt)) * 169),
   canon ((a0.toInt * b1.toInt + a1.toInt * b0.toInt) * 169))

def fns : PrimFns where
  prf _ _ len := List.replicate len 0
  cbd _ _ := KPoly.zero
  nttPrim := ntt
  invnttPrim := invntt
  basemulPrim := basemul
  zetaTw j := canon (17 ^ (2 * j + 1))
  montReduce a := canon (a.toInt * 169)

theorem canon_toInt (x : Int) : (canon x).toInt = x % 3329 := by
  have := Int.emod_nonneg x (show (3329 : Int) ≠ 0 by decide)
  have := Int.emod_lt_of_pos x (show (0 : Int) < 3329 by decide)
  exact toInt_ofInt16 (by omega) (by omega)

theorem canon_range (x : Int) : 0 ≤ (canon x).toInt ∧ (canon x).toInt < 3329 := by
  rw [canon_toInt]
  exact ⟨Int.emod_nonneg _ (by decide), Int.emod_lt_of_pos _ (by decide)⟩

theorem cast_mod (x : Int) : ((x % 3329 : Int) : Zq) = (x : Zq) := by
  rw [ZMod.intCast_eq_intCast_iff']; exact Int.emod_emod_of_dvd x (dvd_refl _)

theorem mod_eq_of_cast {x y : Int} (h : (x : Zq) = (y : Zq)) : x % 3329 = y % 3329 :=
  (ZMod.intCast_eq_intCast_iff' x y 3329).mp h

/-- The root of pair h in Zq. -/
def g (h : Nat) : Zq := (root h : Zq)

theorem g_even (j : Nat) : g (2 * j) = (17 : Zq) ^ (2 * j + 1) := by
  simp only [g, root, show 2 * j % 2 = 0 by omega, show 2 * j / 2 = j by omega, if_true, cast_mod]
  push_cast; rfl

theorem g_odd (j : Nat) : g (2 * j + 1) = -(17 : Zq) ^ (2 * j + 1) := by
  simp only [g, root, show ¬(2 * j + 1) % 2 = 0 by omega, show (2 * j + 1) / 2 = j by omega, if_false]
  rw [Int.cast_neg, cast_mod]
  push_cast; rfl

theorem pow17_128 : (17 : Zq) ^ 128 = -1 := by decide +kernel

theorem g_pow_128 (h : Nat) : g h ^ 128 = -1 := by
  have key : ∀ j : Nat, ((17 : Zq) ^ (2 * j + 1)) ^ 128 = -1 := by
    intro j
    rw [← pow_mul, mul_comm, pow_mul, pow17_128, pow_succ, pow_mul]
    simp
  rcases Nat.even_or_odd' h with ⟨j, rfl | rfl⟩
  · rw [g_even, key]
  · rw [g_odd, neg_pow, key]; norm_num

theorem sum_pairs {M : Type} [AddCommMonoid M] (f : Nat → M) (n : Nat) :
    ∑ i ∈ range (2 * n), f i = ∑ j ∈ range n, (f (2 * j) + f (2 * j + 1)) := by
  induction n with
  | zero => simp
  | succ n ih => rw [show 2 * (n + 1) = 2 * n + 1 + 1 by ring, sum_range_succ, sum_range_succ, ih, sum_range_succ]; abel

theorem fact_prime : Fact (Nat.Prime 3329) := ⟨by norm_num⟩

theorem pow17_ne_one : ∀ f : Nat, f < 192 → 65 ≤ f → f ≠ 128 → (17 : Zq) ^ (4 * f) ≠ 1 := by
  have key : ∀ f < 192, 65 ≤ f → f ≠ 128 → 17 ^ (4 * f) % 3329 ≠ 1 % 3329 := by decide +kernel
  intro f h₁ h₂ h₃ h
  apply key f h₁ h₂ h₃
  rw [← ZMod.natCast_eq_natCast_iff']
  push_cast
  exact h

/-- The power sums of the roots: 128 for the exponent 256, 0 for every other exponent the transform meets. -/
theorem root_sum (e : Nat) (h₁ : 129 ≤ e) (h₂ : e < 384) :
    ∑ h ∈ range 128, g h ^ e = if e = 256 then (128 : Zq) else 0 := by
  have := fact_prime
  rw [show 128 = 2 * 64 by rfl, sum_pairs]
  simp only [g_even, g_odd]
  rcases Nat.even_or_odd' e with ⟨f, rfl | rfl⟩
  · have hterm : ∀ j : Nat, ((17 : Zq) ^ (2 * j + 1)) ^ (2 * f) + (-(17 : Zq) ^ (2 * j + 1)) ^ (2 * f)
        = 2 * 17 ^ (2 * f) * (17 ^ (4 * f)) ^ j := by
      intro j
      rw [Even.neg_pow (even_two_mul f)]
      ring
    simp only [hterm, ← mul_sum]
    by_cases hf : f = 128
    · subst hf
      have h1 : (17 : Zq) ^ (4 * 128) = 1 := by
        rw [show 4 * 128 = 128 * 4 by rfl, pow_mul, pow17_128]; norm_num
      have h2 : (17 : Zq) ^ (2 * 128) = 1 := by
        rw [show 2 * 128 = 128 * 2 by rfl, pow_mul, pow17_128]; norm_num
      rw [if_pos (by omega)]
      simp only [h1, h2, one_pow, sum_const, card_range]
      norm_num
    · rw [if_neg (by omega)]
      have hr := pow17_ne_one f (by omega) (by omega) hf
      have hg := geom_sum_mul ((17 : Zq) ^ (4 * f)) 64
      have h1 : ((17 : Zq) ^ (4 * f)) ^ 64 = 1 := by
        rw [← pow_mul, show 4 * f * 64 = 128 * (2 * f) by ring, pow_mul, pow17_128]
        simp
      rw [h1, sub_self] at hg
      rcases mul_eq_zero.mp hg with h | h
      · rw [h, mul_zero]
      · exact absurd (sub_eq_zero.mp h) hr
  · rw [if_neg (by omega)]
    apply sum_eq_zero
    intro j _
    rw [Odd.neg_pow (odd_two_mul_add_one f)]
    ring

/-- The inverse transform recovers the values whose evaluations it is given. -/
theorem inverse_of_evaluations (v : Nat → Zq) (k : Nat) (hk : k < 128) :
    3303 * ∑ h ∈ range 128, (∑ m ∈ range 128, v m * g h ^ m) * g h ^ (256 - k) = v k := by
  have hswap : ∑ h ∈ range 128, (∑ m ∈ range 128, v m * g h ^ m) * g h ^ (256 - k)
      = ∑ m ∈ range 128, v m * ∑ h ∈ range 128, g h ^ (m + (256 - k)) := by
    simp only [sum_mul, mul_sum]
    rw [sum_comm]
    refine sum_congr rfl fun m _ => sum_congr rfl fun h _ => ?_
    rw [pow_add]; ring
  rw [hswap]
  have hterm : ∀ m ∈ range 128, v m * ∑ h ∈ range 128, g h ^ (m + (256 - k)) = if m = k then v k * 128 else 0 := by
    intro m hm
    have hm := mem_range.mp hm
    rw [root_sum _ (by omega) (by omega)]
    by_cases h : m = k
    · subst h; rw [if_pos (by omega), if_pos rfl]
    · rw [if_neg (by omega), if_neg h, mul_zero]
  rw [sum_congr rfl hterm, sum_ite_eq' (range 128) k, if_pos (mem_range.mpr hk)]
  have : (3303 : Zq) * 128 = 1 := by decide +kernel
  calc 3303 * (v k * 128) = v k * (3303 * 128) := by ring
    _ = v k := by rw [this, mul_one]

theorem cast_invntt (w : KPoly) (i : Nat) (hi : i < 256) :
    ((invntt w).lane i : Zq) = 65536 * 3303 * ∑ h ∈ range 128, (w.lane (2 * h + i % 2) : Zq) * g h ^ (256 - i / 2) := by
  rw [invntt, KPoly.lane_ofLanes _ hi, canon_toInt, cast_mod]
  push_cast
  rfl

theorem cast_ntt (p : KPoly) (h c : Nat) (hh : h < 128) (hc : c < 2) :
    ((fns.ntt p).lane (2 * h + c) : Zq) = ∑ m ∈ range 128, (p.lane (2 * m + c) : Zq) * g h ^ m := by
  rw [PrimFns.ntt, Machine.lane_reducePoly _ (by omega), cast_mod]
  show ((ntt p).lane (2 * h + c) : Zq) = _
  rw [ntt, KPoly.lane_ofLanes _ (by omega), canon_toInt, cast_mod]
  rw [show (2 * h + c) % 2 = c by omega, show (2 * h + c) / 2 = h by omega]
  push_cast
  rfl

theorem round_trip (p : KPoly) (i : Nat) (hi : i < 256) :
    ((invntt (fns.ntt p)).lane i : Zq) = p.lane i * 65536 := by
  rw [cast_invntt _ _ hi]
  have : ∑ h ∈ range 128, ((fns.ntt p).lane (2 * h + i % 2) : Zq) * g h ^ (256 - i / 2)
      = ∑ h ∈ range 128, (∑ m ∈ range 128, (p.lane (2 * m + i % 2) : Zq) * g h ^ m) * g h ^ (256 - i / 2) :=
    sum_congr rfl fun h hh => by rw [cast_ntt p h _ (mem_range.mp hh) (by omega)]
  rw [this, mul_assoc, inverse_of_evaluations (fun m => (p.lane (2 * m + i % 2) : Zq)) _ (by omega)]
  simp only [show 2 * (i / 2) + i % 2 = i by omega]
  ring

theorem twist_toInt (h : Nat) : (Machine.pairTwist fns h).toInt = root h := by
  have hr := canon_range (17 ^ (2 * (h / 2) + 1))
  unfold Machine.pairTwist root
  split
  · exact canon_toInt _
  · show (-(canon (17 ^ (2 * (h / 2) + 1)))).toInt = _
    rw [BitVec.toInt_neg, canon_toInt]
    rw [canon_toInt] at hr
    rw [Int.bmod_def]
    norm_num
    split <;> omega

/-- The coefficient with which a product of degree n enters coefficient 2m+c of the negacyclic convolution, summed with the
powers of a root. -/
theorem degree_weight (h n c : Nat) (hn : n < 512) (hc : c < 2) :
    ∑ m ∈ range 128, (if n = 2 * m + c then (1 : Zq) else if n = 2 * m + c + 256 then -1 else 0) * g h ^ m
      = if n % 2 = c then g h ^ (n / 2) else 0 := by
  by_cases hp : n % 2 = c
  · rw [if_pos hp]
    by_cases hlt : n < 256
    · rw [sum_eq_single_of_mem (n / 2) (mem_range.mpr (by omega))]
      · rw [if_pos (by omega), one_mul]
      · intro m _ hm
        rw [if_neg (by omega), if_neg (by omega), zero_mul]
    · rw [sum_eq_single_of_mem (n / 2 - 128) (mem_range.mpr (by omega))]
      · have hsplit : g h ^ (n / 2) = g h ^ 128 * g h ^ (n / 2 - 128) := by
          rw [← pow_add, show 128 + (n / 2 - 128) = n / 2 by omega]
        rw [if_neg (show ¬n = 2 * (n / 2 - 128) + c by omega),
          if_pos (show n = 2 * (n / 2 - 128) + c + 256 by omega), hsplit, g_pow_128]
      · intro m hm hne
        have := mem_range.mp hm
        rw [if_neg (by omega), if_neg (by omega), zero_mul]
  · rw [if_neg hp]
    apply sum_eq_zero
    intro m _
    rw [if_neg (by omega), if_neg (by omega), zero_mul]

theorem cast_negacyclic (a b : KPoly) (k : Nat) :
    (negacyclic a b k : Zq) = ∑ x ∈ range 256, ∑ y ∈ range 256, (a.lane x : Zq) * b.lane y *
      (if x + y = k then (1 : Zq) else if x + y = k + 256 then -1 else 0) := by
  rw [negacyclic, Int.cast_sum]
  refine sum_congr rfl fun x _ => ?_
  rw [Int.cast_sum]
  refine sum_congr rfl fun y _ => ?_
  split
  · push_cast; ring
  · split
    · push_cast; ring
    · push_cast; ring

/-- The evaluations of the negacyclic convolution: each product a[x]·b[y] counts where its degree has parity c. -/
theorem eval_negacyclic (a b : KPoly) (h c : Nat) (hc : c < 2) :
    ∑ m ∈ range 128, (negacyclic a b (2 * m + c) : Zq) * g h ^ m
      = ∑ x ∈ range 256, ∑ y ∈ range 256, (a.lane x : Zq) * b.lane y *
          (if (x + y) % 2 = c then g h ^ ((x + y) / 2) else 0) := by
  have : ∑ m ∈ range 128, (negacyclic a b (2 * m + c) : Zq) * g h ^ m
      = ∑ x ∈ range 256, ∑ y ∈ range 256, (a.lane x : Zq) * b.lane y *
          ∑ m ∈ range 128, (if x + y = 2 * m + c then (1 : Zq) else if x + y = 2 * m + c + 256 then -1 else 0) * g h ^ m := by
    simp only [cast_negacyclic, sum_mul, mul_sum]
    rw [sum_comm]
    refine sum_congr rfl fun x _ => ?_
    rw [sum_comm]
    refine sum_congr rfl fun y _ => sum_congr rfl fun m _ => ?_
    rw [mul_assoc]
  rw [this]
  refine sum_congr rfl fun x hx => sum_congr rfl fun y hy => ?_
  have := mem_range.mp hx
  have := mem_range.mp hy
  rw [degree_weight h (x + y) c (by omega) hc]

/-- Evaluation of one half of a polynomial at a root. -/
def ev (p : KPoly) (h c : Nat) : Zq := ∑ m ∈ range 128, (p.lane (2 * m + c) : Zq) * g h ^ m

theorem pair_product (a b : KPoly) (h : Nat) (hh : h < 128) :
    (((Machine.basemulPoly fns (fns.ntt a) (fns.ntt b)).lane (2 * h) : Zq)
        = (ev a h 0 * ev b h 0 + g h * (ev a h 1 * ev b h 1)) * 169) ∧
    (((Machine.basemulPoly fns (fns.ntt a) (fns.ntt b)).lane (2 * h + 1) : Zq)
        = (ev a h 0 * ev b h 1 + ev a h 1 * ev b h 0) * 169) := by
  have ha0 := cast_ntt a h 0 hh (by omega)
  have ha1 := cast_ntt a h 1 hh (by omega)
  have hb0 := cast_ntt b h 0 hh (by omega)
  have hb1 := cast_ntt b h 1 hh (by omega)
  simp only [Nat.add_zero] at ha0 hb0
  obtain ⟨h₀, h₁⟩ := Machine.coeff_basemulPoly fns (fns.ntt a) (fns.ntt b) hh
  have hg : ((Machine.pairTwist fns h).toInt : Zq) = g h := by rw [twist_toInt]; rfl
  constructor
  · rw [KPoly.lane, h₀]
    show ((canon _).toInt : Zq) = _
    rw [canon_toInt, cast_mod]
    push_cast
    rw [hg]
    simp only [KPoly.lane] at ha0 ha1 hb0 hb1
    rw [ha0, ha1, hb0, hb1]
    simp only [ev, KPoly.lane, Nat.add_zero]
  · rw [KPoly.lane, h₁]
    show ((canon _).toInt : Zq) = _
    rw [canon_toInt, cast_mod]
    push_cast
    simp only [KPoly.lane] at ha0 ha1 hb0 hb1
    rw [ha0, ha1, hb0, hb1]
    simp only [ev, KPoly.lane, Nat.add_zero]

/-- The evaluations of the convolution are the products of the evaluations, mod X^2 - (the root). -/
theorem eval_product (a b : KPoly) (h : Nat) :
    (∑ m ∈ range 128, (negacyclic a b (2 * m) : Zq) * g h ^ m
        = ev a h 0 * ev b h 0 + g h * (ev a h 1 * ev b h 1)) ∧
    (∑ m ∈ range 128, (negacyclic a b (2 * m + 1) : Zq) * g h ^ m
        = ev a h 0 * ev b h 1 + ev a h 1 * ev b h 0) := by
  have e0 := eval_negacyclic a b h 0 (by omega)
  have e1 := eval_negacyclic a b h 1 (by omega)
  simp only [Nat.add_zero] at e0
  rw [e0, e1]
  simp only [show (256 : Nat) = 2 * 128 by rfl]
  simp only [sum_pairs]
  simp only [ev, sum_mul_sum]
  constructor
  · rw [mul_sum, ← sum_add_distrib]
    refine sum_congr rfl fun u _ => ?_
    rw [mul_sum, ← sum_add_distrib, ← sum_add_distrib]
    refine sum_congr rfl fun v _ => ?_
    rw [if_pos (show (2 * u + 2 * v) % 2 = 0 by omega), if_neg (show ¬(2 * u + (2 * v + 1)) % 2 = 0 by omega),
      if_neg (show ¬(2 * u + 1 + 2 * v) % 2 = 0 by omega), if_pos (show (2 * u + 1 + (2 * v + 1)) % 2 = 0 by omega),
      show (2 * u + 2 * v) / 2 = u + v by omega, show (2 * u + 1 + (2 * v + 1)) / 2 = u + v + 1 by omega]
    simp only [Nat.add_zero, pow_add, pow_one]
    ring
  · rw [← sum_add_distrib]
    refine sum_congr rfl fun u _ => ?_
    rw [← sum_add_distrib, ← sum_add_distrib]
    refine sum_congr rfl fun v _ => ?_
    rw [if_neg (show ¬(2 * u + 2 * v) % 2 = 1 by omega), if_pos (show (2 * u + (2 * v + 1)) % 2 = 1 by omega),
      if_pos (show (2 * u + 1 + 2 * v) % 2 = 1 by omega), if_neg (show ¬(2 * u + 1 + (2 * v + 1)) % 2 = 1 by omega),
      show (2 * u + (2 * v + 1)) / 2 = u + v by omega, show (2 * u + 1 + 2 * v) / 2 = u + v by omega]
    simp only [Nat.add_zero, pow_add]
    ring

theorem product (a b : KPoly) (k : Nat) (hk : k < 256) :
    ((invntt (Machine.basemulPoly fns (fns.ntt a) (fns.ntt b))).lane k : Zq) = negacyclic a b k := by
  rw [cast_invntt _ _ hk]
  have hscale : (65536 : Zq) * 169 = 1 := by decide +kernel
  have hsum : ∑ h ∈ range 128,
        ((Machine.basemulPoly fns (fns.ntt a) (fns.ntt b)).lane (2 * h + k % 2) : Zq) * g h ^ (256 - k / 2)
      = 169 * ∑ h ∈ range 128,
          (∑ m ∈ range 128, (negacyclic a b (2 * m + k % 2) : Zq) * g h ^ m) * g h ^ (256 - k / 2) := by
    rw [mul_sum]
    refine sum_congr rfl fun h hh => ?_
    obtain ⟨p₀, p₁⟩ := pair_product a b h (mem_range.mp hh)
    obtain ⟨q₀, q₁⟩ := eval_product a b h
    rcases Nat.mod_two_eq_zero_or_one k with hc | hc
    · simp only [hc, Nat.add_zero]
      rw [p₀, q₀]; ring
    · simp only [hc]
      rw [p₁, q₁]; ring
  rw [hsum]
  have := inverse_of_evaluations (fun m => (negacyclic a b (2 * m + k % 2) : Zq)) (k / 2) (by omega)
  simp only [show 2 * (k / 2) + k % 2 = k by omega] at this
  calc _ = (65536 * 169) * (3303 * ∑ h ∈ range 128,
          (∑ m ∈ range 128, (negacyclic a b (2 * m + k % 2) : Zq) * g h ^ m) * g h ^ (256 - k / 2)) := by ring
    _ = _ := by rw [this, hscale, one_mul]

theorem canon_lazy (x : Int) : inLazy (canon x).toInt = true := by
  have := canon_range x
  simp only [inLazy, Bool.and_eq_true, decide_eq_true_eq]
  omega

theorem contract : fns.Contract where
  prf_length _ _ len := List.length_replicate
  cbd_bound eta _ he _ i hi := by
    show -(eta : Int) ≤ KPoly.zero.lane i ∧ KPoly.zero.lane i ≤ eta
    rw [KPoly.lane_zero]; omega
  mont_congr a _ _ := by
    show ((canon (a.toInt * 169)).toInt * 65536) % 3329 = _
    rw [canon_toInt]; omega
  mont_bound a _ _ := by
    have := canon_range (a.toInt * 169)
    exact ⟨lt_of_lt_of_le (by decide) this.1, this.2⟩
  basemul_lazy _ _ _ _ _ _ _ _ _ _ := ⟨canon_lazy _, canon_lazy _⟩
  ntt_round_trip p _ i hi := by
    apply mod_eq_of_cast
    rw [Int.cast_mul]
    exact round_trip p i hi
  ntt_product a b _ _ k hk := mod_eq_of_cast (product a b k hk)

end Sys2Proof.Config.Witness
end

