-- ==== Sys2Proof/Config/Chosen.lean ====
section
/-! DEFINITION. The open values of the model: the function parameters this KPOLY was elaborated with, and the value of a BMEM
byte that nothing has written. Both are opaque constants with no body: nothing in Lean can evaluate them. -/

namespace Sys2Proof

/-- Function parameters that meet the contract. The default fields serve only to show that there are such
(Config/Witness.lean). -/
structure ChosenPrims where
  fns      : PrimFns := Config.Witness.fns
  contract : fns.Contract := by exact Config.Witness.contract
deriving Inhabited

/-- The function parameters of this machine, fixed at elaboration (00_scope.md R11). Only their contract is known
(DESIGN CHOICE, log entry 2). -/
opaque Config.prims : ChosenPrims

/-- The value a host read returns for BMEM[a] when no one has written it since the reset number `n` (60_exceptions.md R194:
"the byte's value, which is unspecified"). A free value (log entry 5). -/
opaque Config.unwrittenByte : (n a : Nat) → Byte

end Sys2Proof
end

