-- ==== Sys2Proof/Machine/Noise.lean ====
section
/-! DEFINITION. The noise-sampler glue GETNOISE1 and GETNOISE2 (44_noise.md), over the function parameters PRF and CBD. -/

namespace Sys2Proof.Machine

/-- CBD(η)(PRF(seed, nonce, 64·η)) (44_noise.md R137). -/
def noisePoly (F : PrimFns) (eta : Nat) (seed : List Byte) (nonce : Byte) : KPoly :=
  F.cbd eta (F.prf seed nonce (Config.noiseBytes eta))

/-- GETNOISE1 rd, addr, nonce with the function parameters `F` (44_noise.md R137). -/
def execGetnoise1With (F : PrimFns) (rd : Reg) (addr : Addr) (nonce : Byte) (s : State) :
    Host.Outcome State Fault Refusal :=
  conclude (.getnoise1 rd addr nonce) s do
    let seed ← memRead s addr.toNat s.params.symbytes
    .ok (s.writeReg rd (noisePoly F s.params.eta1 seed nonce))

/-- GETNOISE2 rd, addr, nonce with the function parameters `F` (44_noise.md R138). -/
def execGetnoise2With (F : PrimFns) (rd : Reg) (addr : Addr) (nonce : Byte) (s : State) :
    Host.Outcome State Fault Refusal :=
  conclude (.getnoise2 rd addr nonce) s do
    let seed ← memRead s addr.toNat s.params.symbytes
    .ok (s.writeReg rd (noisePoly F s.params.eta2 seed nonce))

/-- GETNOISE1 of this machine. -/
def execGetnoise1 (rd : Reg) (addr : Addr) (nonce : Byte) (s : State) : Host.Outcome State Fault Refusal :=
  execGetnoise1With Config.prims.fns rd addr nonce s

/-- GETNOISE2 of this machine. -/
def execGetnoise2 (rd : Reg) (addr : Addr) (nonce : Byte) (s : State) : Host.Outcome State Fault Refusal :=
  execGetnoise2With Config.prims.fns rd addr nonce s

end Sys2Proof.Machine
end

