-- ==== Sys2Proof/Machine/Ntt.lean ====
section
/-! DEFINITION. The NTT-domain dispatch NTT, INVNTT, BASEMUL and TOMONT (45_ntt.md), over the function parameters. No domain
tag is kept or checked (00_scope.md R7, 45_ntt.md R159). -/

namespace Sys2Proof.Machine

/-- NTT rd with the function parameters `F`: the transform, then BarrettReduce on every lane (45_ntt.md R155). -/
def execNttWith (F : PrimFns) (rd : Reg) (s : State) : Host.Outcome State Fault Refusal :=
  conclude (.ntt rd) s do
    let x ← readReg s rd
    checkLanes (goodLanes Config.inLazy x)
    .ok (s.writeReg rd (reducePoly (F.nttPrim x)))

/-- INVNTT rd with the function parameters `F`; the result is not reduced (45_ntt.md R156). -/
def execInvnttWith (F : PrimFns) (rd : Reg) (s : State) : Host.Outcome State Fault Refusal :=
  conclude (.invntt rd) s do
    let x ← readReg s rd
    checkLanes (goodLanes Config.inLazy x)
    .ok (s.writeReg rd (F.invnttPrim x))

/-- BASEMUL rd, rs1, rs2 with the function parameters `F`; both sources are read before rd is written (45_ntt.md R157). -/
def execBasemulWith (F : PrimFns) (rd rs1 rs2 : Reg) (s : State) : Host.Outcome State Fault Refusal :=
  conclude (.basemul rd rs1 rs2) s do
    let a ← readReg s rs1
    let b ← readReg s rs2
    checkLanes (goodPairs Config.inLazy a b)
    .ok (s.writeReg rd (basemulPoly F a b))

/-- TOMONT rd with the function parameters `F` (45_ntt.md R158); every int16 is in its domain. -/
def execTomontWith (F : PrimFns) (rd : Reg) (s : State) : Host.Outcome State Fault Refusal :=
  conclude (.tomont rd) s do
    let x ← readReg s rd
    .ok (s.writeReg rd (KPoly.mapLanes (tomontLane F) x))

/-- NTT of this machine. -/
def execNtt (rd : Reg) (s : State) : Host.Outcome State Fault Refusal := execNttWith Config.prims.fns rd s

/-- INVNTT of this machine. -/
def execInvntt (rd : Reg) (s : State) : Host.Outcome State Fault Refusal := execInvnttWith Config.prims.fns rd s

/-- BASEMUL of this machine. -/
def execBasemul (rd rs1 rs2 : Reg) (s : State) : Host.Outcome State Fault Refusal :=
  execBasemulWith Config.prims.fns rd rs1 rs2 s

/-- TOMONT of this machine. -/
def execTomont (rd : Reg) (s : State) : Host.Outcome State Fault Refusal := execTomontWith Config.prims.fns rd s

end Sys2Proof.Machine
end

