-- ==== Sys2Proof/Machine/Serialization.lean ====
section
/-! DEFINITION. The serialization codec TOBYTES and FROMBYTES (42_serialization.md). -/

namespace Sys2Proof.Machine

/-- The 384 bytes of a register: Pack_12 of SignFix of each coefficient (42_serialization.md R110). -/
def serialize (p : KPoly) : List Byte := packPoly 12 (fun c => (signFix c).toNat) p

/-- The register of 384 bytes: Unpack_12, not reduced (42_serialization.md R111). -/
def deserialize (b : List Byte) : KPoly := unpackPoly 12 (fun x => BitVec.ofNat 16 x) b

/-- TOBYTES rs1, addr (42_serialization.md R110). -/
def execTobytes (rs1 : Reg) (addr : Addr) (s : State) : Host.Outcome State Fault Refusal :=
  conclude (.tobytes rs1 addr) s do
    checkRange s addr.toNat Config.polyBytes
    let x ← readReg s rs1
    checkLanes (goodLanes Config.inSignFix x)
    .ok (s.memWrite addr.toNat (serialize x))

/-- FROMBYTES rd, addr (42_serialization.md R111). -/
def execFrombytes (rd : Reg) (addr : Addr) (s : State) : Host.Outcome State Fault Refusal :=
  conclude (.frombytes rd addr) s do
    let b ← memRead s addr.toNat Config.polyBytes
    .ok (s.writeReg rd (deserialize b))

end Sys2Proof.Machine
end

