-- ==== Sys2Proof/Machine/Dispatch.lean ====
section
/-! DEFINITION. The dispatch from a command to its meaning, one arm a constructor (30_encoding.md R65). -/

namespace Sys2Proof.Machine

def exec (i : Instr) (s : State) : Host.Outcome State Fault Refusal :=
  match i with
  | .nop => Sys2Proof.Machine.execNop s
  | .pzero rd => Sys2Proof.Machine.execPzero rd s
  | .tobytes rs1 addr => Sys2Proof.Machine.execTobytes rs1 addr s
  | .frombytes rd addr => Sys2Proof.Machine.execFrombytes rd addr s
  | .compress rs1 addr => Sys2Proof.Machine.execCompress rs1 addr s
  | .decompress rd addr => Sys2Proof.Machine.execDecompress rd addr s
  | .getnoise1 rd addr nonce => Sys2Proof.Machine.execGetnoise1 rd addr nonce s
  | .getnoise2 rd addr nonce => Sys2Proof.Machine.execGetnoise2 rd addr nonce s
  | .ntt rd => Sys2Proof.Machine.execNtt rd s
  | .invntt rd => Sys2Proof.Machine.execInvntt rd s
  | .basemul rd rs1 rs2 => Sys2Proof.Machine.execBasemul rd rs1 rs2 s
  | .tomont rd => Sys2Proof.Machine.execTomont rd s
  | .add rd rs1 => Sys2Proof.Machine.execAdd rd rs1 s
  | .sub rd rs1 => Sys2Proof.Machine.execSub rd rs1 s
  | .reduce rd => Sys2Proof.Machine.execReduce rd s
  | .frommsg rd addr => Sys2Proof.Machine.execFrommsg rd addr s
  | .tomsg rs1 addr => Sys2Proof.Machine.execTomsg rs1 addr s

end Sys2Proof.Machine
end

