-- ==== Sys2Proof/Machine/Flags.lean ====
section
/-! DEFINITION. KPOLY has no condition codes, flags or predicates (10_state.md R31): no command computes a flag. Its one
status register is STATUS; this file gives the words the host reads of STATUS, CONFIG and CONFIG2 (10_state.md R26-R28). -/

namespace Sys2Proof.Machine

/-- The cause code (60_exceptions.md R190). -/
def Cause.code : Cause → BitVec 4
  | .noFault => 0
  | .config => 1
  | .illegal => 2
  | .bufferRange => 3
  | .uninitReg => 4
  | .uninitMem => 5
  | .coeffRange => 6

/-- The STATUS word: FIDX 16:8, CAUSE 7:4, HALTED 1, BUSY 0, the rest 0 (10_state.md R26). -/
def State.statusWord (s : State) : Word :=
  0#15 ++ s.status.fidx ++ s.status.cause.code ++ 0#2 ++ BitVec.ofBool s.status.halted ++ BitVec.ofBool s.status.busy

/-- The CONFIG word: NPOLY 28:24, ETA2 23:20, ETA1 19:16, CBYTES 15:0, the rest 0 (10_state.md R27). -/
def State.configWord (s : State) : Word :=
  0#3 ++ BitVec.ofNat 5 s.params.npoly ++ BitVec.ofNat 4 s.params.eta2 ++ BitVec.ofNat 4 s.params.eta1 ++
    BitVec.ofNat 16 s.params.cbytes

/-- The CONFIG2 word: SYMBYTES 23:16, BMEM_SIZE 15:0, the rest 0 (10_state.md R28). -/
def State.config2Word (s : State) : Word :=
  0#8 ++ BitVec.ofNat 8 s.params.symbytes ++ BitVec.ofNat 16 s.params.bmemSize

end Sys2Proof.Machine
end

