-- ==== Sys2Proof/Machine/Port.lean ====
section
/-! DEFINITION. The host port (20_memory.md R50-R54): what a host access, a CMD write and a host reset do. -/

namespace Sys2Proof.Machine

/-! CMD (10_state.md R29, R30). -/

/-- The command word `w`, executed in state `s`: Decode, then the command's meaning; a word that does not decode enters
Fault(ILLEGAL, 0) with FCMD = the word (30_encoding.md R68, 60_exceptions.md R191, R199). -/
def runWord (w : Word) (s : State) : Host.Outcome State Fault Refusal :=
  match decode s.params.npoly w with
  | some i => exec i s
  | none => .next (s.enterFault illegalFault w)

/-- pc <- pc + 1 on the state a CMD write ends in (10_state.md R30). -/
def advancePc (o : Host.Outcome State Fault Refusal) : Host.Outcome State Fault Refusal :=
  match o with
  | .next s => .next { s with pc := s.pc + 1 }
  | .fault r => .fault r
  | .refused r => .refused r

/-- A CMD write: it executes one command when HALTED = 0 and is ignored when HALTED = 1; either way pc advances by 1
(10_state.md R30, 20_memory.md R54). -/
def issue (w : Word) (s : State) : Host.Outcome State Fault Refusal :=
  if s.status.halted then advancePc (.next s) else advancePc (runWord w s)

/-! The window (20_memory.md R50). -/

/-- The offset lies in the BMEM part of the window. -/
def inBmemWindow (s : State) (offset : Nat) : Bool :=
  decide (0x1000 ≤ offset) && decide (offset < 0x1000 + s.params.bmemSize)

/-- The value a host reads of BMEM[a]: the byte, or a free value when WRITTEN[a] = 0 (60_exceptions.md R194, log entry 5). -/
def hostByte (s : State) (a : Nat) : Byte := (s.bmem.read a).getD (Config.unwrittenByte s.resets a)

/-- The byte a host reads at an offset of 0x014 or more: BMEM, or 0 where reserved (20_memory.md R50, R52). -/
def windowByte (s : State) (offset : Nat) : Byte :=
  if inBmemWindow s offset then hostByte s (offset - 0x1000) else 0

/-- The little-endian 32-bit value at an offset of 0x014 or more (20_memory.md R51, log entry 8). -/
def windowWord (s : State) (offset : Nat) : Word :=
  windowByte s (offset + 3) ++ windowByte s (offset + 2) ++ windowByte s (offset + 1) ++ windowByte s offset

/-- The word of a host register; CMD reads 0 (20_memory.md R50, 10_state.md R26-R29). -/
def registerWord (s : State) (offset : Nat) : Word :=
  if offset = 0x004 then s.statusWord
  else if offset = 0x008 then s.configWord
  else if offset = 0x00C then s.fcmd
  else if offset = 0x010 then s.config2Word
  else 0

/-- The four bytes of a word, least significant first (20_memory.md R51). -/
def wordBytes (w : Word) : List Byte :=
  [w.extractLsb' 0 8, w.extractLsb' 8 8, w.extractLsb' 16 8, w.extractLsb' 24 8]

/-- The bytes a host write of `size` bytes stores. -/
def writeBytes (size : Nat) (w : Word) : List Byte := (wordBytes w).take size

/-- The widths and alignments of 20_memory.md R51: an aligned 32-bit access anywhere, an 8-bit access outside the registers. -/
def supportedForm (size offset : Nat) : Bool :=
  (size == 4 && offset % 4 == 0) || (size == 1 && decide (0x014 ≤ offset))

/-- The access is inside the 8192-byte window (20_memory.md R50). -/
def insideWindow (size offset : Nat) : Bool := decide (offset < 0x2000) && decide (offset + size ≤ 0x2000)

/-- The value of a host read in a supported form. -/
def readValue (size offset : Nat) (s : State) : Word :=
  if offset < 0x014 then registerWord s offset
  else if size = 1 then (windowByte s offset).setWidth 32
  else windowWord s offset

/-- BMEM after a host write outside the registers: bytes at reserved offsets are ignored (20_memory.md R50-R52). -/
def storeWindow (size offset : Nat) (w : Word) (s : State) : State :=
  if inBmemWindow s offset then
    s.memWrite (offset - 0x1000) ((writeBytes size w).take (s.params.bmemSize - (offset - 0x1000)))
  else s

/-- A host write in a supported form: CMD issues a command, the other registers and reserved offsets ignore it, BMEM takes it
and sets WRITTEN (20_memory.md R50-R52). -/
def writeAccess (size offset : Nat) (w : Word) (s : State) : Host.Outcome State Fault Refusal :=
  if offset = 0x000 then issue w s
  else if offset < 0x014 then .next s
  else .next (storeWindow size offset w s)

/-- One host action in a state whose host queue is already past it. -/
def perform (op : HostOp) (s : State) : Host.Outcome State Fault Refusal :=
  match op with
  | .reset => .next s.hostReset
  | .read size offset =>
    if insideWindow size offset then
      if supportedForm size offset then .next { s with replies := readValue size offset s :: s.replies }
      else .refused (.hostAccessForm size offset)
    else .fault (.outsideHostWindow offset)
  | .write size offset w =>
    if insideWindow size offset then
      if supportedForm size offset then writeAccess size offset w s
      else .refused (.hostAccessForm size offset)
    else .fault (.outsideHostWindow offset)

/-- The access is a read of STATUS, the one access that does not stall while BUSY = 1 (20_memory.md R53). -/
def isStatusRead (op : HostOp) : Bool := op == .read 4 0x004

/-- The host's next action: none when its program is over (60_exceptions.md R212); while BUSY = 1 everything but a STATUS
read stalls (20_memory.md R53, log entry 11). -/
def hostAccess (s : State) : Host.Outcome State Fault Refusal :=
  match s.host with
  | [] => .next s
  | op :: rest =>
    if s.status.busy && !isStatusRead op then .next s
    else perform op { s with host := rest }

end Sys2Proof.Machine
end

