-- ==== Sys2Proof/Machine/Step.lean ====
section
/-! DEFINITION. One step of the machine: the host's next action, with the command it starts (10_state.md R33, 20_memory.md
R55). -/

namespace Sys2Proof.Machine

/-- One step: the next item of the host's program. -/
def step (s : State) : Host.Outcome State Fault Refusal := hostAccess s

/-- `s` with a CMD write of the opcode table's word `w` as the host's next action (20_memory.md R50; log entry 6). -/
def State.withFetchWord (s : State) (nbits w : Nat) : State :=
  { s with host := .write 4 0x000 (BitVec.ofNat 32 (w % 2 ^ nbits)) :: s.host }

end Sys2Proof.Machine
end

