-- ==== Sys2Proof/Machine/Reference.lean ====
section
/-! DEFINITION. The default instances of the function parameters, which the spec gives "for tests" and "from general
knowledge" (40_datapath_primitives.md R85, R87, R88, R90; 44_noise.md R140, R141; 45_ntt.md R160, R161). No meaning and no
step uses them: the machine's own parameters are `Config.prims` (PRESUMED, log entry 17). SHAKE-256 is that of FIPS 202. -/

namespace Sys2Proof.Machine

/-! Reduction (40_datapath_primitives.md R85, R87, R88). -/

/-- MONT_REDUCE_ref: t = wrap16(a * 62209), (a − t*Q) >> 16 (R87). -/
def montReduceRef (a : BitVec 32) : Coeff :=
  BitVec.ofInt 16 ((a.toInt - (a.setWidth 16 * 62209#16).toInt * 3329) / 65536)

/-- FQMUL(a, b) = MONT_REDUCE(a*b), with the default MONT_REDUCE (R88). -/
def fqmulRef (a b : Coeff) : Coeff := montReduceRef (BitVec.ofInt 32 (a.toInt * b.toInt))

/-- BarrettRef: the centered value c of the circuit of R85, t = (20159*x + 2^25) >> 26, c = x − t*Q. -/
def barrettRef (x : Coeff) : Coeff := BitVec.ofInt 16 (x.toInt - (20159 * x.toInt + 33554432) / 67108864 * 3329)

/-- The whole circuit of R85: SignFix of the centered value. -/
def barrettCircuit (x : Coeff) : Coeff := signFix (barrettRef x)

/-! Compression by multiply and shift, on a 32-bit accumulator that wraps (40_datapath_primitives.md R90). -/

def compressFixed4 (u : Nat) : Nat := (((u <<< 4) + 1665) * 80635 % 2 ^ 32) >>> 28 &&& 0xF
def compressFixed5 (u : Nat) : Nat := (((u <<< 5) + 1664) * 40318 % 2 ^ 32) >>> 27 &&& 0x1F

/-! The samplers (44_noise.md R141). -/

/-- The little-endian value of k bytes from offset i. -/
def littleEndian (buf : List Byte) (i k : Nat) : Nat :=
  natOfBits (bitStream 8 (((buf.drop i).take k).map fun b => b.toNat))

/-- Lane j of the sum of the masked shifts `d`: a − b of two η-bit-count fields of width w. -/
def cbdLane (w d j : Nat) : Coeff :=
  BitVec.ofInt 16 (((d >>> (2 * w * j)) % 2 ^ w : Nat) - ((d >>> (2 * w * j + w)) % 2 ^ w : Nat) : Int)

def cbdRef2 (buf : List Byte) : KPoly :=
  KPoly.ofLanes fun i =>
    let t := littleEndian buf (4 * (i / 8)) 4
    cbdLane 2 ((t &&& 0x55555555) + ((t >>> 1) &&& 0x55555555)) (i % 8)

def cbdRef3 (buf : List Byte) : KPoly :=
  KPoly.ofLanes fun i =>
    let t := littleEndian buf (3 * (i / 4)) 3
    cbdLane 3 ((t &&& 0x249249) + ((t >>> 1) &&& 0x249249) + ((t >>> 2) &&& 0x249249)) (i % 4)

/-- CBD_ref(η) (R141). -/
def cbdRef (eta : Nat) (buf : List Byte) : KPoly := if eta = 2 then cbdRef2 buf else cbdRef3 buf

/-! The twiddle table and the butterflies (45_ntt.md R160, R161). -/

/-- zetas[0..127] (R160). -/
def zetas : List Int :=
  [-1044, -758, -359, -1517, 1493, 1422, 287, 202, -171, 622, 1577, 182, 962, -1202, -1474, 1468] ++
  [573, -1325, 264, 383, -829, 1458, -1602, -130, -681, 1017, 732, 608, -1542, 411, -205, -1571] ++
  [1223, 652, -552, 1015, -1293, 1491, -282, -1544, 516, -8, -320, -666, -1618, -1162, 126, 1469] ++
  [-853, -90, -271, 830, 107, -1421, -247, -951, -398, 961, -1508, -725, 448, -1065, 677, -1275] ++
  [-1103, 430, 555, 843, -1251, 871, 1550, 105, 422, 587, 177, -235, -291, -460, 1574, 1653] ++
  [-246, 778, 1159, -147, -777, 1483, -602, 1119, -1590, 644, -872, 349, 418, 329, -156, -75] ++
  [817, 1097, 603, 610, 1322, -1285, -1465, 384, -1215, -136, 1218, -1335, -874, 220, -1187, -1659] ++
  [-1185, -1530, -1278, 794, -1510, -854, -870, 478, -108, -308, 996, 991, 958, -1460, 1522, 1628]

def zetaRef (k : Nat) : Coeff := BitVec.ofInt 16 (zetas.getD k 0)

/-- The twiddles of the layer with block half-length `len`: zetas[128/len .. 256/len − 1]. -/
def layerZetas (len : Nat) : List Coeff := (List.range (128 / len)).map fun k => zetaRef (128 / len + k)

/-- One layer of NTT_ref: a block of 2*len coefficients for each twiddle. -/
def nttLayer (len : Nat) : List Coeff → List Coeff → List Coeff
  | [], _ => []
  | z :: zs, r =>
    let t := ((r.drop len).take len).map (fqmulRef z)
    List.zipWith (· + ·) (r.take len) t ++ List.zipWith (· - ·) (r.take len) t ++ nttLayer len zs (r.drop (2 * len))

/-- One layer of INVNTT_ref, its twiddles taken in falling order. -/
def invnttLayer (len : Nat) : List Coeff → List Coeff → List Coeff
  | [], _ => []
  | z :: zs, r =>
    let lo := r.take len
    let hi := (r.drop len).take len
    List.zipWith (fun a b => barrettRef (a + b)) lo hi ++ List.zipWith (fun a b => fqmulRef z (b - a)) lo hi ++
      invnttLayer len zs (r.drop (2 * len))

/-- A register from its list of coefficients. -/
def polyOfList (l : List Coeff) : KPoly := KPoly.ofLanes fun i => l.getD i 0

/-- NTT_ref (R161). -/
def nttRef (p : KPoly) : KPoly :=
  polyOfList ([128, 64, 32, 16, 8, 4, 2].foldl (fun r len => nttLayer len (layerZetas len) r) p.toList)

/-- INVNTT_ref (R161); 1441 = 2^32 / 128 mod Q. -/
def invnttRef (p : KPoly) : KPoly :=
  polyOfList
    (([2, 4, 8, 16, 32, 64, 128].foldl (fun r len => invnttLayer len (layerZetas len).reverse r) p.toList).map
      fun c => fqmulRef c 1441)

/-- BASEMUL_ref (R161). -/
def basemulRef (a0 a1 b0 b1 zeta : Coeff) : Coeff × Coeff :=
  (fqmulRef (fqmulRef a1 b1) zeta + fqmulRef a0 b0, fqmulRef a0 b1 + fqmulRef a1 b0)

/-! The PRF, SHAKE-256 (44_noise.md R140). -/

/-- The round constants of Keccak-f[1600]. -/
def keccakConstants : List (BitVec 64) :=
  [0x0000000000000001#64, 0x0000000000008082#64, 0x800000000000808A#64, 0x8000000080008000#64] ++
  [0x000000000000808B#64, 0x0000000080000001#64, 0x8000000080008081#64, 0x8000000000008009#64] ++
  [0x000000000000008A#64, 0x0000000000000088#64, 0x0000000080008009#64, 0x000000008000000A#64] ++
  [0x000000008000808B#64, 0x800000000000008B#64, 0x8000000000008089#64, 0x8000000000008003#64] ++
  [0x8000000000008002#64, 0x8000000000000080#64, 0x000000000000800A#64, 0x800000008000000A#64] ++
  [0x8000000080008081#64, 0x8000000000008080#64, 0x0000000080000001#64, 0x8000000080008008#64]

/-- The rotation of lane x + 5*y. -/
def keccakRotations : List Nat :=
  [0, 1, 62, 28, 27, 36, 44, 6, 55, 20, 3, 10, 43, 25, 39, 41, 45, 15, 21, 8, 18, 2, 61, 56, 14]

/-- One round of Keccak-f[1600] on the 25 lanes, lane (x, y) at x + 5*y. -/
def keccakRound (a : List (BitVec 64)) (rc : BitVec 64) : List (BitVec 64) :=
  let l (s : List (BitVec 64)) (x y : Nat) := s.getD (x % 5 + 5 * (y % 5)) 0
  let c := (List.range 5).map fun x => l a x 0 ^^^ l a x 1 ^^^ l a x 2 ^^^ l a x 3 ^^^ l a x 4
  let d := (List.range 5).map fun x => c.getD ((x + 4) % 5) 0 ^^^ (c.getD ((x + 1) % 5) 0).rotateLeft 1
  let m := (List.range 25).map fun i => (a.getD i 0 ^^^ d.getD (i % 5) 0).rotateLeft (keccakRotations.getD i 0)
  let b := (List.range 25).map fun i => l m (i % 5 + 3 * (i / 5)) (i % 5)
  let e := (List.range 25).map fun i =>
    l b (i % 5) (i / 5) ^^^ (~~~(l b (i % 5 + 1) (i / 5)) &&& l b (i % 5 + 2) (i / 5))
  (e.take 1).map (· ^^^ rc) ++ e.drop 1

def keccakF (a : List (BitVec 64)) : List (BitVec 64) := keccakConstants.foldl keccakRound a

/-- The lanes of a block of 136 bytes, little-endian, the capacity lanes 0. -/
def blockLanes (block : List Byte) : List (BitVec 64) :=
  (List.range 25).map fun i => BitVec.ofNat 64 (littleEndian block (8 * i) 8)

def absorb : Nat → List (BitVec 64) → List Byte → List (BitVec 64)
  | 0, a, _ => a
  | n + 1, a, m => absorb n (keccakF (List.zipWith (· ^^^ ·) a (blockLanes (m.take 136)))) (m.drop 136)

/-- The first 136 bytes of the state. -/
def rateBytes (a : List (BitVec 64)) : List Byte :=
  (a.take 17).flatMap fun lane => (List.range 8).map fun k => lane.extractLsb' (8 * k) 8

def squeeze : Nat → List (BitVec 64) → List Byte
  | 0, _ => []
  | n + 1, a => rateBytes a ++ squeeze n (keccakF a)

/-- The padding of SHAKE: 0x1F, zeros, 0x80 in the last byte of the block. -/
def shakePad (m : List Byte) : List Byte :=
  let z := 135 - m.length % 136
  m ++ (if z = 0 then [0x9F] else 0x1F :: (List.replicate (z - 1) 0 ++ [0x80]))

/-- SHAKE256(m, len). -/
def shake256 (m : List Byte) (len : Nat) : List Byte :=
  let p := shakePad m
  (squeeze ((len + 135) / 136) (absorb (p.length / 136) (List.replicate 25 0) p)).take len

/-- PRF_ref(seed, nonce, len) = SHAKE256(seed ‖ [nonce], len) (R140). -/
def prfRef (seed : List Byte) (nonce : Byte) (len : Nat) : List Byte := shake256 (seed ++ [nonce]) len

/-- The default instances together. -/
def referenceFns : PrimFns where
  prf := prfRef
  cbd := cbdRef
  nttPrim := nttRef
  invnttPrim := invnttRef
  basemulPrim := basemulRef
  zetaTw j := zetaRef (64 + j)
  montReduce := montReduceRef

end Sys2Proof.Machine
end

