-- ==== Sys2Proof/Safety.lean ====
section
/-! DEFINITION. What claims are stated in: the invariant of KPOLY's state, the frames of the commands, and a safe run
(70_reset_and_hazards.md R230). -/

namespace Sys2Proof.Machine

/-! Runs (70_reset_and_hazards.md R230) and safe runs (60_exceptions.md R195). -/

/-- The causes a device need not detect (60_exceptions.md R195). -/
def Cause.modelOnly : Cause → Bool
  | .uninitReg | .uninitMem | .coeffRange => true
  | .noFault | .config | .illegal | .bufferRange => false

/-- The machine has met no fault since its last reset (10_state.md R26). -/
def State.faultFree (s : State) : Prop := s.status.halted = false ∧ s.status.cause = .noFault

/-- The machine with parameters `c` right after reset, the host about to perform `program` (70_reset_and_hazards.md R230). -/
def State.start (c : Params) (program : List HostOp) : State := { State.resetOf c with host := program }

/-- The run of `program` ends in `t`: a reset, then one step for each item of the program (70_reset_and_hazards.md R230). -/
def EndState (c : Params) (program : List HostOp) (t : State) : Prop :=
  Sys2Proof.core.run program.length (State.start c program) = .next t

/-- `k` steps from `s` to `t` in which EVERY state is free of a fault, `s` and `t` among them: no fault has been met and then
cleared by a reset, and no reply was read from a halted machine (60_exceptions.md R195). -/
def SafeRun : Nat → State → State → Prop
  | 0, s, t => s.faultFree ∧ t = s
  | k + 1, s, t => s.faultFree ∧ ∃ u, Sys2Proof.core.step s = .next u ∧ SafeRun k u t

/-- The run of `program` reaches its end `t` with no fault. A property of `t` then holds on every device (60_exceptions.md
R195, 70_reset_and_hazards.md R230), so far as it reads P where VALID is 1 and BMEM where WRITTEN is 1. -/
def SafeEnd (c : Params) (program : List HostOp) (t : State) : Prop := SafeRun program.length (State.start c program) t

/-! The invariant. -/

/-- The values FIDX takes for a cause (60_exceptions.md R197). -/
def fidxInRange (c : Cause) (f : BitVec 9) : Prop :=
  match c with
  | .coeffRange => f.toNat < 256
  | .uninitReg => f.toNat < 16
  | .uninitMem => f.toNat < 384
  | .noFault | .config | .illegal | .bufferRange => f = 0

/-- What holds of KPOLY's state at reset and after every step. -/
structure State.Inv (s : State) : Prop where
  /-- The elaboration parameters are in the ranges of 00_scope.md R8. -/
  params_legal : s.params.legal = true
  /-- BMEM is in its canonical form. -/
  mem_form : s.bmem.wf
  /-- No byte at or above BMEM_SIZE is ever written (20_memory.md R43). -/
  mem_range : ∀ a, s.bmem.written a = true → a < s.params.bmemSize
  /-- Only registers below NPOLY become valid (30_encoding.md R64). -/
  regs_exist : ∀ r : Reg, s.isValid r = true → r.toNat < s.params.npoly
  /-- BUSY is 0 between steps (10_state.md R33). -/
  idle : s.status.busy = false
  /-- HALTED is 1 exactly when a fault is recorded (10_state.md R26). -/
  halted_iff_fault : s.status.halted = true ↔ s.status.cause ≠ .noFault
  /-- Without a fault FCMD holds 0 (10_state.md R29). -/
  no_fault_no_fcmd : s.status.cause = .noFault → s.fcmd = 0
  /-- FIDX is in the range its cause gives it (60_exceptions.md R197). -/
  fidx_range : fidxInRange s.status.cause s.status.fidx
  /-- CONFIG is recorded exactly when CBYTES is unsupported (60_exceptions.md R196). -/
  config_iff_unsupported : s.status.cause = .config ↔ s.params.supported = false
  /-- After a CONFIG fault no command has run: FCMD is 0 and no register is valid (60_exceptions.md R196). -/
  config_runs_nothing : s.params.supported = false → s.fcmd = 0 ∧ ∀ r : Reg, s.isValid r = false

/-! Frames. -/

/-- What no command reads or writes: the parameters, pc, the host's side (10_state.md R30). -/
def State.SameRest (s t : State) : Prop :=
  t.params = s.params ∧ t.pc = s.pc ∧ t.host = s.host ∧ t.replies = s.replies ∧ t.resets = s.resets

/-- STATUS and FCMD are unchanged. -/
def State.SameStatus (s t : State) : Prop := t.status = s.status ∧ t.fcmd = s.fcmd

/-- Every polynomial register and its VALID bit is unchanged. -/
def State.SameRegs (s t : State) : Prop := ∀ r : Reg, t.poly r = s.poly r ∧ t.isValid r = s.isValid r

/-- Every polynomial register but `rd`, and its VALID bit, is unchanged. -/
def State.SameRegsBut (rd : Reg) (s t : State) : Prop :=
  ∀ r : Reg, r ≠ rd → t.poly r = s.poly r ∧ t.isValid r = s.isValid r

/-- Every byte of BMEM, and its WRITTEN bit, reads as before. -/
def State.SameBytes (s t : State) : Prop := ∀ a, t.bmem.read a = s.bmem.read a

/-- Every byte of BMEM outside `n` bytes from `addr` up, and its WRITTEN bit, reads as before. -/
def State.SameBytesOutside (addr n : Nat) (s t : State) : Prop :=
  ∀ a, a < addr ∨ addr + n ≤ a → t.bmem.read a = s.bmem.read a

/-- What a command that writes P[rd] leaves unchanged, with VALID[rd] = 1 after it. -/
def State.WroteOnlyReg (rd : Reg) (s t : State) : Prop :=
  t.isValid rd = true ∧ s.SameRegsBut rd t ∧ s.SameBytes t ∧ s.SameStatus t ∧ s.SameRest t

/-- What a command that writes `n` bytes of BMEM from `addr` up leaves unchanged. -/
def State.WroteOnlyBytes (addr n : Nat) (s t : State) : Prop :=
  s.SameBytesOutside addr n t ∧ s.SameRegs t ∧ s.SameStatus t ∧ s.SameRest t

/-- `t` is `s` after the fault entry of 60_exceptions.md R199 with these values: HALTED, CAUSE, FIDX and FCMD are written and
nothing else changes. -/
def State.EnteredFault (cause : Cause) (fidx : Nat) (word : Word) (s t : State) : Prop :=
  t.status.halted = true ∧ t.status.cause = cause ∧ t.status.fidx = BitVec.ofNat 9 fidx ∧ t.fcmd = word ∧
    t.status.busy = s.status.busy ∧ s.SameRegs t ∧ s.SameBytes t ∧ s.SameRest t

/-- The bytes of BMEM from `addr` up are written and hold `bytes`. -/
def State.Holds (s : State) (addr : Nat) (bytes : List Byte) : Prop :=
  ∀ k, k < bytes.length → s.bmem.read (addr + k) = bytes[k]?

end Sys2Proof.Machine
end

