-- ==== Sys2Proof/Certificates/Slice0/Obligations.lean ====
section
/-! DEFINITION. The statements for the provers. The helpers in namespace Sys2Proof.Claims say, from the rules' own formulas
and tables and without the model's meanings, what the statements need to name. -/

namespace Sys2Proof.Claims

open Sys2Proof.Machine

/-! Integers and bytes. -/

/-- SignFix as the rule's integer formula: x + 3329 when x < 0, x when x ≥ 0 (40_datapath_primitives.md R82). -/
def fixed (x : Int) : Nat := (if x < 0 then x + 3329 else x).toNat

/-- Every lane of P[r] lies in [lo, hi]. -/
def LanesIn (s : State) (r : Reg) (lo hi : Int) : Prop := ∀ i, i < 256 → lo ≤ (s.poly r).lane i ∧ (s.poly r).lane i ≤ hi

/-- Register r exists and holds a value: r < NPOLY and VALID[r] = 1. -/
def Readable (s : State) (r : Reg) : Prop := r.toNat < s.params.npoly ∧ s.isValid r = true

/-- The n bytes of BMEM from addr up exist and are all written. -/
def BytesReadable (s : State) (addr n : Nat) : Prop :=
  addr + n ≤ s.params.bmemSize ∧ ∀ k, k < n → s.bmem.written (addr + k) = true

/-- BMEM[a] as a number, for a written byte. -/
def byteAt (s : State) (a : Nat) : Nat := ((s.bmem.read a).getD 0).toNat

/-- Stream bit j of the bytes from addr up: bit (j mod 8) of byte (j div 8) (20_memory.md R45). -/
def streamBit (s : State) (addr j : Nat) : Bool := (byteAt s (addr + j / 8)).testBit (j % 8)

/-- Value i of the w-bit values packed from addr up, by the sum of 20_memory.md R46. -/
def valueAt (s : State) (addr w i : Nat) : Nat :=
  ∑ j ∈ Finset.range w, (streamBit s addr (i * w + j)).toNat * 2 ^ j

/-- The n bytes from addr up are written and hold the w-bit values v 0, v 1, … packed (20_memory.md R45). -/
def HoldsPacked (s : State) (addr n w : Nat) (v : Nat → Nat) : Prop :=
  (∀ k, k < n → s.bmem.written (addr + k) = true) ∧
    ∀ j, j < 8 * n → streamBit s addr j = (v (j / w)).testBit (j % w)

/-- D for a supported CBYTES: 4 when CBYTES = 128, 5 when CBYTES = 160 (43_compression.md R120). -/
def widthD (c : Params) : Nat := if c.cbytes = 128 then 4 else 5

/-- Compress_d by the formula of 40_datapath_primitives.md R89. -/
def compressed (d u : Nat) : Nat := ((2 ^ (d + 1) * u + 3329) / (2 * 3329)) % 2 ^ d

/-- Decompress_d by the formula of 40_datapath_primitives.md R91. -/
def decompressed (d y : Nat) : Nat := (y * 3329 + 2 ^ (d - 1)) / 2 ^ d

/-- Two integers are congruent mod Q. -/
def Cong (x y : Int) : Prop := x % 3329 = y % 3329

/-- Sequences of commands as the host issues them: a fault halts the datapath and the rest is ignored (10_state.md R30). -/
def execSeq : List Instr → State → Host.Outcome State Fault Refusal
  | [], s => .next s
  | i :: is, s =>
    match exec i s with
    | .next t => if t.status.halted then .next t else execSeq is t
    | .fault r => .fault r
    | .refused r => .refused r

/-- The machine can start a command: not halted, not busy. -/
def Running (s : State) : Prop := s.status.halted = false ∧ s.status.busy = false

/-! Tables of the rules. -/

/-- The words that are ILLEGAL on a machine with npoly registers, one line for each format of 30_encoding.md R62
(60_exceptions.md R191). -/
def IllegalWord (npoly : Nat) (w : Word) : Prop :=
  let n := w.toNat
  let op := n % 2 ^ 8
  let rd := n / 2 ^ 8 % 16
  let rs1 := n / 2 ^ 12 % 16
  let rs2 := n / 2 ^ 16 % 16
  0x11 ≤ op ∨
  (op = 0x00 ∧ n / 2 ^ 8 ≠ 0) ∨
  (op ∈ [0x01, 0x08, 0x09, 0x0B, 0x0E] ∧ (n / 2 ^ 12 ≠ 0 ∨ npoly ≤ rd)) ∨
  (op ∈ [0x0C, 0x0D] ∧ (n / 2 ^ 16 ≠ 0 ∨ npoly ≤ rd ∨ npoly ≤ rs1)) ∨
  (op = 0x0A ∧ (n / 2 ^ 20 ≠ 0 ∨ npoly ≤ rd ∨ npoly ≤ rs1 ∨ npoly ≤ rs2)) ∨
  (op ∈ [0x02, 0x04, 0x10] ∧ (rs2 ≠ 0 ∨ rd ≠ 0 ∨ npoly ≤ rs1)) ∨
  (op ∈ [0x03, 0x05, 0x0F] ∧ (n / 2 ^ 12 % 2 ^ 8 ≠ 0 ∨ npoly ≤ rd)) ∨
  (op ∈ [0x06, 0x07] ∧ npoly ≤ rd)

/-- The BMEM access of a command: address and bytes (20_memory.md R48). -/
def accessOf (c : Params) : Instr → Option (Nat × Nat)
  | .tobytes _ a => some (a.toNat, 384)
  | .frombytes _ a => some (a.toNat, 384)
  | .compress _ a => some (a.toNat, c.cbytes)
  | .decompress _ a => some (a.toNat, c.cbytes)
  | .getnoise1 _ a _ => some (a.toNat, c.symbytes)
  | .getnoise2 _ a _ => some (a.toNat, c.symbytes)
  | .frommsg _ a => some (a.toNat, 32)
  | .tomsg _ a => some (a.toNat, 32)
  | .nop | .pzero _ | .ntt _ | .invntt _ | .basemul _ _ _ | .tomont _ | .add _ _ | .sub _ _ | .reduce _ => none

/-- The commands whose BMEM access is a read (20_memory.md R48). -/
def readsBmem : Instr → Bool
  | .frombytes _ _ | .decompress _ _ | .getnoise1 _ _ _ | .getnoise2 _ _ _ | .frommsg _ _ => true
  | .nop | .pzero _ | .tobytes _ _ | .compress _ _ | .ntt _ | .invntt _ | .basemul _ _ _ | .tomont _ | .add _ _ | .sub _ _
  | .reduce _ | .tomsg _ _ => false

/-- The register sources of a command, in the order rd, rs1, rs2 (10_state.md R24, 60_exceptions.md R198). -/
def sourcesOf : Instr → List Reg
  | .tobytes r _ | .compress r _ | .tomsg r _ => [r]
  | .ntt r | .invntt r | .tomont r | .reduce r => [r]
  | .add rd r | .sub rd r => [rd, r]
  | .basemul _ r1 r2 => [r1, r2]
  | .nop | .pzero _ | .frombytes _ _ | .decompress _ _ | .getnoise1 _ _ _ | .getnoise2 _ _ _ | .frommsg _ _ => []

/-- The register a command writes (10_state.md R24). -/
def destOf : Instr → Option Reg
  | .pzero r | .frombytes r _ | .decompress r _ | .getnoise1 r _ _ | .getnoise2 r _ _ | .ntt r | .invntt r | .basemul r _ _
  | .tomont r | .add r _ | .sub r _ | .reduce r | .frommsg r _ => some r
  | .nop | .tobytes _ _ | .compress _ _ | .tomsg _ _ => none

/-- Lane i of a command lies outside its domain (60_exceptions.md R193). -/
def laneBad (s : State) (i : Nat) : Instr → Bool
  | .tobytes r _ | .compress r _ => decide ((s.poly r).lane i < -3329 ∨ 3328 < (s.poly r).lane i)
  | .tomsg r _ => decide ((s.poly r).lane i < 0 ∨ 3328 < (s.poly r).lane i)
  | .ntt r | .invntt r => decide ((s.poly r).lane i < -6657 ∨ 6657 < (s.poly r).lane i)
  | .basemul _ a b => decide ((s.poly a).lane i < -6657 ∨ 6657 < (s.poly a).lane i ∨
      (s.poly b).lane i < -6657 ∨ 6657 < (s.poly b).lane i)
  | .add rd r => decide ((s.poly rd).lane i + (s.poly r).lane i < -32768 ∨ 32767 < (s.poly rd).lane i + (s.poly r).lane i)
  | .sub rd r => decide ((s.poly r).lane i - (s.poly rd).lane i < -32768 ∨ 32767 < (s.poly r).lane i - (s.poly rd).lane i)
  | .nop | .pzero _ | .frombytes _ _ | .decompress _ _ | .getnoise1 _ _ _ | .getnoise2 _ _ _ | .tomont _ | .reduce _
  | .frommsg _ _ => false

/-- The first failing check of a command, in the order ILLEGAL, BUFFER_RANGE, UNINIT_REG, UNINIT_MEM, COEFF_RANGE, with its
fault index (60_exceptions.md R197, R198). -/
def firstFault (i : Instr) (s : State) : Option (Cause × Nat) :=
  if (i.regs.any fun r => decide (s.params.npoly ≤ r.toNat)) = true then some (.illegal, 0)
  else if ((accessOf s.params i).any fun a => decide (s.params.bmemSize < a.1 + a.2)) = true then some (.bufferRange, 0)
  else
    match (sourcesOf i).find? fun r => !s.isValid r with
    | some r => some (.uninitReg, r.toNat)
    | none =>
      match (if readsBmem i then accessOf s.params i else none).bind
          fun a => (List.range a.2).find? fun k => !s.bmem.written (a.1 + k) with
      | some k => some (.uninitMem, k)
      | none =>
        match (List.range 256).find? fun k => laneBad s k i with
        | some k => some (.coeffRange, k)
        | none => none

/-- The causes a command can raise (60_exceptions.md R202). -/
def causesOf : Instr → List Cause
  | .nop => [.illegal]
  | .pzero _ => [.illegal]
  | .tobytes _ _ | .compress _ _ | .tomsg _ _ => [.illegal, .bufferRange, .uninitReg, .coeffRange]
  | .frombytes _ _ | .decompress _ _ | .getnoise1 _ _ _ | .getnoise2 _ _ _ | .frommsg _ _ =>
    [.illegal, .bufferRange, .uninitMem]
  | .ntt _ | .invntt _ | .basemul _ _ _ | .add _ _ | .sub _ _ => [.illegal, .uninitReg, .coeffRange]
  | .tomont _ | .reduce _ => [.illegal, .uninitReg]

/-- The grid points of Decompress_4 and Decompress_5 (43_compression.md R124). -/
def grid4 : List Nat := [0, 208, 416, 624, 832, 1040, 1248, 1456, 1665, 1873, 2081, 2289, 2497, 2705, 2913, 3121]
def grid5 : List Nat := [0, 104, 208, 312, 416, 520, 624, 728, 832, 936, 1040, 1144, 1248, 1352, 1456, 1560, 1665, 1769, 1873,
  1977, 2081, 2185, 2289, 2393, 2497, 2601, 2705, 2809, 2913, 3017, 3121, 3225]

/-- The head of the host's program is a CMD write: an aligned 32-bit write at offset 0x000 (20_memory.md R50). -/
def isCmdWrite : HostOp → Bool
  | .write size offset _ => size == 4 && offset == 0
  | .read _ _ => false
  | .reset => false

end Sys2Proof.Claims

open Sys2Proof Sys2Proof.Machine Sys2Proof.Claims

/-! ### Encoding -/

/-- 30_encoding.md R61, R62, R66: no bit of an operand is lost: decoding the word of a well-formed command gives it back. -/
def Obligations.DecodeEncodeRoundTrip : Prop :=
  ∀ (npoly : Nat) (i : Instr), i.wellFormed npoly = true → decode npoly (encode i) = some i

/-- 30_encoding.md R66, R68: a word that decodes is the one word of the command it decodes to, and names only registers that
exist. -/
def Obligations.DecodedWordIsItsEncoding : Prop :=
  ∀ (npoly : Nat) (w : Word) (i : Instr), decode npoly w = some i → encode i = w ∧ i.wellFormed npoly = true

/-- 60_exceptions.md R191: an ILLEGAL word enters Fault(ILLEGAL, 0) whatever the operands hold, and only such a word fails to
decode. -/
def Obligations.IllegalWordsFaultFirst : Prop :=
  ∀ (s : State) (w : Word) (rest : List HostOp), s.host = .write 4 0 w :: rest → Running s →
    (IllegalWord s.params.npoly w →
      ∃ t, step s = .next t ∧ State.EnteredFault .illegal 0 w { s with host := rest, pc := s.pc + 1 } t) ∧
    (¬IllegalWord s.params.npoly w → ∃ i, decode s.params.npoly w = some i)

/-- 30_encoding.md R71: the worked encodings decode to the commands they stand for (on 16 registers) and are their words. -/
def Obligations.WorkedEncodings : Prop :=
  ∀ p ∈ ([(0x00000000, .nop), (0x00000501, .pzero 5), (0x10003002, .tobytes 3 0x100), (0x00000103, .frombytes 1 0),
      (0x20002004, .compress 2 0x200), (0x20000305, .decompress 3 0x200), (0x00007406, .getnoise1 4 0 7),
      (0x020A5407, .getnoise2 4 0x020 0xA5), (0x00000608, .ntt 6), (0x00000609, .invntt 6), (0x0009870A, .basemul 7 8 9),
      (0x0000070B, .tomont 7), (0x0000210C, .add 1 2), (0x0000210D, .sub 1 2), (0x0000010E, .reduce 1),
      (0x1800000F, .frommsg 0 0x180), (0x1A000010, .tomsg 0 0x1A0)] : List (Word × Instr)),
    decode 16 p.1 = some p.2 ∧ encode p.2 = p.1

/-! ### The step -/

/-- 10_state.md R30, 30_encoding.md R68: a CMD write whose word decodes runs the command, on the state with the word taken from
the host's program, and pc advances by 1. -/
def Obligations.StepRunsTheDecodedCommand : Prop :=
  ∀ (s : State) (w : Word) (rest : List HostOp) (i : Instr), s.host = .write 4 0 w :: rest → Running s →
    decode s.params.npoly w = some i →
    step s = match exec i { s with host := rest } with
      | .next t => .next { t with pc := t.pc + 1 }
      | .fault r => .fault r
      | .refused r => .refused r

/-- 20_memory.md R54: a CMD write while HALTED = 1 changes only pc (and takes its word from the host's program), and a step of
a halted machine leaves HALTED and the fault record as they are unless it is a reset. -/
def Obligations.HaltedIgnoresCommands : Prop :=
  (∀ (s : State) (w : Word) (rest : List HostOp), s.host = .write 4 0 w :: rest → s.status.halted = true →
    s.status.busy = false → step s = .next { s with host := rest, pc := s.pc + 1 }) ∧
  (∀ (s t : State), s.status.halted = true → s.host.head? ≠ some .reset → step s = .next t →
    t.status = s.status ∧ t.fcmd = s.fcmd)

/-- 60_exceptions.md R212, 20_memory.md R53: with no host action left the machine holds all its state; while BUSY = 1 every
host access but a STATUS read waits and changes nothing, and a STATUS read returns with bit 0 set. That a host reset waits too
is the model's reading of 70_reset_and_hazards.md R220 (DEDUCED, log entry 11). The clause for BUSY = 1 is about states no run
reaches, which `State.Inv.idle` excludes. -/
def Obligations.WaitingHoldsAllState : Prop :=
  (∀ s : State, s.host = [] → step s = .next s) ∧
  (∀ (s : State) (op : HostOp) (rest : List HostOp), s.host = op :: rest → s.status.busy = true →
    (op ≠ .read 4 0x004 → step s = .next s) ∧
    (op = .read 4 0x004 → ∃ v : Word, v.getLsbD 0 = true ∧
      step s = .next { s with host := rest, replies := v :: s.replies }))

/-- 10_state.md R30: pc counts the CMD writes, executed, faulting or ignored; only reset sets it back to 0, and nothing else
moves it. -/
def Obligations.PcCountsCommandWrites : Prop :=
  ∀ (s t : State) (op : HostOp) (rest : List HostOp), s.host = op :: rest → s.status.busy = false → step s = .next t →
    t.pc = if isCmdWrite op then s.pc + 1 else if op = .reset then 0 else s.pc

/-- 60_exceptions.md R204: every command runs to completion or to its first fault: it answers a next state, from every
state. -/
def Obligations.EveryCommandAnswersANextState : Prop := ∀ (i : Instr) (s : State), ∃ t, exec i s = .next t

/-! ### Reset -/

/-- 10_state.md R36, 70_reset_and_hazards.md R220, R221: what a host reset leaves, from any state and for any parameters. -/
def Obligations.HostResetLeavesResetValues : Prop :=
  ∀ (s : State) (rest : List HostOp), s.host = .reset :: rest → s.status.busy = false →
    ∃ t, step s = .next t ∧ t.params = s.params ∧ (∀ r : Reg, t.isValid r = false) ∧
      (∀ a, t.bmem.written a = false) ∧ t.status.busy = false ∧
      t.status.halted = !(s.params.cbytes == 128 || s.params.cbytes == 160) ∧
      t.status.cause = (if s.params.cbytes = 128 ∨ s.params.cbytes = 160 then .noFault else .config) ∧
      t.status.fidx = 0 ∧ t.fcmd = 0 ∧ t.pc = 0 ∧ t.host = rest

/-- The invariant holds after the reset of every machine with legal parameters, and of the reset state (10_state.md R36). -/
def Obligations.ResetStateMeetsTheInvariant : Prop :=
  (∀ c : Params, c.legal = true → (State.resetOf c).Inv) ∧ State.reset.Inv

/-- Every step keeps the invariant: canonical BMEM below BMEM_SIZE, VALID only for registers that exist, BUSY 0, a fault
recorded exactly when halted, FIDX in the range of its cause, CONFIG exactly for an unsupported CBYTES. -/
def Obligations.StepKeepsTheInvariant : Prop := ∀ s t : State, s.Inv → step s = .next t → t.Inv

/-- 60_exceptions.md R196: with an unsupported CBYTES reset leaves the CONFIG fault and no command ever executes: every state
that meets the invariant is halted with it, and every step, a reset included, keeps it so with no register written. -/
def Obligations.UnsupportedWidthRunsNoCommand : Prop :=
  ∀ c : Params, c.legal = true → c.cbytes ≠ 128 → c.cbytes ≠ 160 →
    ((State.resetOf c).status.halted = true ∧ (State.resetOf c).status.cause = .config ∧
      (State.resetOf c).status.fidx = 0 ∧ (State.resetOf c).fcmd = 0) ∧
    ∀ s t : State, s.Inv → s.params = c → step s = .next t →
      t.status.halted = true ∧ t.status.cause = .config ∧ t.status.fidx = 0 ∧ t.fcmd = 0 ∧ ∀ r : Reg, t.isValid r = false

/-! ### Faults and frames of all commands -/

/-- 60_exceptions.md R192, R193, R198: a command reports the first check that fails, in the order of R198 with the index of
R197, and otherwise completes with STATUS and FCMD untouched. -/
def Obligations.FirstFailingCheckIsReported : Prop :=
  ∀ (i : Instr) (s : State),
    (∀ c n, firstFault i s = some (c, n) → ∃ t, exec i s = .next t ∧ s.EnteredFault c n (encode i) t) ∧
    (firstFault i s = none → ∃ t, exec i s = .next t ∧ s.SameStatus t ∧ s.SameRest t)

/-- 60_exceptions.md R199: a command that halts the machine has committed nothing: the next state is the old one with HALTED,
CAUSE, FIDX and FCMD written. -/
def Obligations.FaultCommitsNothing : Prop :=
  ∀ (i : Instr) (s t : State), s.status.halted = false → exec i s = .next t → t.status.halted = true →
    t = { s with status := { s.status with halted := true, cause := t.status.cause, fidx := t.status.fidx },
                 fcmd := encode i }

/-- 60_exceptions.md R202: a command raises no cause but those its row of the table lists. -/
def Obligations.CommandsRaiseOnlyTheirCauses : Prop :=
  ∀ (i : Instr) (s t : State), s.status.halted = false → exec i s = .next t → t.status.halted = true →
    t.status.cause ∈ causesOf i

/-- 10_state.md R24, R30, 20_memory.md R48: the frame of every command, faulting or not: pc, parameters and the host's side
never change; no register but its destination changes; no byte outside its written buffer changes; and no command changes
both a register and BMEM. -/
def Obligations.CommandsWriteOnlyTheirDestination : Prop :=
  ∀ (i : Instr) (s t : State), exec i s = .next t →
    s.SameRest t ∧
    (∀ r : Reg, destOf i ≠ some r → t.poly r = s.poly r ∧ t.isValid r = s.isValid r) ∧
    (∀ a, (∀ b n, accessOf s.params i = some (b, n) → readsBmem i = false → a < b ∨ b + n ≤ a) →
      t.bmem.read a = s.bmem.read a) ∧
    (s.SameRegs t ∨ s.SameBytes t)

/-- 10_state.md R22: reset clears every VALID bit, a command that changes a register sets its bit, no command clears one, and
a command with a source whose bit is 0 enters UNINIT_REG, unless a check before it fails (R198), and changes no register and no
byte. -/
def Obligations.ValidityBits : Prop :=
  (∀ (c : Params) (r : Reg), (State.resetOf c).isValid r = false) ∧
  (∀ (i : Instr) (s t : State), exec i s = .next t → ∀ r : Reg,
    (t.poly r ≠ s.poly r → t.isValid r = true) ∧ (s.isValid r = true → t.isValid r = true)) ∧
  (∀ (i : Instr) (s : State) (r : Reg), s.status.halted = false → r ∈ sourcesOf i → s.isValid r = false →
    ∃ t, exec i s = .next t ∧ t.status.halted = true ∧ s.SameRegs t ∧ s.SameBytes t ∧
      (t.status.cause = .illegal ∨ t.status.cause = .bufferRange ∨ t.status.cause = .uninitReg))

/-! ### Results and completion, command by command -/

/-- 41_construction.md R100: NOP completes from every state and leaves all of it unchanged. -/
def Obligations.NopChangesNothing : Prop := ∀ s : State, exec .nop s = .next s

/-- 41_construction.md R101: PZERO writes 0 to every coefficient of P[rd], valid or not before. -/
def Obligations.PzeroWritesTheZeroPolynomial : Prop :=
  ∀ (rd : Reg) (s : State), rd.toNat < s.params.npoly →
    ∃ t, exec (.pzero rd) s = .next t ∧ (∀ i, i < 256 → (t.poly rd).lane i = 0) ∧ s.WroteOnlyReg rd t

/-- 42_serialization.md R110: TOBYTES writes the three bytes of each coefficient pair, sign-fixed, and changes nothing else. -/
def Obligations.TobytesWritesTheSerialization : Prop :=
  ∀ (rs1 : Reg) (addr : Addr) (s : State), Readable s rs1 → addr.toNat + 384 ≤ s.params.bmemSize →
    LanesIn s rs1 (-3329) 3328 →
    ∃ t, exec (.tobytes rs1 addr) s = .next t ∧ s.WroteOnlyBytes addr.toNat 384 t ∧
      ∀ j, j < 128 →
        let u0 := fixed ((s.poly rs1).lane (2 * j))
        let u1 := fixed ((s.poly rs1).lane (2 * j + 1))
        t.bmem.read (addr.toNat + 3 * j) = some (BitVec.ofNat 8 (u0 % 256)) ∧
        t.bmem.read (addr.toNat + 3 * j + 1) = some (BitVec.ofNat 8 (u0 / 256 + u1 % 16 * 16)) ∧
        t.bmem.read (addr.toNat + 3 * j + 2) = some (BitVec.ofNat 8 (u1 / 16))

/-- 42_serialization.md R111: FROMBYTES reads each coefficient pair from three bytes, without reduction. -/
def Obligations.FrombytesReadsTheSerialization : Prop :=
  ∀ (rd : Reg) (addr : Addr) (s : State), rd.toNat < s.params.npoly → BytesReadable s addr.toNat 384 →
    ∃ t, exec (.frombytes rd addr) s = .next t ∧ s.WroteOnlyReg rd t ∧
      ∀ j, j < 128 →
        let b0 := byteAt s (addr.toNat + 3 * j)
        let b1 := byteAt s (addr.toNat + 3 * j + 1)
        let b2 := byteAt s (addr.toNat + 3 * j + 2)
        (t.poly rd).lane (2 * j) = b0 + b1 % 16 * 256 ∧ (t.poly rd).lane (2 * j + 1) = b1 / 16 + b2 * 16

/-- 43_compression.md R121: COMPRESS writes the packed Compress_D values of the sign-fixed coefficients, CBYTES bytes. -/
def Obligations.CompressWritesTheCompressedBytes : Prop :=
  ∀ (rs1 : Reg) (addr : Addr) (s : State), s.params.supported = true → Readable s rs1 →
    addr.toNat + s.params.cbytes ≤ s.params.bmemSize → LanesIn s rs1 (-3329) 3328 →
    ∃ t, exec (.compress rs1 addr) s = .next t ∧ s.WroteOnlyBytes addr.toNat s.params.cbytes t ∧
      HoldsPacked t addr.toNat s.params.cbytes (widthD s.params)
        fun i => compressed (widthD s.params) (fixed ((s.poly rs1).lane i))

/-- 43_compression.md R122: DECOMPRESS writes Decompress_D of each unpacked value; every result is in [0, Q). -/
def Obligations.DecompressWritesTheDecompressedValues : Prop :=
  ∀ (rd : Reg) (addr : Addr) (s : State), s.params.supported = true → rd.toNat < s.params.npoly →
    BytesReadable s addr.toNat s.params.cbytes →
    ∃ t, exec (.decompress rd addr) s = .next t ∧ s.WroteOnlyReg rd t ∧ LanesIn t rd 0 3328 ∧
      ∀ i, i < 256 → (t.poly rd).lane i =
        decompressed (widthD s.params) (valueAt s addr.toNat (widthD s.params) i)

/-- 44_noise.md R136-R138: GETNOISE1 and GETNOISE2 write CBD(η)(PRF(seed, nonce, 64·η)) of the SYMBYTES seed bytes, with η1
and η2; every coefficient is in [-η, η]. -/
def Obligations.GetnoiseWritesTheSampledPolynomial : Prop :=
  ∀ (rd : Reg) (addr : Addr) (nonce : Byte) (s : State) (seed : List Byte), rd.toNat < s.params.npoly →
    addr.toNat + s.params.symbytes ≤ s.params.bmemSize → seed.length = s.params.symbytes → s.Holds addr.toNat seed →
    s.params.legal = true →
    (∃ t, exec (.getnoise1 rd addr nonce) s = .next t ∧ s.WroteOnlyReg rd t ∧
      t.poly rd = Config.prims.fns.cbd s.params.eta1 (Config.prims.fns.prf seed nonce (64 * s.params.eta1)) ∧
      LanesIn t rd (-(s.params.eta1 : Int)) s.params.eta1) ∧
    (∃ t, exec (.getnoise2 rd addr nonce) s = .next t ∧ s.WroteOnlyReg rd t ∧
      t.poly rd = Config.prims.fns.cbd s.params.eta2 (Config.prims.fns.prf seed nonce (64 * s.params.eta2)) ∧
      LanesIn t rd (-(s.params.eta2 : Int)) s.params.eta2)

/-- 45_ntt.md R155: NTT writes NTT_PRIM reduced mod Q, so its output is canonical whatever the instance. -/
def Obligations.NttWritesTheReducedTransform : Prop :=
  ∀ (rd : Reg) (s : State), Readable s rd → LanesIn s rd (-6657) 6657 →
    ∃ t, exec (.ntt rd) s = .next t ∧ s.WroteOnlyReg rd t ∧ LanesIn t rd 0 3328 ∧
      ∀ i, i < 256 → (t.poly rd).lane i = (Config.prims.fns.nttPrim (s.poly rd)).lane i % 3329

/-- 45_ntt.md R156: INVNTT writes INVNTT_PRIM of the register, with no reduction. -/
def Obligations.InvnttWritesTheUnreducedTransform : Prop :=
  ∀ (rd : Reg) (s : State), Readable s rd → LanesIn s rd (-6657) 6657 →
    ∃ t, exec (.invntt rd) s = .next t ∧ s.WroteOnlyReg rd t ∧ t.poly rd = Config.prims.fns.invnttPrim (s.poly rd)

/-- 45_ntt.md R157: BASEMUL computes each block of 4 with the twist of the block, negated for its second half, from sources
read before the write; its output is in L (R152 B1). -/
def Obligations.BasemulMultipliesBlockwise : Prop :=
  ∀ (rd rs1 rs2 : Reg) (s : State), rd.toNat < s.params.npoly → Readable s rs1 → Readable s rs2 →
    LanesIn s rs1 (-6657) 6657 → LanesIn s rs2 (-6657) 6657 →
    ∃ t, exec (.basemul rd rs1 rs2) s = .next t ∧ s.WroteOnlyReg rd t ∧ LanesIn t rd (-6657) 6657 ∧
      ∀ j, j < 64 →
        let a := s.poly rs1
        let b := s.poly rs2
        let c := t.poly rd
        (c.coeff (4 * j), c.coeff (4 * j + 1)) =
          Config.prims.fns.basemulPrim (a.coeff (4 * j)) (a.coeff (4 * j + 1)) (b.coeff (4 * j)) (b.coeff (4 * j + 1))
            (Config.prims.fns.zetaTw j) ∧
        (c.coeff (4 * j + 2), c.coeff (4 * j + 3)) =
          Config.prims.fns.basemulPrim (a.coeff (4 * j + 2)) (a.coeff (4 * j + 3)) (b.coeff (4 * j + 2))
            (b.coeff (4 * j + 3)) (BitVec.ofInt 16 (-(Config.prims.fns.zetaTw j).toInt))

/-- 45_ntt.md R158: TOMONT multiplies every coefficient by 2^16 mod Q, as a representative in (−Q, Q); 0 gives 0. -/
def Obligations.TomontLiftsEveryCoefficient : Prop :=
  ∀ (rd : Reg) (s : State), Readable s rd →
    ∃ t, exec (.tomont rd) s = .next t ∧ s.WroteOnlyReg rd t ∧ LanesIn t rd (-3328) 3328 ∧
      ∀ i, i < 256 → Cong ((t.poly rd).lane i) ((s.poly rd).lane i * 2 ^ 16) ∧
        ((s.poly rd).lane i = 0 → (t.poly rd).lane i = 0) ∧
        (t.poly rd).coeff i = Config.prims.fns.montReduce (BitVec.ofInt 32 ((s.poly rd).lane i * 1353))

/-- 46_arithmetic.md R170: ADD writes the exact sum of every lane, unreduced, when all sums fit; rd = rs1 doubles. -/
def Obligations.AddWritesTheExactSum : Prop :=
  ∀ (rd rs1 : Reg) (s : State), Readable s rd → Readable s rs1 →
    (∀ i, i < 256 → -32768 ≤ (s.poly rd).lane i + (s.poly rs1).lane i ∧ (s.poly rd).lane i + (s.poly rs1).lane i ≤ 32767) →
    ∃ t, exec (.add rd rs1) s = .next t ∧ s.WroteOnlyReg rd t ∧
      ∀ i, i < 256 → (t.poly rd).lane i = (s.poly rd).lane i + (s.poly rs1).lane i

/-- 46_arithmetic.md R171: SUB writes P[rs1] − P[rd], exact and unreduced, when all differences fit; rd = rs1 gives 0. -/
def Obligations.SubWritesTheExactDifference : Prop :=
  ∀ (rd rs1 : Reg) (s : State), Readable s rd → Readable s rs1 →
    (∀ i, i < 256 → -32768 ≤ (s.poly rs1).lane i - (s.poly rd).lane i ∧ (s.poly rs1).lane i - (s.poly rd).lane i ≤ 32767) →
    ∃ t, exec (.sub rd rs1) s = .next t ∧ s.WroteOnlyReg rd t ∧
      ∀ i, i < 256 → (t.poly rd).lane i = (s.poly rs1).lane i - (s.poly rd).lane i

/-- 46_arithmetic.md R173: ADD and SUB never wrap: where a sum or difference leaves int16 first at lane k, the command enters
COEFF_RANGE with FIDX = k and writes no part of P[rd]. -/
def Obligations.AddAndSubNeverWrap : Prop :=
  ∀ (rd rs1 : Reg) (s : State) (k : Nat), Readable s rd → Readable s rs1 → k < 256 →
    (let sum := fun i => (s.poly rd).lane i + (s.poly rs1).lane i
     (sum k < -32768 ∨ 32767 < sum k) → (∀ i, i < k → -32768 ≤ sum i ∧ sum i ≤ 32767) →
      ∃ t, exec (.add rd rs1) s = .next t ∧ s.EnteredFault .coeffRange k (encode (.add rd rs1)) t) ∧
    (let diff := fun i => (s.poly rs1).lane i - (s.poly rd).lane i
     (diff k < -32768 ∨ 32767 < diff k) → (∀ i, i < k → -32768 ≤ diff i ∧ diff i ≤ 32767) →
      ∃ t, exec (.sub rd rs1) s = .next t ∧ s.EnteredFault .coeffRange k (encode (.sub rd rs1)) t)

/-- 46_arithmetic.md R172: REDUCE writes the residue of every coefficient, in [0, Q), from every int16, and a second REDUCE
changes nothing. -/
def Obligations.ReduceWritesTheCanonicalResidue : Prop :=
  ∀ (rd : Reg) (s : State), Readable s rd →
    ∃ t, exec (.reduce rd) s = .next t ∧ s.WroteOnlyReg rd t ∧ LanesIn t rd 0 3328 ∧
      (∀ i, i < 256 → (t.poly rd).lane i = (s.poly rd).lane i % 3329) ∧ exec (.reduce rd) t = .next t

/-- 47_message.md R180: FROMMSG writes 0 or 1665 for each message bit, bit j of byte i to coefficient 8i + j. -/
def Obligations.FrommsgWritesTheSymbols : Prop :=
  ∀ (rd : Reg) (addr : Addr) (s : State), rd.toNat < s.params.npoly → BytesReadable s addr.toNat 32 →
    ∃ t, exec (.frommsg rd addr) s = .next t ∧ s.WroteOnlyReg rd t ∧
      ∀ i j, i < 32 → j < 8 →
        (t.poly rd).lane (8 * i + j) = if (byteAt s (addr.toNat + i)).testBit j then 1665 else 0

/-- 47_message.md R181: TOMSG writes bit j of byte i as 1 exactly when coefficient 8i + j lies in [833, 2496]. -/
def Obligations.TomsgWritesTheDecodedBits : Prop :=
  ∀ (rs1 : Reg) (addr : Addr) (s : State), Readable s rs1 → addr.toNat + 32 ≤ s.params.bmemSize →
    LanesIn s rs1 0 3328 →
    ∃ t, exec (.tomsg rs1 addr) s = .next t ∧ s.WroteOnlyBytes addr.toNat 32 t ∧
      ∀ i, i < 32 → t.bmem.written (addr.toNat + i) = true ∧
        ∀ j, j < 8 → (byteAt t (addr.toNat + i)).testBit j =
          decide (833 ≤ (s.poly rs1).lane (8 * i + j) ∧ (s.poly rs1).lane (8 * i + j) ≤ 2496)

/-! ### Laws over sequences of commands -/

/-- 42_serialization.md R112: TOBYTES then FROMBYTES on the same addresses returns every coefficient sign-fixed, so a canonical
register unchanged. -/
def Obligations.SerializationRoundTrip : Prop :=
  ∀ (rs1 rd : Reg) (addr : Addr) (s : State), Running s → Readable s rs1 → rd.toNat < s.params.npoly →
    addr.toNat + 384 ≤ s.params.bmemSize → LanesIn s rs1 (-3329) 3328 →
    ∃ t, execSeq [.tobytes rs1 addr, .frombytes rd addr] s = .next t ∧ t.status = s.status ∧
      (∀ i, i < 256 → (t.poly rd).lane i = fixed ((s.poly rs1).lane i)) ∧
      (LanesIn s rs1 0 3328 → t.poly rd = s.poly rs1)

/-- 42_serialization.md R113: FROMBYTES then TOBYTES returns the same 384 bytes when all twelve-bit groups are below 3329; with
a larger group TOBYTES enters COEFF_RANGE at the first such group. -/
def Obligations.ReverseSerializationRoundTrip : Prop :=
  ∀ (r : Reg) (addr dst : Addr) (s : State), Running s → r.toNat < s.params.npoly → BytesReadable s addr.toNat 384 →
    dst.toNat + 384 ≤ s.params.bmemSize →
    ((∀ i, i < 256 → valueAt s addr.toNat 12 i < 3329) →
      ∃ t, execSeq [.frombytes r addr, .tobytes r dst] s = .next t ∧ t.status = s.status ∧
        ∀ k, k < 384 → t.bmem.read (dst.toNat + k) = s.bmem.read (addr.toNat + k)) ∧
    (∀ k, k < 256 → 3329 ≤ valueAt s addr.toNat 12 k → (∀ i, i < k → valueAt s addr.toNat 12 i < 3329) →
      ∃ t, execSeq [.frombytes r addr, .tobytes r dst] s = .next t ∧ t.status.halted = true ∧
        t.status.cause = .coeffRange ∧ t.status.fidx = BitVec.ofNat 9 k ∧ s.SameBytes t)

/-- 43_compression.md R123: COMPRESS then DECOMPRESS moves every coefficient by at most 104 (D = 4) or 52 (D = 5), mod Q. -/
def Obligations.CompressionErrorBound : Prop :=
  ∀ (rs1 rd : Reg) (addr : Addr) (s : State), Running s → s.params.supported = true → Readable s rs1 →
    rd.toNat < s.params.npoly → addr.toNat + s.params.cbytes ≤ s.params.bmemSize → LanesIn s rs1 (-3329) 3328 →
    ∃ t, execSeq [.compress rs1 addr, .decompress rd addr] s = .next t ∧ t.status = s.status ∧
      ∀ i, i < 256 →
        let e := ((t.poly rd).lane i - (s.poly rs1).lane i) % 3329
        let bound : Int := if s.params.cbytes = 128 then 104 else 52
        e ≤ bound ∨ 3329 - e ≤ bound

/-- 43_compression.md R124: Decompress(Compress(u)) = u exactly at the 2^D grid points, and Compress(Decompress(y)) = y, with
the model's own Compress and Decompress. -/
def Obligations.GridPointsAreTheFixedPoints : Prop :=
  (∀ u, u < 3329 → (decompressD 4 (compressD 4 u) = u ↔ u ∈ grid4)) ∧
  (∀ u, u < 3329 → (decompressD 5 (compressD 5 u) = u ↔ u ∈ grid5)) ∧
  (∀ y, y < 16 → decompressD 4 y = grid4.getD y 0 ∧ compressD 4 (decompressD 4 y) = y) ∧
  (∀ y, y < 32 → decompressD 5 y = grid5.getD y 0 ∧ compressD 5 (decompressD 5 y) = y)

/-- 43_compression.md R125: the zero polynomial compresses to CBYTES zero bytes and comes back as zero, for both widths. -/
def Obligations.ZeroCompressesToZero : Prop :=
  ∀ (rs1 rd : Reg) (addr : Addr) (s : State), Running s → s.params.supported = true → rs1.toNat < s.params.npoly →
    rd.toNat < s.params.npoly → addr.toNat + s.params.cbytes ≤ s.params.bmemSize →
    ∃ t, execSeq [.pzero rs1, .compress rs1 addr, .decompress rd addr] s = .next t ∧ t.status = s.status ∧
      (∀ k, k < s.params.cbytes → t.bmem.read (addr.toNat + k) = some 0) ∧ ∀ i, i < 256 → (t.poly rd).lane i = 0

/-- 45_ntt.md R154 (C1): NTT then INVNTT leaves p scaled by 2^16, mod Q. -/
def Obligations.NttThenInvnttScalesByMontgomeryRadix : Prop :=
  ∀ (rd : Reg) (s : State), Running s → Readable s rd → LanesIn s rd (-6657) 6657 →
    ∃ t, execSeq [.ntt rd, .invntt rd] s = .next t ∧ s.WroteOnlyReg rd t ∧
      ∀ i, i < 256 → Cong ((t.poly rd).lane i) ((s.poly rd).lane i * 2 ^ 16)

/-- 45_ntt.md R154 (C2), for every instance of the function parameters: transforming two registers, BASEMUL, INVNTT and REDUCE
leave the negacyclic convolution of the two polynomials, in [0, Q). -/
def Obligations.RingProductThroughTheNtt : Prop :=
  ∀ (rd ra rb : Reg) (s : State), Running s → ra ≠ rb → rd.toNat < s.params.npoly → Readable s ra → Readable s rb →
    LanesIn s ra (-6657) 6657 → LanesIn s rb (-6657) 6657 →
    ∃ t, execSeq [.ntt ra, .ntt rb, .basemul rd ra rb, .invntt rd, .reduce rd] s = .next t ∧ t.status = s.status ∧
      s.SameBytes t ∧ ∀ k, k < 256 → (t.poly rd).lane k = negacyclic (s.poly ra) (s.poly rb) k % 3329

/-- 46_arithmetic.md R174: ADD then REDUCE gives the sums mod Q, SUB then REDUCE the differences mod Q. -/
def Obligations.ReducedSumsAndDifferences : Prop :=
  ∀ (rd rs1 : Reg) (s : State), Running s → Readable s rd → Readable s rs1 →
    ((∀ i, i < 256 → -32768 ≤ (s.poly rd).lane i + (s.poly rs1).lane i ∧ (s.poly rd).lane i + (s.poly rs1).lane i ≤ 32767) →
      ∃ t, execSeq [.add rd rs1, .reduce rd] s = .next t ∧ s.WroteOnlyReg rd t ∧
        ∀ i, i < 256 → (t.poly rd).lane i = ((s.poly rd).lane i + (s.poly rs1).lane i) % 3329) ∧
    ((∀ i, i < 256 → -32768 ≤ (s.poly rs1).lane i - (s.poly rd).lane i ∧ (s.poly rs1).lane i - (s.poly rd).lane i ≤ 32767) →
      ∃ t, execSeq [.sub rd rs1, .reduce rd] s = .next t ∧ s.WroteOnlyReg rd t ∧
        ∀ i, i < 256 → (t.poly rd).lane i = ((s.poly rs1).lane i - (s.poly rd).lane i) % 3329)

/-- 46_arithmetic.md R175: up to 9 canonical polynomials, any registers but rd and each any number of times, are summed by ADD
without a fault, and ten with a coefficient of 3328 are not; two registers in L always add within int16. -/
def Obligations.NineCanonicalPolynomialsSum : Prop :=
  (∀ (rd : Reg) (sources : List Reg) (s : State), Running s → rd.toNat < s.params.npoly → rd ∉ sources →
    (∀ r ∈ sources, Readable s r ∧ LanesIn s r 0 3328) →
    (sources.length ≤ 9 → ∃ t, execSeq (.pzero rd :: sources.map (.add rd)) s = .next t ∧ s.WroteOnlyReg rd t ∧
      ∀ i, i < 256 → (t.poly rd).lane i = (sources.map fun r => (s.poly r).lane i).sum) ∧
    (sources.length = 10 → (∀ r ∈ sources, (s.poly r).lane 0 = 3328) →
      ∃ t, execSeq (.pzero rd :: sources.map (.add rd)) s = .next t ∧ t.status.halted = true ∧
        t.status.cause = .coeffRange ∧ t.status.fidx = 0)) ∧
  (∀ (rd rs1 : Reg) (s : State), Readable s rd → Readable s rs1 → LanesIn s rd (-6657) 6657 → LanesIn s rs1 (-6657) 6657 →
    ∃ t, exec (.add rd rs1) s = .next t ∧ s.WroteOnlyReg rd t ∧
      ∀ i, i < 256 → (t.poly rd).lane i = (s.poly rd).lane i + (s.poly rs1).lane i)

/-- 47_message.md R182: FROMMSG then TOMSG returns the same 32 bytes. -/
def Obligations.MessageRoundTrip : Prop :=
  ∀ (r : Reg) (src dst : Addr) (s : State), Running s → r.toNat < s.params.npoly → BytesReadable s src.toNat 32 →
    dst.toNat + 32 ≤ s.params.bmemSize →
    ∃ t, execSeq [.frommsg r src, .tomsg r dst] s = .next t ∧ t.status = s.status ∧
      ∀ k, k < 32 → t.bmem.read (dst.toNat + k) = s.bmem.read (src.toNat + k)

/-- 47_message.md R183: a perturbation of at most 831 a coefficient, added or subtracted and then reduced, does not change the
decoded message; 832 on a 1 bit does. -/
def Obligations.MessageSurvivesBoundedNoise : Prop :=
  (∀ (r e : Reg) (src dst : Addr) (s : State), Running s → r ≠ e → r.toNat < s.params.npoly → Readable s e →
    LanesIn s e (-831) 831 → BytesReadable s src.toNat 32 → dst.toNat + 32 ≤ s.params.bmemSize →
    (∃ t, execSeq [.frommsg r src, .add r e, .reduce r, .tomsg r dst] s = .next t ∧ t.status = s.status ∧
      ∀ k, k < 32 → t.bmem.read (dst.toNat + k) = s.bmem.read (src.toNat + k)) ∧
    (∃ t, execSeq [.frommsg r src, .sub e r, .reduce e, .tomsg e dst] s = .next t ∧ t.status = s.status ∧
      ∀ k, k < 32 → t.bmem.read (dst.toNat + k) = s.bmem.read (src.toNat + k))) ∧
  msgBit (1665 + 832) = 0

/-- 30_encoding.md R70: pmov copies a register exactly; pneg negates one through a scratch register that ends as zero, and
enters COEFF_RANGE where a coefficient is −32768; pclr is pzero. -/
def Obligations.PseudoInstructionsMeanTheirExpansion : Prop :=
  (∀ (pd : Reg), (Pseudo.pclr pd).expand = [.pzero pd]) ∧
  (∀ (pd ps : Reg) (s : State), Running s → (Pseudo.pmov pd ps).wellFormed = true → pd.toNat < s.params.npoly →
    Readable s ps →
    ∃ t, execSeq (Pseudo.pmov pd ps).expand s = .next t ∧ s.WroteOnlyReg pd t ∧ t.poly pd = s.poly ps) ∧
  (∀ (pd pt : Reg) (s : State), Running s → (Pseudo.pneg pd pt).wellFormed = true → pt.toNat < s.params.npoly →
    Readable s pd →
    ((∀ i, i < 256 → (s.poly pd).lane i ≠ -32768) →
      ∃ t, execSeq (Pseudo.pneg pd pt).expand s = .next t ∧ t.status = s.status ∧
        (∀ i, i < 256 → (t.poly pd).lane i = 0 - (s.poly pd).lane i ∧ (t.poly pt).lane i = 0)) ∧
    ((∃ i, i < 256 ∧ (s.poly pd).lane i = -32768) →
      ∃ t, execSeq (Pseudo.pneg pd pt).expand s = .next t ∧ t.status.halted = true ∧ t.status.cause = .coeffRange))

/-! ### The host port -/

/-- 10_state.md R26-R29: what the host reads of STATUS, CONFIG and CONFIG2, field by field, reserved bits 0; FCMD reads as the
recorded word and CMD reads 0. -/
def Obligations.HostReadsTheRegisterWords : Prop :=
  ∀ (s : State) (rest : List HostOp), s.status.busy = false →
    (s.host = .read 4 0x004 :: rest → ∃ v : Word, step s = .next { s with host := rest, replies := v :: s.replies } ∧
      v.extractLsb' 0 1 = 0 ∧ v.extractLsb' 1 1 = BitVec.ofBool s.status.halted ∧ v.extractLsb' 2 2 = 0 ∧
      (v.extractLsb' 4 4).toNat = (match s.status.cause with
        | .noFault => 0 | .config => 1 | .illegal => 2 | .bufferRange => 3 | .uninitReg => 4 | .uninitMem => 5
        | .coeffRange => 6) ∧
      v.extractLsb' 8 9 = s.status.fidx ∧ v.extractLsb' 17 15 = 0) ∧
    (s.params.legal = true → s.host = .read 4 0x008 :: rest →
      ∃ v : Word, step s = .next { s with host := rest, replies := v :: s.replies } ∧
      (v.extractLsb' 0 16).toNat = s.params.cbytes ∧ (v.extractLsb' 16 4).toNat = s.params.eta1 ∧
      (v.extractLsb' 20 4).toNat = s.params.eta2 ∧ (v.extractLsb' 24 5).toNat = s.params.npoly ∧
      v.extractLsb' 29 3 = 0) ∧
    (s.params.legal = true → s.host = .read 4 0x010 :: rest →
      ∃ v : Word, step s = .next { s with host := rest, replies := v :: s.replies } ∧
      (v.extractLsb' 0 16).toNat = s.params.bmemSize ∧ (v.extractLsb' 16 8).toNat = s.params.symbytes ∧
      v.extractLsb' 24 8 = 0) ∧
    (s.host = .read 4 0x00C :: rest → step s = .next { s with host := rest, replies := s.fcmd :: s.replies }) ∧
    (s.host = .read 4 0x000 :: rest → step s = .next { s with host := rest, replies := 0 :: s.replies })

/-- 20_memory.md R51, 10_state.md R25: a host word write to BMEM stores its four bytes little-endian, sets WRITTEN and changes
nothing else of KPOLY; a byte write stores the one byte. -/
def Obligations.HostWritesBmemLittleEndian : Prop :=
  ∀ (s : State) (a : Nat) (w : Word) (rest : List HostOp), s.status.busy = false → s.params.legal = true →
    (a % 4 = 0 → a + 4 ≤ s.params.bmemSize → s.host = .write 4 (0x1000 + a) w :: rest →
      ∃ t, step s = .next t ∧ State.WroteOnlyBytes a 4 { s with host := rest } t ∧
        t.bmem.read a = some (w.extractLsb' 0 8) ∧ t.bmem.read (a + 1) = some (w.extractLsb' 8 8) ∧
        t.bmem.read (a + 2) = some (w.extractLsb' 16 8) ∧ t.bmem.read (a + 3) = some (w.extractLsb' 24 8)) ∧
    (a < s.params.bmemSize → s.host = .write 1 (0x1000 + a) w :: rest →
      ∃ t, step s = .next t ∧ State.WroteOnlyBytes a 1 { s with host := rest } t ∧
        t.bmem.read a = some (w.extractLsb' 0 8))

/-- 20_memory.md R51: a host word read of written BMEM bytes returns them little-endian, a byte read the byte; a read changes
nothing of KPOLY. -/
def Obligations.HostReadsBmemLittleEndian : Prop :=
  ∀ (s : State) (a : Nat) (rest : List HostOp) (b0 b1 b2 b3 : Byte), s.status.busy = false → s.params.legal = true →
    (a % 4 = 0 → a + 4 ≤ s.params.bmemSize → s.bmem.read a = some b0 → s.bmem.read (a + 1) = some b1 →
      s.bmem.read (a + 2) = some b2 → s.bmem.read (a + 3) = some b3 → s.host = .read 4 (0x1000 + a) :: rest →
      ∃ v : Word, step s = .next { s with host := rest, replies := v :: s.replies } ∧
        v.toNat = b0.toNat + 2 ^ 8 * b1.toNat + 2 ^ 16 * b2.toNat + 2 ^ 24 * b3.toNat) ∧
    (a < s.params.bmemSize → s.bmem.read a = some b0 → s.host = .read 1 (0x1000 + a) :: rest →
      ∃ v : Word, step s = .next { s with host := rest, replies := v :: s.replies } ∧ v.toNat = b0.toNat)

/-- 60_exceptions.md R194: a host read of BMEM never faults, written or not. The value of an unwritten byte is free (log entry
5): the statement holds for every value. -/
def Obligations.HostReadOfBmemNeverFaults : Prop :=
  ∀ (s : State) (a : Nat) (rest : List HostOp), s.status.busy = false → s.params.legal = true →
    a < s.params.bmemSize → s.host = .read 1 (0x1000 + a) :: rest →
    ∃ v : Word, v.toNat < 256 ∧ step s = .next { s with host := rest, replies := v :: s.replies }

/-- 20_memory.md R52: a reserved offset reads 0 and ignores a write; a write to STATUS, CONFIG, FCMD or CONFIG2 is ignored. -/
def Obligations.ReservedOffsetsReadZeroAndIgnoreWrites : Prop :=
  ∀ (s : State) (size offset : Nat) (w : Word) (rest : List HostOp), s.status.busy = false → s.params.legal = true →
    ((size = 4 ∧ offset % 4 = 0) ∨ size = 1) →
    ((0x014 ≤ offset ∧ offset < 0x1000) ∨ (0x1000 + s.params.bmemSize ≤ offset ∧ offset < 0x2000) →
      (s.host = .read size offset :: rest → step s = .next { s with host := rest, replies := 0 :: s.replies }) ∧
      (s.host = .write size offset w :: rest → step s = .next { s with host := rest })) ∧
    (size = 4 → offset ∈ [0x004, 0x008, 0x00C, 0x010] → s.host = .write size offset w :: rest →
      step s = .next { s with host := rest })

/-- 20_memory.md R51: inside the window an access of another width or alignment than those of the rule is refused. -/
def Obligations.OtherHostFormsAreRefused : Prop :=
  ∀ (s : State) (size offset : Nat) (w : Word) (rest : List HostOp), s.status.busy = false →
    offset < 0x2000 → offset + size ≤ 0x2000 → ¬(size = 4 ∧ offset % 4 = 0) → ¬(size = 1 ∧ 0x014 ≤ offset) →
    (s.host = .read size offset :: rest → step s = .refused (.hostAccessForm size offset)) ∧
    (s.host = .write size offset w :: rest → step s = .refused (.hostAccessForm size offset))

/-- 10_state.md R23: the host has no direct path to the polynomial registers: a step that is neither a CMD write nor a reset
leaves every register, VALID bit, STATUS and FCMD as they are. -/
def Obligations.HostNeverTouchesRegisters : Prop :=
  ∀ (s t : State) (op : HostOp) (rest : List HostOp), s.host = op :: rest → isCmdWrite op = false → op ≠ .reset →
    step s = .next t → s.SameRegs t ∧ t.status = s.status ∧ t.fcmd = s.fcmd ∧ t.params = s.params

/-! ### The shared functions -/

/-- 20_memory.md R41: MemRead faults with BUFFER_RANGE past BMEM_SIZE, else with UNINIT_MEM at the lowest unwritten offset,
else returns the bytes. -/
def Obligations.MemReadChecksThenReturnsTheBytes : Prop :=
  ∀ (s : State) (addr n : Nat),
    (s.params.bmemSize < addr + n → memRead s addr n = .error ⟨.bufferRange, 0⟩) ∧
    (addr + n ≤ s.params.bmemSize → ∀ k, k < n → s.bmem.written (addr + k) = false →
      (∀ j, j < k → s.bmem.written (addr + j) = true) → memRead s addr n = .error ⟨.uninitMem, BitVec.ofNat 9 k⟩) ∧
    (BytesReadable s addr n → ∃ b, memRead s addr n = .ok b ∧ b.length = n ∧
      ∀ k, k < n → b[k]? = s.bmem.read (addr + k))

/-- 20_memory.md R45: Pack_w puts bit j of value i at bit (s mod 8) of byte (s div 8), s = i*w + j, in k*w/8 bytes. -/
def Obligations.PackPlacesEveryBit : Prop :=
  ∀ (w : Nat) (v : List Nat), v.length * w % 8 = 0 → (∀ x ∈ v, x < 2 ^ w) →
    (pack w v).length = v.length * w / 8 ∧
    ∀ i j, i < v.length → j < w →
      ((pack w v).getD ((i * w + j) / 8) 0).getLsbD ((i * w + j) % 8) = (v.getD i 0).testBit j

/-- 20_memory.md R46: Unpack_w reads value i as the sum of its stream bits, and undoes Pack_w. -/
def Obligations.UnpackUndoesPack : Prop :=
  (∀ (w k : Nat) (b : List Byte), k * w ≤ 8 * b.length → ∀ i, i < k →
    (unpack w k b).getD i 0 =
      ∑ j ∈ Finset.range w, ((b.getD ((i * w + j) / 8) 0).getLsbD ((i * w + j) % 8)).toNat * 2 ^ j) ∧
  (∀ (w : Nat) (v : List Nat), v.length * w % 8 = 0 → (∀ x ∈ v, x < 2 ^ w) → unpack w v.length (pack w v) = v)

/-- 40_datapath_primitives.md R82, R84: SignFix adds q to a negative x and keeps the rest, so lies in [0, q) on [−q, q);
BarrettReduce is x mod Q for every int16. -/
def Obligations.SignFixAndBarrettReduce : Prop :=
  (∀ x : Coeff, (signFix x).toInt = if x.toInt < 0 then x.toInt + 3329 else x.toInt) ∧
  (∀ x : Coeff, -3329 ≤ x.toInt → x.toInt < 3329 → 0 ≤ (signFix x).toInt ∧ (signFix x).toInt < 3329) ∧
  (∀ x : Coeff, (barrettReduce x).toInt = x.toInt % 3329)

/-- 40_datapath_primitives.md R92, R93: MsgSym is 0 or 1665, and MsgBit is 1 exactly on [833, 2496] within [0, Q). -/
def Obligations.MessageSymbolAndBit : Prop :=
  msgSym 0 = 0 ∧ (msgSym 1).toInt = 1665 ∧
  ∀ x, x < 3329 → msgBit x = (if 833 ≤ x ∧ x ≤ 2496 then 1 else 0) ∧ msgBit x = ((2 * x * 2 + 3329) / (2 * 3329)) % 2

/-- 40_datapath_primitives.md R85, R87, R90: the default Montgomery reduction meets M1 and M2 on the whole range of R86, the
Barrett circuit agrees with x mod Q at every int16, and the multiply-and-shift compressions agree with the rounding formula at
every u in [0, Q). The machine uses none of these circuits (log entry 17). -/
def Obligations.ReferenceCircuitsMeetTheirRules : Prop :=
  (∀ a : BitVec 32, -109084672 ≤ a.toInt → a.toInt ≤ 109084671 →
    Cong ((montReduceRef a).toInt * 2 ^ 16) a.toInt ∧ -3329 < (montReduceRef a).toInt ∧ (montReduceRef a).toInt < 3329) ∧
  (∀ x : Coeff, barrettCircuit x = barrettReduce x) ∧
  ∀ u, u < 3329 → compressFixed4 u = compressD 4 u ∧ compressFixed5 u = compressD 5 u
end

