-- ==== Sys2Proof/Laws/Codec.lean ====
section
/-! SUPPORT. The bit stream and its cuts (20_memory.md R45, R46): lengths, single bits, and that cutting a stream at the
width it was made with gives the values back. -/

namespace Sys2Proof.Machine

@[simp] theorem length_bitsOf (w x : Nat) : (bitsOf w x).length = w := by simp [bitsOf]

theorem getElem?_bitsOf (w x : Nat) {j : Nat} (h : j < w) : (bitsOf w x)[j]? = some (x.testBit j) := by
  simp [bitsOf, h]

theorem bitStream_cons (w x : Nat) (v : List Nat) : bitStream w (x :: v) = bitsOf w x ++ bitStream w v := by
  simp [bitStream]

@[simp] theorem length_bitStream (w : Nat) (v : List Nat) : (bitStream w v).length = v.length * w := by
  induction v with
  | nil => simp [bitStream]
  | cons x v ih => rw [bitStream_cons, List.length_append, ih, length_bitsOf, List.length_cons]; ring

/-- Stream bit i*w + j is bit j of value i (20_memory.md R45). -/
theorem getElem?_bitStream (w : Nat) (v : List Nat) {i j : Nat} (hi : i < v.length) (hj : j < w) :
    (bitStream w v)[i * w + j]? = some (v[i].testBit j) := by
  induction v generalizing i with
  | nil => simp at hi
  | cons x v ih =>
    rw [bitStream_cons]
    cases i with
    | zero =>
      rw [List.getElem?_append_left (by simpa using hj)]
      simpa using getElem?_bitsOf w x hj
    | succ i =>
      rw [List.getElem?_append_right (by rw [length_bitsOf, Nat.succ_mul]; omega), length_bitsOf]
      rw [show (i + 1) * w + j - w = i * w + j by rw [Nat.succ_mul]; omega]
      simpa using ih (by simpa using hi)

theorem natOfBits_lt (bits : List Bool) : natOfBits bits < 2 ^ bits.length := by
  induction bits with
  | nil => simp [natOfBits]
  | cons b bits ih =>
    rw [natOfBits, List.length_cons, Nat.pow_succ]
    cases b <;> simp <;> omega

theorem testBit_natOfBits (bits : List Bool) (j : Nat) : (natOfBits bits).testBit j = bits.getD j false := by
  induction bits generalizing j with
  | nil => simp [natOfBits]
  | cons b bits ih =>
    rw [natOfBits]
    cases j with
    | zero => cases b <;> simp [Nat.testBit_zero, Nat.add_mod]
    | succ j =>
      rw [Nat.testBit_succ, List.getD_cons_succ, ← ih j]
      congr 1
      cases b <;> (simp; try omega)

/-- The value of the w low bits of x is x mod 2^w. -/
theorem natOfBits_bitsOf (w x : Nat) : natOfBits (bitsOf w x) = x % 2 ^ w := by
  apply Nat.eq_of_testBit_eq
  intro j
  rw [testBit_natOfBits, Nat.testBit_mod_two_pow]
  by_cases h : j < w
  · rw [List.getD_eq_getElem?_getD, getElem?_bitsOf w x h]; simp [h]
  · rw [List.getD_eq_default _ _ (by simpa using h)]; simp [h]

/-- A list of bits is the bits of its value. -/
theorem bitsOf_natOfBits (bits : List Bool) : bitsOf bits.length (natOfBits bits) = bits := by
  apply List.ext_getElem?
  intro j
  by_cases h : j < bits.length
  · rw [getElem?_bitsOf _ _ h, testBit_natOfBits, List.getD_eq_getElem _ _ h, List.getElem?_eq_getElem h]
  · rw [List.getElem?_eq_none (by simpa using h), List.getElem?_eq_none (by simpa using h)]

/-- Value i of a cut is the value of bits i*w .. i*w + w - 1 (20_memory.md R46). -/
theorem getElem?_fields (w k : Nat) (bits : List Bool) {i : Nat} (h : i < k) :
    (fields w k bits)[i]? = some (natOfBits ((bits.drop (i * w)).take w)) := by
  induction k generalizing bits i with
  | zero => omega
  | succ k ih =>
    rw [fields]
    cases i with
    | zero => simp
    | succ i =>
      rw [List.getElem?_cons_succ, ih _ (by omega), List.drop_drop]
      congr 4
      ring

theorem fields_lt (w k : Nat) (bits : List Bool) : ∀ x ∈ fields w k bits, x < 2 ^ w := by
  induction k generalizing bits with
  | zero => simp [fields]
  | succ k ih =>
    intro x hx
    rw [fields, List.mem_cons] at hx
    rcases hx with rfl | hx
    · exact lt_of_lt_of_le (natOfBits_lt _) (Nat.pow_le_pow_right (by omega) (by simp))
    · exact ih _ x hx

/-- Cutting the stream of w-bit values at width w gives the values back. -/
theorem fields_bitStream (w : Nat) (v : List Nat) (h : ∀ x ∈ v, x < 2 ^ w) :
    fields w v.length (bitStream w v) = v := by
  induction v with
  | nil => simp [fields]
  | cons x v ih =>
    rw [bitStream_cons, List.length_cons, fields,
      List.take_left' (length_bitsOf w x), List.drop_left' (length_bitsOf w x), natOfBits_bitsOf,
      Nat.mod_eq_of_lt (h x (by simp)), ih fun y hy => h y (by simp [hy])]

/-- The stream of the values of a cut is the stream that was cut. -/
theorem bitStream_fields (w k : Nat) (bits : List Bool) (h : bits.length = k * w) :
    bitStream w (fields w k bits) = bits := by
  induction k generalizing bits with
  | zero => simp [fields, bitStream]; simpa using h
  | succ k ih =>
    have hw : w ≤ bits.length := by rw [h, Nat.succ_mul]; omega
    rw [fields, bitStream_cons, ih (bits.drop w) (by rw [List.length_drop, h, Nat.succ_mul]; omega)]
    have : bitsOf w (natOfBits (bits.take w)) = bits.take w := by
      have := bitsOf_natOfBits (bits.take w)
      rwa [List.length_take, Nat.min_eq_left hw] at this
    rw [this, List.take_append_drop]

/-- The bytes of a cut at width 8, read as values again. -/
theorem bytes_fields (n : Nat) (bits : List Bool) :
    ((fields 8 n bits).map fun x => BitVec.ofNat 8 x).map (fun b : Byte => b.toNat) = fields 8 n bits := by
  rw [List.map_map]
  conv_rhs => rw [← List.map_id (fields 8 n bits)]
  apply List.map_congr_left
  intro x hx
  have := fields_lt 8 n bits x hx
  simp only [Function.comp_apply, BitVec.toNat_ofNat, id_eq]
  exact Nat.mod_eq_of_lt this

/-- The stream of the packed bytes is the stream of the values. -/
theorem bitStream_pack (w : Nat) (v : List Nat) (h : v.length * w % 8 = 0) :
    bitStream 8 ((pack w v).map fun b => b.toNat) = bitStream w v := by
  rw [pack, bytes_fields, bitStream_fields]
  rw [length_bitStream]; omega

theorem unpack_lt (w k : Nat) (b : List Byte) : ∀ x ∈ unpack w k b, x < 2 ^ w := fields_lt w k _

end Sys2Proof.Machine
end

