-- ==== Sys2Proof/Laws/State.lean ====
section
/-! SUPPORT. One lemma for each field and each named update of State, and the registers after a register write. -/

namespace Sys2Proof.Machine.State

variable (s : State) (r : Reg) (v : KPoly) (a : Nat) (bs : List Byte) (f : FaultRecord) (w : Word)

/-! writeReg -/
@[simp] theorem writeReg_params : (s.writeReg r v).params = s.params := rfl
@[simp] theorem writeReg_bmem : (s.writeReg r v).bmem = s.bmem := rfl
@[simp] theorem writeReg_status : (s.writeReg r v).status = s.status := rfl
@[simp] theorem writeReg_fcmd : (s.writeReg r v).fcmd = s.fcmd := rfl
@[simp] theorem writeReg_pc : (s.writeReg r v).pc = s.pc := rfl
@[simp] theorem writeReg_host : (s.writeReg r v).host = s.host := rfl
@[simp] theorem writeReg_replies : (s.writeReg r v).replies = s.replies := rfl
@[simp] theorem writeReg_resets : (s.writeReg r v).resets = s.resets := rfl

/-! memWrite -/
@[simp] theorem memWrite_params : (s.memWrite a bs).params = s.params := rfl
@[simp] theorem memWrite_polys : (s.memWrite a bs).polys = s.polys := rfl
@[simp] theorem memWrite_valid : (s.memWrite a bs).valid = s.valid := rfl
@[simp] theorem memWrite_bmem : (s.memWrite a bs).bmem = s.bmem.write a bs := rfl
@[simp] theorem memWrite_status : (s.memWrite a bs).status = s.status := rfl
@[simp] theorem memWrite_fcmd : (s.memWrite a bs).fcmd = s.fcmd := rfl
@[simp] theorem memWrite_pc : (s.memWrite a bs).pc = s.pc := rfl
@[simp] theorem memWrite_host : (s.memWrite a bs).host = s.host := rfl
@[simp] theorem memWrite_replies : (s.memWrite a bs).replies = s.replies := rfl
@[simp] theorem memWrite_resets : (s.memWrite a bs).resets = s.resets := rfl
@[simp] theorem memWrite_poly : (s.memWrite a bs).poly r = s.poly r := rfl
@[simp] theorem memWrite_isValid : (s.memWrite a bs).isValid r = s.isValid r := rfl

/-! enterFault -/
@[simp] theorem enterFault_params : (s.enterFault f w).params = s.params := rfl
@[simp] theorem enterFault_polys : (s.enterFault f w).polys = s.polys := rfl
@[simp] theorem enterFault_valid : (s.enterFault f w).valid = s.valid := rfl
@[simp] theorem enterFault_bmem : (s.enterFault f w).bmem = s.bmem := rfl
@[simp] theorem enterFault_busy : (s.enterFault f w).status.busy = s.status.busy := rfl
@[simp] theorem enterFault_halted : (s.enterFault f w).status.halted = true := rfl
@[simp] theorem enterFault_cause : (s.enterFault f w).status.cause = f.cause := rfl
@[simp] theorem enterFault_fidx : (s.enterFault f w).status.fidx = f.fidx := rfl
@[simp] theorem enterFault_fcmd : (s.enterFault f w).fcmd = w := rfl
@[simp] theorem enterFault_pc : (s.enterFault f w).pc = s.pc := rfl
@[simp] theorem enterFault_host : (s.enterFault f w).host = s.host := rfl
@[simp] theorem enterFault_replies : (s.enterFault f w).replies = s.replies := rfl
@[simp] theorem enterFault_resets : (s.enterFault f w).resets = s.resets := rfl
@[simp] theorem enterFault_poly : (s.enterFault f w).poly r = s.poly r := rfl
@[simp] theorem enterFault_isValid : (s.enterFault f w).isValid r = s.isValid r := rfl

/-! hostReset -/
@[simp] theorem hostReset_params : s.hostReset.params = s.params := rfl
@[simp] theorem hostReset_bmem : s.hostReset.bmem = [] := rfl
@[simp] theorem hostReset_status : s.hostReset.status = Status.reset s.params := rfl
@[simp] theorem hostReset_fcmd : s.hostReset.fcmd = 0 := rfl
@[simp] theorem hostReset_pc : s.hostReset.pc = 0 := rfl
@[simp] theorem hostReset_host : s.hostReset.host = s.host := rfl
@[simp] theorem hostReset_replies : s.hostReset.replies = s.replies := rfl
@[simp] theorem hostReset_resets : s.hostReset.resets = s.resets + 1 := rfl

@[simp] theorem hostReset_isValid : s.hostReset.isValid r = false := by
  simp [hostReset, resetOf, isValid]

@[simp] theorem hostReset_poly : s.hostReset.poly r = KPoly.zero := by
  simp [hostReset, resetOf, poly]

@[simp] theorem resetOf_isValid (c : Params) : (resetOf c).isValid r = false := by
  simp [resetOf, isValid]

/-! The registers after a register write (00_scope.md R13). -/

@[simp] theorem poly_writeReg_self : (s.writeReg r v).poly r = v := by
  simp [poly, writeReg]

@[simp] theorem isValid_writeReg_self : (s.writeReg r v).isValid r = true := by
  simp [isValid, writeReg]

theorem poly_writeReg_of_ne {r' : Reg} (h : r' ≠ r) : (s.writeReg r v).poly r' = s.poly r' := by
  have : r.toNat ≠ r'.toNat := fun e => h (BitVec.eq_of_toNat_eq e.symm)
  simp only [poly, writeReg, Vector.getElem_set, this, if_false]

theorem isValid_writeReg_of_ne {r' : Reg} (h : r' ≠ r) : (s.writeReg r v).isValid r' = s.isValid r' := by
  have : r.toNat ≠ r'.toNat := fun e => h (BitVec.eq_of_toNat_eq e.symm)
  simp only [isValid, writeReg, Vector.getElem_set, this, if_false]

/-- Everything a register write does to the rest of the machine. -/
theorem writeReg_wroteOnlyReg : s.WroteOnlyReg r (s.writeReg r v) :=
  ⟨isValid_writeReg_self s r v,
    fun _ h => ⟨poly_writeReg_of_ne s r v h, isValid_writeReg_of_ne s r v h⟩,
    fun _ => rfl, ⟨rfl, rfl⟩, ⟨rfl, rfl, rfl, rfl, rfl⟩⟩

/-- Everything fault entry does to the machine (60_exceptions.md R199). -/
theorem enterFault_enteredFault : s.EnteredFault f.cause f.fidx.toNat w (s.enterFault f w) :=
  ⟨rfl, rfl, by simp, rfl, rfl, fun _ => ⟨rfl, rfl⟩, fun _ => rfl, ⟨rfl, rfl, rfl, rfl, rfl⟩⟩

end Sys2Proof.Machine.State
end

