-- ==== Sys2Proof/Laws/Memory.lean ====
section
/-! SUPPORT. BMEM: read after write, and the canonical form is kept by every memory operation (20_memory.md R41, R42). -/

namespace Sys2Proof.Machine

namespace Memory

@[simp] theorem read_nil (x : Nat) : read [] x = none := rfl

theorem read_append (m₁ m₂ : Memory) (x : Nat) : read (m₁ ++ m₂) x = (read m₁ x).or (read m₂ x) := by
  induction m₁ with
  | nil => simp
  | cons c m₁ ih =>
    obtain ⟨k, b⟩ := c
    by_cases h : k = x
    · simp [read, h]
    · simp [read, h, ih]

theorem read_filter (m : Memory) (p : Nat → Bool) (x : Nat) :
    read (m.filter fun c => p c.1) x = if p x then read m x else none := by
  induction m with
  | nil => simp
  | cons c m ih =>
    obtain ⟨k, b⟩ := c
    by_cases hp : p k = true
    · rw [List.filter_cons_of_pos (by simpa using hp)]
      by_cases h : k = x
      · subst h; simp [read, hp]
      · simp [read, h, ih]
    · rw [List.filter_cons_of_neg (by simpa using hp), ih]
      by_cases h : k = x
      · subst h; simp [hp]
      · simp [read, h]

theorem read_cellsAt (a : Nat) (bs : List Byte) (x : Nat) :
    read (cellsAt a bs) x = if a ≤ x then bs[x - a]? else none := by
  induction bs generalizing a with
  | nil => simp [cellsAt]
  | cons b bs ih =>
    rw [cellsAt, read]
    by_cases h : a = x
    · subst h; simp
    · rw [if_neg h, ih]
      by_cases h' : a ≤ x
      · rw [if_pos (by omega), if_pos h', show x - a = (x - (a + 1)) + 1 by omega, List.getElem?_cons_succ]
      · rw [if_neg (by omega), if_neg h']

/-- Read after write: the written bytes at the written addresses, every other address as before. -/
theorem read_write (m : Memory) (a : Nat) (bs : List Byte) (x : Nat) :
    (m.write a bs).read x = if a ≤ x ∧ x < a + bs.length then bs[x - a]? else m.read x := by
  rw [write, read_append, read_append, read_cellsAt]
  rw [read_filter m (fun k => decide (k < a)), read_filter m (fun k => decide (a + bs.length ≤ k))]
  by_cases h₁ : x < a
  · rw [if_pos (by simpa using h₁), if_neg (by omega), if_neg (by simp; omega), if_neg (by omega)]
    simp
  · rw [if_neg (by simpa using h₁), if_pos (by omega)]
    by_cases h₂ : x < a + bs.length
    · rw [if_neg (by simp; omega), if_pos ⟨by omega, h₂⟩]
      simp
    · rw [if_pos (by simp; omega), if_neg (by omega), List.getElem?_eq_none (by omega)]
      simp

theorem read_write_inside (m : Memory) (a : Nat) (bs : List Byte) {k : Nat} (h : k < bs.length) :
    (m.write a bs).read (a + k) = bs[k]? := by
  rw [read_write, if_pos (by omega), Nat.add_sub_cancel_left]

theorem read_write_outside (m : Memory) (a : Nat) (bs : List Byte) {x : Nat} (h : x < a ∨ a + bs.length ≤ x) :
    (m.write a bs).read x = m.read x := by
  rw [read_write, if_neg (by omega)]

theorem written_write (m : Memory) (a : Nat) (bs : List Byte) (x : Nat) :
    (m.write a bs).written x = (decide (a ≤ x ∧ x < a + bs.length) || m.written x) := by
  rw [written, written, read_write]
  by_cases h : a ≤ x ∧ x < a + bs.length
  · rw [if_pos h, List.getElem?_eq_getElem (by omega)]; simp [h]
  · rw [if_neg h]; simp [h]

theorem cellsAt_bounds (a : Nat) (bs : List Byte) : ∀ c ∈ cellsAt a bs, a ≤ c.1 ∧ c.1 < a + bs.length := by
  induction bs generalizing a with
  | nil => simp [cellsAt]
  | cons b bs ih =>
    intro c hc
    rw [cellsAt, List.mem_cons] at hc
    rcases hc with rfl | hc
    · simp
    · have := ih (a + 1) c hc
      simp only [List.length_cons]; omega

theorem wf_cellsAt (a : Nat) (bs : List Byte) : wf (cellsAt a bs) := by
  induction bs generalizing a with
  | nil => exact List.Pairwise.nil
  | cons b bs ih =>
    exact List.Pairwise.cons (fun c hc => (cellsAt_bounds (a + 1) bs c hc).1) (ih (a + 1))

/-- A write keeps the canonical form. -/
theorem wf_write (m : Memory) (a : Nat) (bs : List Byte) (h : m.wf) : (m.write a bs).wf := by
  unfold write wf
  rw [List.pairwise_append, List.pairwise_append]
  refine ⟨⟨h.filter _, wf_cellsAt a bs, ?_⟩, h.filter _, ?_⟩
  · intro c hc d hd
    have := (cellsAt_bounds a bs d hd).1
    simp only [List.mem_filter, decide_eq_true_eq] at hc
    omega
  · intro c hc d hd
    simp only [List.mem_filter, decide_eq_true_eq] at hd
    rcases List.mem_append.mp hc with hc | hc
    · simp only [List.mem_filter, decide_eq_true_eq] at hc; omega
    · have := (cellsAt_bounds a bs c hc).2; omega

/-- The reset memory is in canonical form. -/
theorem wf_nil : wf [] := List.Pairwise.nil

/-- In canonical form a listed cell is what its address reads as, so equal reads mean equal memories. -/
theorem read_of_mem (m : Memory) (h : m.wf) {k : Nat} {b : Byte} (hc : (k, b) ∈ m) : m.read k = some b := by
  induction m with
  | nil => cases hc
  | cons c m ih =>
    obtain ⟨k', b'⟩ := c
    rcases List.mem_cons.mp hc with e | hm
    · cases e; simp [read]
    · have hlt : k' < k := (List.pairwise_cons.mp h).1 _ hm
      rw [read, if_neg (by omega)]
      exact ih (List.pairwise_cons.mp h).2 hm

end Memory

/-- Everything a memory write does to the machine. -/
theorem State.memWrite_wroteOnlyBytes (s : State) (a : Nat) (bs : List Byte) :
    s.WroteOnlyBytes a bs.length (s.memWrite a bs) :=
  ⟨fun _ h => Memory.read_write_outside _ _ _ h, fun _ => ⟨rfl, rfl⟩, ⟨rfl, rfl⟩, ⟨rfl, rfl, rfl, rfl, rfl⟩⟩

theorem State.memWrite_holds (s : State) (a : Nat) (bs : List Byte) : (s.memWrite a bs).Holds a bs :=
  fun _ h => Memory.read_write_inside _ _ _ h

end Sys2Proof.Machine
end

