-- ==== Sys2Proof/Laws/Operands.lean ====
section
/-! SUPPORT. One lemma for each check of the check phase: when it passes and with what, and which fault it meets otherwise
(60_exceptions.md R192-R194); and how a command ends (R198, R199). -/

namespace Sys2Proof.Machine

variable {s t : State}

theorem checkRange_ok {addr n : Nat} (h : addr + n ≤ s.params.bmemSize) : checkRange s addr n = .ok () := if_pos h

theorem checkRange_error {addr n : Nat} (h : ¬addr + n ≤ s.params.bmemSize) :
    checkRange s addr n = .error ⟨.bufferRange, 0⟩ := if_neg h

theorem readReg_ok {r : Reg} (h : s.isValid r = true) : readReg s r = .ok (s.poly r) := if_pos h

theorem readReg_error {r : Reg} (h : s.isValid r = false) : readReg s r = .error ⟨.uninitReg, r.setWidth 9⟩ :=
  if_neg (by simp [h])

theorem firstUnwritten_none {m : Memory} {addr n : Nat} :
    firstUnwritten m addr n = none ↔ ∀ k, k < n → m.written (addr + k) = true := by
  simp [firstUnwritten, List.find?_eq_none]

theorem firstUnwritten_some {m : Memory} {addr n k : Nat} (h : firstUnwritten m addr n = some k) :
    k < n ∧ m.written (addr + k) = false ∧ ∀ j, j < k → m.written (addr + j) = true := by
  rw [firstUnwritten, List.find?_range_eq_some] at h
  simpa [and_left_comm] using h

@[simp] theorem length_bytesAt (m : Memory) (addr n : Nat) : (bytesAt m addr n).length = n := by simp [bytesAt]

/-- The bytes a read returns are the bytes the memory holds. -/
theorem getElem?_bytesAt {m : Memory} {addr n : Nat} (h : ∀ k, k < n → m.written (addr + k) = true) {k : Nat}
    (hk : k < n) : (bytesAt m addr n)[k]? = m.read (addr + k) := by
  have hw := h k hk
  rw [Memory.written, Option.isSome_iff_exists] at hw
  obtain ⟨b, hb⟩ := hw
  simp [bytesAt, hk, hb]

theorem memRead_ok {addr n : Nat} (hr : addr + n ≤ s.params.bmemSize)
    (hw : ∀ k, k < n → s.bmem.written (addr + k) = true) : memRead s addr n = .ok (bytesAt s.bmem addr n) := by
  rw [memRead, if_pos hr, firstUnwritten_none.mpr hw]

theorem memRead_range {addr n : Nat} (hr : ¬addr + n ≤ s.params.bmemSize) :
    memRead s addr n = .error ⟨.bufferRange, 0⟩ := if_neg hr

theorem memRead_unwritten {addr n k : Nat} (hr : addr + n ≤ s.params.bmemSize)
    (hk : firstUnwritten s.bmem addr n = some k) : memRead s addr n = .error ⟨.uninitMem, BitVec.ofNat 9 k⟩ := by
  rw [memRead, if_pos hr, hk]

/-- A successful memory read: in range, every byte written, and these are the bytes. -/
theorem memRead_eq_ok {addr n : Nat} {b : List Byte} (h : memRead s addr n = .ok b) :
    addr + n ≤ s.params.bmemSize ∧ (∀ k, k < n → s.bmem.written (addr + k) = true) ∧ b = bytesAt s.bmem addr n := by
  rw [memRead] at h
  split at h
  · rename_i hr
    split at h
    · cases h
    · rename_i hn
      exact ⟨hr, firstUnwritten_none.mp hn, by cases h; rfl⟩
  · cases h

theorem checkLanes_ok {good : List Bool} (h : ∀ g ∈ good, g = true) : checkLanes good = .ok () := by
  have : good.findIdx? (fun g => !g) = none := by
    rw [List.findIdx?_eq_none_iff]; intro g hg; simp [h g hg]
  rw [checkLanes, this]

/-- The fault of a domain check is at the lowest lane that is not good (60_exceptions.md R193). -/
theorem checkLanes_error {good : List Bool} {i : Nat} (hi : i < good.length) (hb : good[i] = false)
    (hl : ∀ j (h : j < i), good[j] = true) : checkLanes good = .error ⟨.coeffRange, BitVec.ofNat 9 i⟩ := by
  have : good.findIdx? (fun g => !g) = some i := by
    rw [List.findIdx?_eq_some_iff_getElem]
    exact ⟨hi, by simp [hb], fun j hj => by simp [hl j hj]⟩
  rw [checkLanes, this]

/-- A domain check answers only these two ways. -/
theorem checkLanes_cases (good : List Bool) :
    (checkLanes good = .ok () ∧ ∀ g ∈ good, g = true) ∨
      ∃ i, ∃ h : i < good.length, good[i] = false ∧ (∀ j (_ : j < i), good[j] = true) ∧
        checkLanes good = .error ⟨.coeffRange, BitVec.ofNat 9 i⟩ := by
  cases e : good.findIdx? (fun g => !g) with
  | none =>
    left
    rw [List.findIdx?_eq_none_iff] at e
    exact ⟨checkLanes_ok fun g hg => by simpa using e g hg, fun g hg => by simpa using e g hg⟩
  | some i =>
    right
    obtain ⟨hi, hb, hl⟩ := List.findIdx?_eq_some_iff_getElem.mp e
    exact ⟨i, hi, by simpa using hb, fun j hj => by simpa using hl j hj,
      checkLanes_error hi (by simpa using hb) fun j hj => by simpa using hl j hj⟩

theorem goodLanes_all {ok : Int → Bool} {p : KPoly} :
    (∀ g ∈ goodLanes ok p, g = true) ↔ ∀ i, i < 256 → ok (p.lane i) = true := by
  rw [← KPoly.allLanes_iff]
  simp only [goodLanes, KPoly.allLanes, List.mem_map, forall_exists_index, and_imp, forall_apply_eq_imp_iff₂,
    List.all_eq_true]

@[simp] theorem length_goodLanes (ok : Int → Bool) (p : KPoly) : (goodLanes ok p).length = 256 := by simp [goodLanes]
@[simp] theorem length_goodPairs (ok : Int → Bool) (p r : KPoly) : (goodPairs ok p r).length = 256 := by simp [goodPairs]
@[simp] theorem length_goodResults (f : Int → Int → Int) (p r : KPoly) : (goodResults f p r).length = 256 := by
  simp [goodResults]

theorem getElem_goodLanes (ok : Int → Bool) (p : KPoly) {i : Nat} (h : i < 256) :
    (goodLanes ok p)[i]'(by simpa using h) = ok (p.lane i) := by
  simp [goodLanes, KPoly.lane, KPoly.coeff_eq_getElem p h]

theorem getElem_goodPairs (ok : Int → Bool) (p r : KPoly) {i : Nat} (h : i < 256) :
    (goodPairs ok p r)[i]'(by simpa using h) = (ok (p.lane i) && ok (r.lane i)) := by
  simp [goodPairs, KPoly.lane, KPoly.coeff_eq_getElem p h, KPoly.coeff_eq_getElem r h]

theorem getElem_goodResults (f : Int → Int → Int) (p r : KPoly) {i : Nat} (h : i < 256) :
    (goodResults f p r)[i]'(by simpa using h) = Config.inInt16 (f (p.lane i) (r.lane i)) := by
  simp [goodResults, KPoly.lane, KPoly.coeff_eq_getElem p h, KPoly.coeff_eq_getElem r h]

theorem goodPairs_all {ok : Int → Bool} {p r : KPoly} :
    (∀ g ∈ goodPairs ok p r, g = true) ↔ ∀ i, i < 256 → ok (p.lane i) = true ∧ ok (r.lane i) = true := by
  constructor
  · intro h i hi
    have := h _ (List.getElem_mem (l := goodPairs ok p r) (n := i) (by simpa using hi))
    rwa [getElem_goodPairs ok p r hi, Bool.and_eq_true] at this
  · intro h g hg
    obtain ⟨i, hi, rfl⟩ := List.getElem_of_mem hg
    have hi : i < 256 := by simpa using hi
    rw [getElem_goodPairs ok p r hi, Bool.and_eq_true]
    exact h i hi

theorem goodResults_all {f : Int → Int → Int} {p r : KPoly} :
    (∀ g ∈ goodResults f p r, g = true) ↔ ∀ i, i < 256 → Config.inInt16 (f (p.lane i) (r.lane i)) = true := by
  constructor
  · intro h i hi
    have := h _ (List.getElem_mem (l := goodResults f p r) (n := i) (by simpa using hi))
    rwa [getElem_goodResults f p r hi] at this
  · intro h g hg
    obtain ⟨i, hi, rfl⟩ := List.getElem_of_mem hg
    have hi : i < 256 := by simpa using hi
    rw [getElem_goodResults f p r hi]
    exact h i hi

/-- Where the exact results fit, the lanes are the exact results. -/
theorem lane_exactLanes (f : Int → Int → Int) (p r : KPoly) {i : Nat} (h : i < 256)
    (hfit : Config.inInt16 (f (p.lane i) (r.lane i)) = true) :
    (exactLanes f p r).lane i = f (p.lane i) (r.lane i) := by
  simp only [Config.inInt16, Bool.and_eq_true, decide_eq_true_eq] at hfit
  rw [KPoly.lane, exactLanes, KPoly.coeff_zipLanes _ _ _ h]
  exact toInt_ofInt16 hfit.1 hfit.2

/-! Sequencing of checks. -/

@[simp] theorem check_ok_bind {α β : Type} (a : α) (f : α → Check β) : ((Except.ok a : Check α) >>= f) = f a := rfl
@[simp] theorem check_error_bind {α β : Type} (e : FaultRecord) (f : α → Check β) :
    ((Except.error e : Check α) >>= f) = .error e := rfl

/-! How a command ends. -/

theorem conclude_ok {i : Instr} {c : Check State} (hw : i.wellFormed s.params.npoly = true) (hc : c = .ok t) :
    conclude i s c = .next t := by
  subst hc; unfold conclude; rw [if_pos hw]

theorem conclude_error {i : Instr} {c : Check State} {f : FaultRecord} (hw : i.wellFormed s.params.npoly = true)
    (hc : c = .error f) : conclude i s c = .next (s.enterFault f (encode i)) := by
  subst hc; unfold conclude; rw [if_pos hw]

theorem conclude_illegal {i : Instr} {c : Check State} (hw : i.wellFormed s.params.npoly = false) :
    conclude i s c = .next (s.enterFault illegalFault (encode i)) := by
  unfold conclude; rw [if_neg (by simp [hw])]

/-- A command that answers a next state committed its check phase's result, or entered the fault its check phase met, or
named a register that does not exist. -/
theorem conclude_next {i : Instr} {c : Check State} (h : conclude i s c = .next t) :
    (i.wellFormed s.params.npoly = true ∧ c = .ok t) ∨
      (∃ f, i.wellFormed s.params.npoly = true ∧ c = .error f ∧ t = s.enterFault f (encode i)) ∨
      (i.wellFormed s.params.npoly = false ∧ t = s.enterFault illegalFault (encode i)) := by
  unfold conclude at h
  split at h
  · rename_i hw
    split at h
    · rename_i u; left; cases h; exact ⟨hw, rfl⟩
    · rename_i f; right; left; cases h; exact ⟨f, hw, rfl, rfl⟩
  · rename_i hw; right; right; cases h; exact ⟨by simpa using hw, rfl⟩

end Sys2Proof.Machine
end

