-- ==== Sys2Proof/Laws/Primitives.lean ====
section
/-! SUPPORT. The values of the scalar primitives on their domains (40_datapath_primitives.md), and the contract of the
machine's function parameters in the form a meaning meets it. -/

namespace Sys2Proof.Machine

theorem sshiftRight_sign (x : Coeff) : x.sshiftRight 15 = if x.toInt < 0 then -1#16 else 0#16 := by
  apply BitVec.eq_of_toInt_eq
  have h := toInt_int16 x
  rw [BitVec.toInt_sshiftRight]
  split
  · rw [Int.shiftRight_eq_div_pow, show (-1#16).toInt = -1 by decide]
    norm_num
    omega
  · rw [Int.shiftRight_eq_div_pow, show (0#16).toInt = 0 by decide]
    norm_num
    omega

/-- SignFix as an integer: x + Q for a negative x, x otherwise. -/
theorem signFix_toInt (x : Coeff) : (signFix x).toInt = if x.toInt < 0 then x.toInt + 3329 else x.toInt := by
  have h := toInt_int16 x
  rw [signFix, sshiftRight_sign]
  split
  · rw [show (3329#16 &&& -1#16) = 3329#16 by decide, BitVec.toInt_add, Int.bmod_def,
      show (3329#16).toInt = 3329 by decide]
    norm_num
    split <;> omega
  · rw [show (3329#16 &&& 0#16) = 0#16 by decide]
    simp

/-- On [-Q, Q) SignFix is the residue mod Q (40_datapath_primitives.md R82). -/
theorem signFix_toNat (x : Coeff) (h : Config.inSignFix x.toInt = true) :
    ((signFix x).toNat : Int) = x.toInt % 3329 ∧ (signFix x).toNat < 3329 := by
  simp only [Config.inSignFix, Bool.and_eq_true, decide_eq_true_eq] at h
  have e := signFix_toInt x
  have hnn : 0 ≤ (signFix x).toInt := by rw [e]; split <;> omega
  have hn : ((signFix x).toNat : Int) = (signFix x).toInt := by
    rw [BitVec.toInt_eq_toNat_cond] at hnn ⊢
    split at hnn <;> split <;> omega
  rw [hn, e]
  constructor
  · split <;> omega
  · have : ((signFix x).toNat : Int) < 3329 := by rw [hn, e]; split <;> omega
    omega

theorem msgSym_zero : msgSym 0 = 0 := by decide
theorem msgSym_one : msgSym 1 = 1665 := by decide

theorem msgBit_le (x : Nat) : msgBit x ≤ 1 := by
  rw [msgBit]; exact Nat.and_le_right

theorem compressD_lt (d u : Nat) : compressD d u < 2 ^ d := Nat.mod_lt _ (by positivity)

/-- The product of TOMONT is in the range of MONT_REDUCE for every int16 (45_ntt.md R158). -/
theorem tomont_arg (x : Coeff) : (BitVec.ofInt 32 (x.toInt * 1353)).toInt = x.toInt * 1353 := by
  have h := toInt_int16 x
  rw [BitVec.toInt_ofInt, Int.bmod_def]
  norm_num
  split <;> omega

/-- TOMONT of a lane is congruent to x·2^16 mod Q and lies in (−Q, Q), whatever the instance (45_ntt.md R158). -/
theorem tomontLane_spec (x : Coeff) :
    (tomontLane Config.prims.fns x).toInt % 3329 = (x.toInt * 65536) % 3329 ∧
      -3329 < (tomontLane Config.prims.fns x).toInt ∧ (tomontLane Config.prims.fns x).toInt < 3329 := by
  have h := toInt_int16 x
  have harg := tomont_arg x
  have hc := Config.prims.contract.mont_congr (BitVec.ofInt 32 (x.toInt * 1353)) (by rw [harg]; omega) (by rw [harg]; omega)
  have hb := Config.prims.contract.mont_bound (BitVec.ofInt 32 (x.toInt * 1353)) (by rw [harg]; omega) (by rw [harg]; omega)
  refine ⟨?_, hb⟩
  rw [harg] at hc
  show (Config.prims.fns.montReduce (BitVec.ofInt 32 (x.toInt * 1353))).toInt % 3329 = _
  omega

end Sys2Proof.Machine
end

