-- ==== Sys2Proof/Laws/Exec.lean ====
section
/-! SUPPORT. Everything a command and a step can do: one inversion lemma for `exec`, one for a command word and one for `step`,
which later proofs cite instead of unfolding the meanings. -/

namespace Sys2Proof.Machine

variable {s t : State}

/-! The lengths of what the storing commands store. -/

theorem length_packPoly (w : Nat) (f : Coeff → Nat) (p : KPoly) : (packPoly w f p).length = 32 * w := by
  rw [packPoly, length_pack, List.length_map, Vector.length_toList]; omega

@[simp] theorem length_serialize (p : KPoly) : (serialize p).length = 384 := length_packPoly ..
@[simp] theorem length_messageBytes (p : KPoly) : (messageBytes p).length = 32 := length_packPoly ..
@[simp] theorem length_compressPoly (d : Nat) (p : KPoly) : (compressPoly d p).length = 32 * d := length_packPoly ..

/-- D bits for 256 coefficients fit CBYTES bytes, exactly when CBYTES is supported. -/
theorem compressBits_le (c : Params) : 32 * c.compressBits ≤ c.cbytes := by
  rw [Params.compressBits]; omega

theorem compressBits_eq {c : Params} (h : c.supported = true) : 32 * c.compressBits = c.cbytes := by
  simp only [Params.supported, Bool.or_eq_true, beq_iff_eq] at h
  rw [Params.compressBits]; omega

/-! The fault a check can meet. -/

/-- The fault of a check phase names a cause a command can raise, and an index in its range on a machine with legal
parameters and a supported width (60_exceptions.md R197, R202). -/
def CheckFault (c : Params) (f : FaultRecord) : Prop :=
  f.cause ≠ .noFault ∧ f.cause ≠ .config ∧ (c.legal = true → c.supported = true → fidxInRange f.cause f.fidx)

theorem checkFault_illegal (c : Params) : CheckFault c illegalFault := ⟨by decide, by decide, fun _ _ => rfl⟩

theorem checkRange_fault {addr n : Nat} {f : FaultRecord} (h : checkRange s addr n = .error f) :
    CheckFault s.params f := by
  rw [checkRange] at h
  split at h <;> cases h
  exact ⟨nofun, nofun, fun _ _ => rfl⟩

theorem checkRange_eq_ok {addr n : Nat} {u : Unit} (h : checkRange s addr n = .ok u) : addr + n ≤ s.params.bmemSize := by
  rw [checkRange] at h
  split at h
  · assumption
  · cases h

theorem readReg_fault {r : Reg} {f : FaultRecord} (h : readReg s r = .error f) : CheckFault s.params f := by
  rw [readReg] at h
  split at h <;> cases h
  refine ⟨nofun, nofun, fun _ _ => ?_⟩
  have := r.isLt
  simp [fidxInRange, BitVec.toNat_setWidth]; omega

theorem readReg_eq_ok {r : Reg} {p : KPoly} (h : readReg s r = .ok p) : s.isValid r = true ∧ p = s.poly r := by
  rw [readReg] at h
  split at h
  · cases h; exact ⟨‹_›, rfl⟩
  · cases h

theorem checkLanes_fault {c : Params} {good : List Bool} {f : FaultRecord} (hl : good.length = 256)
    (h : checkLanes good = .error f) : CheckFault c f := by
  rcases checkLanes_cases good with ⟨e, _⟩ | ⟨i, hi, _, _, e⟩
  · rw [e] at h; cases h
  · rw [e] at h; cases h
    refine ⟨nofun, nofun, fun _ _ => ?_⟩
    simp [fidxInRange]; omega

theorem memRead_fault {addr n : Nat} {f : FaultRecord} (h : memRead s addr n = .error f)
    (hn : s.params.legal = true → s.params.supported = true → n ≤ 384) : CheckFault s.params f := by
  rw [memRead] at h
  split at h
  · split at h
    · rename_i k hk
      cases h
      refine ⟨nofun, nofun, fun h1 h2 => ?_⟩
      have := (firstUnwritten_some hk).1
      have := hn h1 h2
      simp [fidxInRange]; omega
    · cases h
  · cases h
    exact ⟨nofun, nofun, fun _ _ => rfl⟩

/-- A check followed by more of the check phase ends in a fault of the first or of the rest. -/
theorem bind_fault {α : Type} {x : Check α} {k : α → Check State} {P : FaultRecord → Prop}
    (hx : ∀ f, x = .error f → P f) (hk : ∀ a f, x = .ok a → k a = .error f → P f) :
    ∀ f, (x >>= k) = .error f → P f := by
  intro f h
  cases x with
  | error e => cases h; exact hx _ rfl
  | ok a => exact hk a f rfl h

/-- A check phase that passes passed its first check and the rest. -/
theorem bind_ok {α : Type} {x : Check α} {k : α → Check State} (h : (x >>= k) = .ok t) : ∃ a, x = .ok a ∧ k a = .ok t := by
  cases x with
  | error e => cases h
  | ok a => exact ⟨a, rfl, h⟩

/-! What a command can do. -/

/-- The four ways a command ends: nothing changed, one whole register written, a byte range of BMEM written, or a fault
entered. -/
def ExecResult (i : Instr) (s t : State) : Prop :=
  t = s ∨
  (∃ rd v, rd.toNat < s.params.npoly ∧ t = s.writeReg rd v) ∨
  (∃ a bs, a + bs.length ≤ s.params.bmemSize ∧ t = s.memWrite a bs) ∨
  (∃ f, CheckFault s.params f ∧ t = s.enterFault f (encode i))

/-- A command is its check phase: what it commits and which faults the check phase meets give what it can do. -/
theorem conclude_result {i : Instr} {c : Check State} (h : conclude i s c = .next t)
    (hok : i.wellFormed s.params.npoly = true → c = .ok t → ExecResult i s t)
    (hf : ∀ f, c = .error f → CheckFault s.params f) : ExecResult i s t := by
  rcases conclude_next h with ⟨hw, hc⟩ | ⟨f, _, hc, ht⟩ | ⟨_, ht⟩
  · exact hok hw hc
  · exact .inr (.inr (.inr ⟨f, hf f hc, ht⟩))
  · exact .inr (.inr (.inr ⟨illegalFault, checkFault_illegal _, ht⟩))

theorem wellFormed_reg {i : Instr} {n : Nat} (h : i.wellFormed n = true) {r : Reg} (hr : r ∈ i.regs) : r.toNat < n := by
  have := List.all_eq_true.mp h r hr
  simpa using this

theorem legal_symbytes {c : Params} (h : c.legal = true) : c.symbytes ≤ 384 := by
  simp [Params.legal] at h; omega

theorem supported_cbytes {c : Params} (h : c.supported = true) : c.cbytes ≤ 384 := by
  simp [Params.supported] at h; omega

/-- Every command answers a next state (60_exceptions.md R204). -/
theorem conclude_total (i : Instr) (s : State) (c : Check State) : ∃ t, conclude i s c = .next t := by
  unfold conclude
  split
  · split <;> exact ⟨_, rfl⟩
  · exact ⟨_, rfl⟩

/-- What a command that reads BMEM and writes a register can do. -/
theorem reader_result {i : Instr} {rd : Reg} {addr n : Nat} {g : List Byte → KPoly}
    (h : conclude i s (memRead s addr n >>= fun b => .ok (s.writeReg rd (g b))) = .next t) (hr : rd ∈ i.regs)
    (hn : s.params.legal = true → s.params.supported = true → n ≤ 384) : ExecResult i s t := by
  refine conclude_result h (fun hw hc => ?_) (bind_fault (fun f hf => memRead_fault hf hn) nofun)
  obtain ⟨b, _, hb⟩ := bind_ok hc
  cases hb
  exact .inr (.inl ⟨rd, _, wellFormed_reg hw hr, rfl⟩)

/-- What a command that reads a register and writes BMEM can do. -/
theorem writer_result {i : Instr} {rs : Reg} {addr n : Nat} {ok : Int → Bool} {g : KPoly → List Byte}
    (h : conclude i s (checkRange s addr n >>= fun _ => readReg s rs >>= fun x =>
      checkLanes (goodLanes ok x) >>= fun _ => .ok (s.memWrite addr (g x))) = .next t)
    (hg : ∀ x, (g x).length ≤ n) : ExecResult i s t := by
  refine conclude_result h (fun _ hc => ?_) (bind_fault (fun f hf => checkRange_fault hf) fun _ f _ =>
    bind_fault (fun f hf => readReg_fault hf) (fun x f _ =>
      bind_fault (fun f hf => checkLanes_fault (by simp) hf) (fun _ _ _ e => by cases e) f) f)
  obtain ⟨_, h1, hc⟩ := bind_ok hc
  obtain ⟨x, _, hc⟩ := bind_ok hc
  obtain ⟨_, _, hc⟩ := bind_ok hc
  cases hc
  have := checkRange_eq_ok h1
  have := hg x
  exact .inr (.inr (.inl ⟨addr, g x, by omega, rfl⟩))

/-- What a command on one register, with a domain check, can do. -/
theorem unary_result {i : Instr} {rd : Reg} {ok : Int → Bool} {g : KPoly → KPoly}
    (h : conclude i s (readReg s rd >>= fun x => checkLanes (goodLanes ok x) >>= fun _ => .ok (s.writeReg rd (g x))) =
      .next t) (hr : rd ∈ i.regs) : ExecResult i s t := by
  refine conclude_result h (fun hw hc => ?_) (bind_fault (fun f hf => readReg_fault hf) (fun x f _ =>
      bind_fault (fun f hf => checkLanes_fault (by simp) hf) (fun _ _ _ e => by cases e) f))
  obtain ⟨x, _, hc⟩ := bind_ok hc
  obtain ⟨_, _, hc⟩ := bind_ok hc
  cases hc
  exact .inr (.inl ⟨rd, _, wellFormed_reg hw hr, rfl⟩)

/-- What a command on one register, with no domain check, can do. -/
theorem total_unary_result {i : Instr} {rd : Reg} {g : KPoly → KPoly}
    (h : conclude i s (readReg s rd >>= fun x => .ok (s.writeReg rd (g x))) = .next t) (hr : rd ∈ i.regs) :
    ExecResult i s t := by
  refine conclude_result h (fun hw hc => ?_) (bind_fault (fun f hf => readReg_fault hf) nofun)
  obtain ⟨x, _, hc⟩ := bind_ok hc
  cases hc
  exact .inr (.inl ⟨rd, _, wellFormed_reg hw hr, rfl⟩)

/-- What a command on two registers can do. -/
theorem binary_result {i : Instr} {rd r1 r2 : Reg} {good : KPoly → KPoly → List Bool} {g : KPoly → KPoly → KPoly}
    (h : conclude i s (readReg s r1 >>= fun a => readReg s r2 >>= fun b => checkLanes (good a b) >>= fun _ =>
      .ok (s.writeReg rd (g a b))) = .next t) (hr : rd ∈ i.regs) (hl : ∀ a b, (good a b).length = 256) :
    ExecResult i s t := by
  refine conclude_result h (fun hw hc => ?_) (bind_fault (fun f hf => readReg_fault hf) (fun a f _ =>
      bind_fault (fun f hf => readReg_fault hf) (fun b f _ =>
        bind_fault (fun f hf => checkLanes_fault (hl a b) hf) (fun _ _ _ e => by cases e) f) f))
  obtain ⟨a, _, hc⟩ := bind_ok hc
  obtain ⟨b, _, hc⟩ := bind_ok hc
  obtain ⟨_, _, hc⟩ := bind_ok hc
  cases hc
  exact .inr (.inl ⟨rd, _, wellFormed_reg hw hr, rfl⟩)

/-- Everything a command can do, whatever the command and the state. -/
theorem exec_result {i : Instr} (h : exec i s = .next t) : ExecResult i s t := by
  cases i with
  | nop =>
    refine conclude_result (c := .ok s) h (fun _ hc => ?_) (fun _ e => nomatch e)
    cases hc; exact .inl rfl
  | pzero rd =>
    refine conclude_result (c := .ok (s.writeReg rd KPoly.zero)) h (fun hw hc => ?_) (fun _ e => nomatch e)
    cases hc; exact .inr (.inl ⟨rd, _, wellFormed_reg hw (by simp [Instr.regs]), rfl⟩)
  | tobytes rs1 addr => exact writer_result h (fun x => by simp)
  | frombytes rd addr => exact reader_result h (by simp [Instr.regs]) (fun _ _ => by decide)
  | compress rs1 addr => exact writer_result h (fun x => by simpa using compressBits_le s.params)
  | decompress rd addr => exact reader_result h (by simp [Instr.regs]) (fun _ hs => supported_cbytes hs)
  | getnoise1 rd addr nonce =>
    exact reader_result (g := fun b => noisePoly _ _ b _) h (by simp [Instr.regs]) (fun hl _ => legal_symbytes hl)
  | getnoise2 rd addr nonce =>
    exact reader_result (g := fun b => noisePoly _ _ b _) h (by simp [Instr.regs]) (fun hl _ => legal_symbytes hl)
  | ntt rd => exact unary_result (g := fun x => reducePoly (Config.prims.fns.nttPrim x)) h (by simp [Instr.regs])
  | invntt rd => exact unary_result (g := fun x => Config.prims.fns.invnttPrim x) h (by simp [Instr.regs])
  | basemul rd rs1 rs2 => exact binary_result h (by simp [Instr.regs]) (by simp)
  | tomont rd => exact total_unary_result h (by simp [Instr.regs])
  | add rd rs1 => exact binary_result h (by simp [Instr.regs]) (by simp)
  | sub rd rs1 => exact binary_result h (by simp [Instr.regs]) (by simp)
  | reduce rd => exact total_unary_result h (by simp [Instr.regs])
  | frommsg rd addr => exact reader_result h (by simp [Instr.regs]) (fun _ _ => by decide)
  | tomsg rs1 addr => exact writer_result h (fun x => by simp)

/-- No command touches the parameters, pc or the host's side. -/
theorem exec_sameRest {i : Instr} (h : exec i s = .next t) : s.SameRest t := by
  rcases exec_result h with rfl | ⟨rd, v, _, rfl⟩ | ⟨a, bs, _, rfl⟩ | ⟨f, _, rfl⟩ <;> exact ⟨rfl, rfl, rfl, rfl, rfl⟩

/-! What a step can do. -/

/-- Everything a CMD write can do: pc advances on the halted machine, on the result of the decoded command, or on the entry
of ILLEGAL. -/
theorem issue_cases {w : Word} (h : issue w s = .next t) :
    (s.status.halted = true ∧ t = { s with pc := s.pc + 1 }) ∨
    (s.status.halted = false ∧ ∃ i u, decode s.params.npoly w = some i ∧ exec i s = .next u ∧
      t = { u with pc := u.pc + 1 }) ∨
    (s.status.halted = false ∧ decode s.params.npoly w = none ∧
      t = { s.enterFault illegalFault w with pc := s.pc + 1 }) := by
  unfold issue at h
  split at h
  · rename_i hh; unfold advancePc at h; cases h; exact .inl ⟨hh, rfl⟩
  · rename_i hh
    rw [Bool.not_eq_true] at hh
    unfold runWord at h
    split at h
    · rename_i i hd
      cases e : exec i s with
      | next u => rw [e] at h; cases h; exact .inr (.inl ⟨hh, i, u, hd, e, rfl⟩)
      | fault r => rw [e] at h; cases h
      | refused r => rw [e] at h; cases h
    · rename_i hd; cases h; exact .inr (.inr ⟨hh, hd, rfl⟩)

/-- A host write outside the registers changes only bytes of BMEM that exist. -/
theorem storeWindow_cases (size offset : Nat) (w : Word) (s : State) :
    storeWindow size offset w s = s ∨
      ∃ bs, offset - 0x1000 + bs.length ≤ s.params.bmemSize ∧
        storeWindow size offset w s = s.memWrite (offset - 0x1000) bs := by
  rw [storeWindow]
  split
  · rename_i hin
    simp only [inBmemWindow, Bool.and_eq_true, decide_eq_true_eq] at hin
    exact .inr ⟨_, by rw [List.length_take]; omega, rfl⟩
  · exact .inl rfl

/-- Everything a step can do: nothing (no host action left, or one that waits), or the host's next action `op` on the state
past it: a reset, a read, a CMD write, a write to BMEM, or a write that is ignored. -/
theorem step_cases (h : step s = .next t) :
    (t = s ∧ (s.host = [] ∨ s.status.busy = true)) ∨ ∃ op rest, s.host = op :: rest ∧
      let u : State := { s with host := rest }
      (op = .reset ∧ t = u.hostReset) ∨
      (∃ size offset v, op = .read size offset ∧ t = { u with replies := v :: s.replies }) ∨
      (∃ w, op = .write 4 0 w ∧ issue w u = .next t) ∨
      (∃ size offset w, op = .write size offset w ∧ offset ≠ 0 ∧
        (t = u ∨ ∃ a bs, a + bs.length ≤ s.params.bmemSize ∧ t = u.memWrite a bs)) := by
  unfold step hostAccess at h
  split at h
  · rename_i hh; cases h; exact .inl ⟨rfl, .inl hh⟩
  · rename_i op rest hh
    split at h
    · rename_i hb; cases h; exact .inl ⟨rfl, .inr (Bool.and_eq_true_iff.mp hb).1⟩
    · refine .inr ⟨op, rest, hh, ?_⟩
      cases op with
      | reset => cases h; exact .inl ⟨rfl, rfl⟩
      | read size offset =>
        unfold perform at h
        dsimp only at h
        split at h
        · split at h
          · cases h; exact .inr (.inl ⟨size, offset, _, rfl, rfl⟩)
          · cases h
        · cases h
      | write size offset w =>
        unfold perform at h
        dsimp only at h
        split at h
        · split at h
          · rename_i hf
            unfold writeAccess at h
            split at h
            · rename_i h0; subst h0
              have : size = 4 := by simp [supportedForm] at hf; exact hf
              subst this
              exact .inr (.inr (.inl ⟨w, rfl, h⟩))
            · rename_i h0
              refine .inr (.inr (.inr ⟨size, offset, w, rfl, h0, ?_⟩))
              split at h
              · cases h; exact .inl rfl
              · cases h
                rcases storeWindow_cases size offset w { s with host := rest } with e | ⟨bs, hb, e⟩
                · exact .inl e
                · exact .inr ⟨_, bs, hb, e⟩
          · cases h
        · cases h

end Sys2Proof.Machine
end

