-- ==== Sys2Proof/Laws/PerInstr.lean ====
section
/-! SUPPORT. Statements made for all instructions, one lemma a constructor: the word of a command matches the mask and the match
value of its format (30_encoding.md R66), so the decoder's format check lets it through. -/

namespace Sys2Proof.Laws.EncodingMatch

/-- 30_encoding.md R66: (word & mask) = opcode, and the opcode field and its format are the command's own. -/
def Statement (i : Instr) : Prop :=
  encode i &&& i.format.mask = i.opcode.setWidth 32 ∧ opcodeField (encode i) = i.opcode ∧
    formatOf i.opcode.toNat = some i.format

/-! The opcode field of a packed word, and its masked value for each format. -/

theorem opcodeField_packWord (a : Addr) (rs2 rs1 rd : Reg) (op : BitVec 8) : opcodeField (packWord a rs2 rs1 rd op) = op := by
  apply BitVec.eq_of_getLsbD_eq
  intro i hi
  show ((a ++ rs2 ++ rs1 ++ rd ++ op : BitVec (12 + 4 + 4 + 4 + 8)).extractLsb' 0 8).getLsbD i = _
  simp only [BitVec.getLsbD_extractLsb', BitVec.getLsbD_append]
  simp [hi]

theorem opcodeField_packNonceWord (a : Addr) (n : Byte) (rd : Reg) (op : BitVec 8) :
    opcodeField (packNonceWord a n rd op) = op := by
  apply BitVec.eq_of_getLsbD_eq
  intro i hi
  show ((a ++ n ++ rd ++ op : BitVec (12 + 8 + 4 + 8)).extractLsb' 0 8).getLsbD i = _
  simp only [BitVec.getLsbD_extractLsb', BitVec.getLsbD_append]
  simp [hi]

theorem mask_D (rd : Reg) (op : BitVec 8) : packWord 0 0 0 rd op &&& Format.D.mask = op.setWidth 32 := by
  unfold packWord Format.mask
  ext i hi
  simp only [BitVec.getElem_and, BitVec.getElem_append, BitVec.getElem_setWidth]
  interval_cases i <;> simp

theorem mask_R2 (rs1 rd : Reg) (op : BitVec 8) : packWord 0 0 rs1 rd op &&& Format.R2.mask = op.setWidth 32 := by
  unfold packWord Format.mask
  ext i hi
  simp only [BitVec.getElem_and, BitVec.getElem_append, BitVec.getElem_setWidth]
  interval_cases i <;> simp

theorem mask_R3 (rs2 rs1 rd : Reg) (op : BitVec 8) : packWord 0 rs2 rs1 rd op &&& Format.R3.mask = op.setWidth 32 := by
  unfold packWord Format.mask
  ext i hi
  simp only [BitVec.getElem_and, BitVec.getElem_append, BitVec.getElem_setWidth]
  interval_cases i <;> simp

theorem mask_S (a : Addr) (rs1 : Reg) (op : BitVec 8) : packWord a 0 rs1 0 op &&& Format.S.mask = op.setWidth 32 := by
  unfold packWord Format.mask
  ext i hi
  simp only [BitVec.getElem_and, BitVec.getElem_append, BitVec.getElem_setWidth]
  interval_cases i <;> simp

theorem mask_L (a : Addr) (rd : Reg) (op : BitVec 8) : packWord a 0 0 rd op &&& Format.L.mask = op.setWidth 32 := by
  unfold packWord Format.mask
  ext i hi
  simp only [BitVec.getElem_and, BitVec.getElem_append, BitVec.getElem_setWidth]
  interval_cases i <;> simp

theorem mask_N (a : Addr) (n : Byte) (rd : Reg) (op : BitVec 8) : packNonceWord a n rd op &&& Format.N.mask = op.setWidth 32 := by
  unfold packNonceWord Format.mask
  ext i hi
  simp only [BitVec.getElem_and, BitVec.getElem_append, BitVec.getElem_setWidth]
  interval_cases i <;> simp

/-! The commands. -/

theorem nop : Statement .nop := ⟨by decide, by decide, rfl⟩
theorem pzero (rd : Reg) : Statement (.pzero rd) := ⟨mask_D rd _, opcodeField_packWord .., rfl⟩
theorem tobytes (rs1 : Reg) (addr : Addr) : Statement (.tobytes rs1 addr) := ⟨mask_S addr rs1 _, opcodeField_packWord .., rfl⟩
theorem frombytes (rd : Reg) (addr : Addr) : Statement (.frombytes rd addr) := ⟨mask_L addr rd _, opcodeField_packWord .., rfl⟩
theorem compress (rs1 : Reg) (addr : Addr) : Statement (.compress rs1 addr) := ⟨mask_S addr rs1 _, opcodeField_packWord .., rfl⟩
theorem decompress (rd : Reg) (addr : Addr) : Statement (.decompress rd addr) := ⟨mask_L addr rd _, opcodeField_packWord .., rfl⟩
theorem getnoise1 (rd : Reg) (addr : Addr) (nonce : Byte) : Statement (.getnoise1 rd addr nonce) := ⟨mask_N addr nonce rd _, opcodeField_packNonceWord .., rfl⟩
theorem getnoise2 (rd : Reg) (addr : Addr) (nonce : Byte) : Statement (.getnoise2 rd addr nonce) := ⟨mask_N addr nonce rd _, opcodeField_packNonceWord .., rfl⟩
theorem ntt (rd : Reg) : Statement (.ntt rd) := ⟨mask_D rd _, opcodeField_packWord .., rfl⟩
theorem invntt (rd : Reg) : Statement (.invntt rd) := ⟨mask_D rd _, opcodeField_packWord .., rfl⟩
theorem basemul (rd rs1 rs2 : Reg) : Statement (.basemul rd rs1 rs2) := ⟨mask_R3 rs2 rs1 rd _, opcodeField_packWord .., rfl⟩
theorem tomont (rd : Reg) : Statement (.tomont rd) := ⟨mask_D rd _, opcodeField_packWord .., rfl⟩
theorem add (rd rs1 : Reg) : Statement (.add rd rs1) := ⟨mask_R2 rs1 rd _, opcodeField_packWord .., rfl⟩
theorem sub (rd rs1 : Reg) : Statement (.sub rd rs1) := ⟨mask_R2 rs1 rd _, opcodeField_packWord .., rfl⟩
theorem reduce (rd : Reg) : Statement (.reduce rd) := ⟨mask_D rd _, opcodeField_packWord .., rfl⟩
theorem frommsg (rd : Reg) (addr : Addr) : Statement (.frommsg rd addr) := ⟨mask_L addr rd _, opcodeField_packWord .., rfl⟩
theorem tomsg (rs1 : Reg) (addr : Addr) : Statement (.tomsg rs1 addr) := ⟨mask_S addr rs1 _, opcodeField_packWord .., rfl⟩

end Sys2Proof.Laws.EncodingMatch
end

