-- ==== Sys2Proof/Laws/Run.lean ====
section
/-! SUPPORT. Runs: an invariant of the step is an invariant of a run, and what a safe run says of its states
(60_exceptions.md R195, 70_reset_and_hazards.md R230). -/

namespace Sys2Proof.Machine

variable {k : Nat} {s t : State}

/-- A run is one step and the rest of the run. -/
theorem core_run_succ (M : Host.Core) (k : Nat) (s t : M.State) :
    M.run (k + 1) s = .next t ↔ ∃ u, M.step s = .next u ∧ M.run k u = .next t := by
  rw [Host.Core.run]
  cases M.step s <;> simp

theorem run_succ : Sys2Proof.core.run (k + 1) s = .next t ↔ ∃ u, step s = .next u ∧ Sys2Proof.core.run k u = .next t :=
  core_run_succ Sys2Proof.core k s t

/-- What holds at the start and is kept by every step holds at the end of every run. -/
theorem run_invariant {P : State → Prop} (keep : ∀ s t, P s → step s = .next t → P t) (hs : P s)
    (h : Sys2Proof.core.run k s = .next t) : P t := by
  induction k generalizing s with
  | zero => cases h; exact hs
  | succ k ih =>
    obtain ⟨u, hu, hr⟩ := run_succ.mp h
    exact ih (keep s u hs hu) hr

/-- A safe run is a run. -/
theorem SafeRun.run (h : SafeRun k s t) : Sys2Proof.core.run k s = .next t := by
  induction k generalizing s with
  | zero => rw [h.2]; rfl
  | succ k ih =>
    obtain ⟨_, u, hu, hr⟩ := h
    exact run_succ.mpr ⟨u, hu, ih hr⟩

/-- A safe run starts free of a fault. -/
theorem SafeRun.start (h : SafeRun k s t) : s.faultFree := by
  cases k with
  | zero => exact h.1
  | succ k => exact h.1

/-- A safe run ends free of a fault. -/
theorem SafeRun.finish (h : SafeRun k s t) : t.faultFree := by
  induction k generalizing s with
  | zero => rw [h.2]; exact h.1
  | succ k ih =>
    obtain ⟨_, u, _, hr⟩ := h
    exact ih hr

/-- Two safe runs one after the other are a safe run, so no safe run passes through a state with a fault. -/
theorem safeRun_append {j : Nat} : SafeRun (j + k) s t ↔ ∃ u, SafeRun j s u ∧ SafeRun k u t := by
  induction j generalizing s with
  | zero =>
    rw [Nat.zero_add]
    exact ⟨fun h => ⟨s, ⟨h.start, rfl⟩, h⟩, fun ⟨u, hu, h⟩ => by rw [← hu.2]; exact h⟩
  | succ j ih =>
    rw [Nat.succ_add]
    constructor
    · rintro ⟨hs, v, hv, h⟩
      obtain ⟨u, h1, h2⟩ := ih.mp h
      exact ⟨u, ⟨hs, v, hv, h1⟩, h2⟩
    · rintro ⟨u, ⟨hs, v, hv, h1⟩, h2⟩
      exact ⟨hs, v, hv, ih.mpr ⟨u, h1, h2⟩⟩

end Sys2Proof.Machine
end

