-- ==== Sys2Proof/Machine/Assembler.lean ====
section
/-! DEFINITION. The assembly syntax of 30_encoding.md R69 and the pseudo-instructions of R70: a line of text to the commands it
stands for, refused (none) where an operand is out of its range. No step reads it; a host program is made of its words. -/

namespace Sys2Proof.Machine

/-- A line is a list of characters, so that the kernel can evaluate the assembler. -/
abbrev Text := List Char

def isBlank (c : Char) : Bool := c == ' ' || c == '\t'

/-- The text without the blanks around it. -/
def trim (l : Text) : Text := ((l.dropWhile isBlank).reverse.dropWhile isBlank).reverse

/-- The line without its comment, which `;` starts (R69). -/
def stripComment (l : Text) : Text := l.takeWhile (· != ';')

/-- The parts between commas. -/
def splitCommas : Text → List Text
  | [] => [[]]
  | c :: l =>
    if c == ',' then [] :: splitCommas l
    else
      match splitCommas l with
      | [] => [[c]]
      | part :: parts => (c :: part) :: parts

/-- The value of a digit in a base of at most 16. -/
def digitValue (base : Nat) (c : Char) : Option Nat :=
  let n := c.toNat
  let v := if 48 ≤ n ∧ n ≤ 57 then n - 48 else if 97 ≤ n ∧ n ≤ 102 then n - 87 else if 65 ≤ n ∧ n ≤ 70 then n - 55 else 16
  if v < base then some v else none

/-- The number of a list of digits, from the value read so far. -/
def numberFrom (base : Nat) : Nat → Text → Option Nat
  | acc, [] => some acc
  | acc, c :: l =>
    match digitValue base c with
    | some d => numberFrom base (base * acc + d) l
    | none => none

/-- One digit or more. -/
def digits (base : Nat) (l : Text) : Option Nat := if l.isEmpty then none else numberFrom base 0 l

/-- An integer in decimal or in `0x` hexadecimal (R69). -/
def parseNumber (l : Text) : Option Nat :=
  match l with
  | '0' :: 'x' :: l => digits 16 l
  | l => digits 10 l

/-- A number below `bound`. -/
def parseBelow (bound : Nat) (l : Text) : Option Nat :=
  match parseNumber l with
  | some n => if n < bound then some n else none
  | none => none

/-- p0 .. p15, written with no leading zero (R69; DESIGN CHOICE, log entry 18). -/
def parseReg (l : Text) : Option Reg :=
  match l with
  | ['p', c] => (digits 10 [c]).map (BitVec.ofNat 4)
  | ['p', '1', c] =>
    match digits 10 [c] with
    | some n => if n < 6 then some (BitVec.ofNat 4 (10 + n)) else none
    | none => none
  | _ => none

/-- addr, an integer 0 .. 4095 (R69). -/
def parseAddr (l : Text) : Option Addr := (parseBelow 4096 l).map (BitVec.ofNat 12)

/-- nonce, an integer 0 .. 255 (R69). -/
def parseNonce (l : Text) : Option Byte := (parseBelow 256 l).map (BitVec.ofNat 8)

/-- The forms with one register operand. -/
def oneReg (m : Text) (p : Reg) : Option (List Instr) :=
  if m = "pzero".toList then some [.pzero p]
  else if m = "pclr".toList then some (Pseudo.pclr p).expand
  else if m = "ntt".toList then some [.ntt p]
  else if m = "invntt".toList then some [.invntt p]
  else if m = "tomont".toList then some [.tomont p]
  else if m = "reduce".toList then some [.reduce p]
  else none

/-- A pseudo-instruction whose side condition holds (R70). -/
def expandChecked (q : Pseudo) : Option (List Instr) := if q.wellFormed then some q.expand else none

/-- The forms with two register operands: pd is rd, ps is rs1 (R69). -/
def twoRegs (m : Text) (pd ps : Reg) : Option (List Instr) :=
  if m = "add".toList then some [.add pd ps]
  else if m = "sub".toList then some [.sub pd ps]
  else if m = "pmov".toList then expandChecked (.pmov pd ps)
  else if m = "pneg".toList then expandChecked (.pneg pd ps)
  else none

/-- The forms with a register and an address. -/
def regAddr (m : Text) (p : Reg) (addr : Addr) : Option (List Instr) :=
  if m = "tobytes".toList then some [.tobytes p addr]
  else if m = "frombytes".toList then some [.frombytes p addr]
  else if m = "compress".toList then some [.compress p addr]
  else if m = "decompress".toList then some [.decompress p addr]
  else if m = "frommsg".toList then some [.frommsg p addr]
  else if m = "tomsg".toList then some [.tomsg p addr]
  else none

/-- The forms of R69 by their number of operands. -/
def assembleForm (m : Text) (ops : List Text) : Option (List Instr) :=
  match ops with
  | [] => if m = "nop".toList then some [.nop] else none
  | [a] =>
    match parseReg a with
    | some p => oneReg m p
    | none => none
  | [a, b] =>
    match parseReg a, parseReg b, parseAddr b with
    | some p, some q, _ => twoRegs m p q
    | some p, none, some addr => regAddr m p addr
    | _, _, _ => none
  | [a, b, c] =>
    match parseReg a, parseReg b, parseReg c, parseAddr b, parseNonce c with
    | some p, some q, some r, _, _ => if m = "basemul".toList then some [.basemul p q r] else none
    | some p, _, _, some addr, some nonce =>
      if m = "getnoise1".toList then some [.getnoise1 p addr nonce]
      else if m = "getnoise2".toList then some [.getnoise2 p addr nonce]
      else none
    | _, _, _, _, _ => none
  | _ => none

/-- The commands of one line, none where the line is refused; an empty line stands for no command (R69). -/
def assembleLine (line : Text) : Option (List Instr) :=
  let l := trim (stripComment line)
  if l.isEmpty then some []
  else
    let operands := trim (l.dropWhile (fun c => !isBlank c))
    assembleForm ((l.takeWhile (fun c => !isBlank c)).map Char.toLower)
      (if operands.isEmpty then [] else (splitCommas operands).map trim)

/-- The command words of one line (R62, R69). -/
def assembleWords (line : Text) : Option (List Word) := (assembleLine line).map fun is => is.map encode

end Sys2Proof.Machine
end

