-- ==== Sys2Proof/Tests/Slice0.lean ====
section
/-! SUPPORT. Tests and witnesses. The expected results are those of the spec's own vectors (95_test_vectors.md, 30_encoding.md
R71, the Example lines of 41-47), cited at each test. -/

namespace Sys2Proof.Tests

set_option Elab.async false

open Sys2Proof.Machine Sys2Proof.Claims

/-! Helpers: small states, and what an outcome must satisfy. -/

/-- A register with the listed coefficients, the rest 0. -/
def regOf (l : List Int) : KPoly := KPoly.ofLanes fun i => BitVec.ofInt 16 (l.getD i 0)

/-- The first n coefficients. -/
def lanes (n : Nat) (p : KPoly) : List Int := (List.range n).map p.lane

/-- Every coefficient from index n up is 0. -/
def zeroFrom (n : Nat) (p : KPoly) : Bool := (p.toList.drop n).all (· == 0)

/-- `bytes` at address a, followed by `n` zero bytes. -/
def withBytes (s : State) (a : Nat) (bytes : List Byte) (n : Nat) : State :=
  s.memWrite a (bytes ++ List.replicate n 0)

/-- The first n bytes from address a. -/
def peek (s : State) (a n : Nat) : List (Option Byte) := (List.range n).map fun k => s.bmem.read (a + k)

/-- The n bytes from address a are written and 0. -/
def zeros (s : State) (a n : Nat) : Bool := (List.range n).all fun k => s.bmem.read (a + k) == some 0

/-- The outcome is a next state that satisfies p. -/
def ends (o : Host.Outcome State Fault Refusal) (p : State → Bool) : Bool :=
  match o with
  | .next t => p t
  | .fault _ => false
  | .refused _ => false

/-- The reset state of the test configuration with another width, number of registers or memory size. -/
def wide : State := State.resetOf { Params.testVectors with cbytes := 160 }
def small : State := State.resetOf { Params.testVectors with npoly := 8, bmemSize := 512 }

/-! Well-formedness: one ill-formed term for each check (30_encoding.md R64, R70). -/

theorem test_wf_pzero : Instr.wellFormed 8 (.pzero 8) = false := by decide
theorem test_wf_tobytes : Instr.wellFormed 8 (.tobytes 8 0) = false := by decide
theorem test_wf_frombytes : Instr.wellFormed 8 (.frombytes 15 0) = false := by decide
theorem test_wf_compress : Instr.wellFormed 8 (.compress 9 0) = false := by decide
theorem test_wf_decompress : Instr.wellFormed 1 (.decompress 1 0) = false := by decide
theorem test_wf_getnoise : Instr.wellFormed 4 (.getnoise1 4 0 0) = false ∧ Instr.wellFormed 4 (.getnoise2 4 0 0) = false := by
  decide
theorem test_wf_transforms : Instr.wellFormed 2 (.ntt 2) = false ∧ Instr.wellFormed 2 (.invntt 2) = false ∧
    Instr.wellFormed 2 (.tomont 2) = false ∧ Instr.wellFormed 2 (.reduce 2) = false := by decide
theorem test_wf_basemul : Instr.wellFormed 8 (.basemul 8 1 2) = false ∧ Instr.wellFormed 8 (.basemul 1 8 2) = false ∧
    Instr.wellFormed 8 (.basemul 1 2 8) = false := by decide
theorem test_wf_add : Instr.wellFormed 8 (.add 8 1) = false ∧ Instr.wellFormed 8 (.add 1 8) = false := by decide
theorem test_wf_sub : Instr.wellFormed 8 (.sub 8 1) = false ∧ Instr.wellFormed 8 (.sub 1 8) = false := by decide
theorem test_wf_message : Instr.wellFormed 8 (.frommsg 8 0) = false ∧ Instr.wellFormed 8 (.tomsg 8 0) = false := by decide
theorem test_wf_pseudo : (Pseudo.pmov 3 3).wellFormed = false ∧ (Pseudo.pneg 3 3).wellFormed = false := by decide

/-! Decoding: a word written out from the fields of 30_encoding.md R61 and R62 for every command, and the rejects of
95_test_vectors.md 2.1. -/

theorem test_decode_nop : decode 16 0b00000000000000000000000000000000#32 = some .nop := by decide
theorem test_decode_pzero : decode 16 0b00000000000000000000010100000001#32 = some (.pzero 5) := by decide
theorem test_decode_tobytes : decode 16 0b00010000000000000011000000000010#32 = some (.tobytes 3 0x100) := by decide
theorem test_decode_frombytes : decode 16 0b00000000000000000000000100000011#32 = some (.frombytes 1 0) := by decide
theorem test_decode_compress : decode 16 0b00100000000000000010000000000100#32 = some (.compress 2 0x200) := by decide
theorem test_decode_decompress : decode 16 0b00100000000000000000001100000101#32 = some (.decompress 3 0x200) := by decide
theorem test_decode_getnoise1 : decode 16 0b11111111111100001010000100000110#32 = some (.getnoise1 1 0xFFF 0x0A) := by decide
theorem test_decode_getnoise2 : decode 16 0b00000010000010100101010000000111#32 = some (.getnoise2 4 0x020 0xA5) := by decide
theorem test_decode_ntt : decode 16 0b00000000000000000000011000001000#32 = some (.ntt 6) := by decide
theorem test_decode_invntt : decode 16 0b00000000000000000000011000001001#32 = some (.invntt 6) := by decide
theorem test_decode_basemul : decode 16 0b00000000000010011000011100001010#32 = some (.basemul 7 8 9) := by decide
theorem test_decode_tomont : decode 16 0b00000000000000000000011100001011#32 = some (.tomont 7) := by decide
theorem test_decode_add : decode 16 0b00000000000000000010000100001100#32 = some (.add 1 2) := by decide
theorem test_decode_sub : decode 16 0b00000000000000000010000100001101#32 = some (.sub 1 2) := by decide
theorem test_decode_reduce : decode 16 0b00000000000000000000000100001110#32 = some (.reduce 1) := by decide
theorem test_decode_frommsg : decode 16 0b00011000000000000000000000001111#32 = some (.frommsg 0 0x180) := by decide
theorem test_decode_tomsg : decode 16 0b00011010000000000000000000010000#32 = some (.tomsg 0 0x1A0) := by decide

theorem test_decode_rejects : decode 16 0x00000100#32 = none ∧ decode 16 0x00000011#32 = none ∧
    decode 16 0x000000FF#32 = none ∧ decode 16 0x00001001#32 = none ∧ decode 16 0x000F0001#32 = none ∧
    decode 16 0x0001010C#32 = none ∧ decode 8 0x00000801#32 = none ∧ decode 16 0x00000801#32 = some (.pzero 8) := by decide

theorem test_decode_table_word : decodeTableWord 32 0x0009870A = some (.basemul 7 8 9) := by decide

/-! The assembler (30_encoding.md R69-R71). -/

theorem test_assemble_worked_encodings :
    ["nop", "PZERO p5", "tobytes p3, 0x100", "frombytes p1, 0x000", "compress p2, 0x200", "decompress p3,512 ; half a page",
      "getnoise1 p4, 0x000, 7", "getnoise2 p4, 0x020, 0xA5", "basemul p7, p8, p9", "Add p1, p2", "tomsg p0, 0x1A0"].map
        (fun l => assembleWords l.toList) =
    [some [0x00000000], some [0x00000501], some [0x10003002], some [0x00000103], some [0x20002004], some [0x20000305],
      some [0x00007406], some [0x020A5407], some [0x0009870A], some [0x0000210C], some [0x1A000010]] := by decide +kernel

theorem test_assemble_refuses :
    ["pmov p2, p2", "pzero p16", "tomsg p0, 4096", "getnoise1 p0, 0, 256", "add p1", "wait"].map (fun l => assembleLine l.toList) =
    [none, none, none, none, none, none] ∧ assembleLine "pneg p1, p2".toList = some [.pzero 2, .sub 1 2] := by decide +kernel

/-! The commands. -/

/-- R100. -/
theorem test_nop : exec .nop State.reset = .next State.reset := by rfl

/-- R101 and 1.4: pzero p5. -/
theorem test_pzero : ends (exec (.pzero 5) State.reset) (fun t => (t.poly 5).allLanes (· == 0) && t.isValid 5 && !t.isValid 4) = true := by
  decide +kernel

/-- R110, 2.2: P3 = [−1, 1], tobytes p3, 0x100. -/
theorem test_tobytes : ends (exec (.tobytes 3 0x100) (State.reset.writeReg 3 (regOf [-1, 1])))
    (fun t => peek t 0x100 3 == [some 0x00, some 0x1D, some 0x00] && zeros t 0x103 3) = true := by
  decide +kernel

/-- 2.2: P3[0] = 3329 is outside the domain. -/
theorem test_tobytes_domain : ends (exec (.tobytes 3 0x100) (State.reset.writeReg 3 (regOf [3329])))
    (fun t => t.statusWord == 0x00000062 && t.bmem == []) = true := by decide +kernel

/-- R111, 2.2: BC 3A 12 and FF FF FF. -/
theorem test_frombytes :
    ends (exec (.frombytes 1 0) (withBytes State.reset 0 [0xBC, 0x3A, 0x12, 0xFF, 0xFF, 0xFF] 378))
      (fun t => lanes 5 (t.poly 1) == [2748, 291, 4095, 4095, 0]) = true := by decide +kernel

/-- 2.2: only BMEM[0..99] written. -/
theorem test_frombytes_unwritten : ends (exec (.frombytes 0 0) (withBytes State.reset 0 [] 100))
    (fun t => t.statusWord == 0x00006452 && t.fcmd == 0x00000003) = true := by decide +kernel

/-- R121 and 2.3, D = 4. -/
theorem test_compress4 : ends (exec (.compress 2 0x200) (State.reset.writeReg 2 (regOf [105, 3224, -104, -105])))
    (fun t => peek t 0x200 2 == [some 0xF1, some 0xF0] && zeros t 0x202 2) = true := by
  decide +kernel

/-- 1.2 and 2.3, D = 5: the values 1 .. 8 pack to 41 0C 52 CC 41. -/
theorem test_compress5 :
    ends (exec (.compress 2 0x200) (wide.writeReg 2 (regOf [104, 208, 312, 416, 520, 624, 728, 832])))
      (fun t => peek t 0x200 5 == [some 0x41, some 0x0C, some 0x52, some 0xCC, some 0x41] && zeros t 0x205 2) = true := by decide +kernel

/-- R122, D = 4. -/
theorem test_decompress4 : ends (exec (.decompress 3 0x200) (withBytes State.reset 0x200 [0xF1] 127))
    (fun t => lanes 3 (t.poly 3) == [208, 3121, 0]) = true := by decide +kernel

/-- 1.2 and 2.3, D = 5: 1F 7C F0 C1 07 unpacks to 31, 0, 31, 0, … -/
theorem test_decompress5 : ends (exec (.decompress 3 0x200) (withBytes wide 0x200 [0x1F, 0x7C, 0xF0, 0xC1, 0x07] 155))
    (fun t => lanes 9 (t.poly 3) == [3225, 0, 3225, 0, 3225, 0, 3225, 0, 0]) = true := by decide +kernel

/-- 2.4: a seed at 0xFE1 leaves BMEM. -/
theorem test_getnoise1_range : ends (exec (.getnoise1 4 0xFE1 0) State.reset) (fun t => t.statusWord == 0x00000032) = true := by
  decide +kernel

/-- 2.2 and R194 for a seed: UNINIT_MEM at the first unwritten byte. -/
theorem test_getnoise2_unwritten : ends (exec (.getnoise2 4 0x020 0xA5) (withBytes State.reset 0x020 [] 31))
    (fun t => t.statusWord == 0x00001F52 && t.fcmd == 0x020A5407) = true := by decide +kernel

/-- 2.5, default instance: ntt of 1 + X is 1 everywhere. -/
theorem test_ntt : ends (execNttWith referenceFns 1 (State.reset.writeReg 1 (regOf [1, 1])))
    (fun t => (t.poly 1).allLanes (· == 1)) = true := by decide +kernel

/-- 2.5: 6658 at index 3 is outside L. -/
theorem test_ntt_domain : ends (exec (.ntt 1) (State.reset.writeReg 1 (regOf [6657, -6657, 0, 6658])))
    (fun t => t.statusWord == 0x00000362) = true := by decide +kernel

/-- 2.5, default instance: invntt of [1, 0, 1, 0, …]. -/
theorem test_invntt :
    ends (execInvnttWith referenceFns 1 (State.reset.writeReg 1 (KPoly.ofLanes fun i => if i % 2 = 0 then 1 else 0)))
      (fun t => lanes 1 (t.poly 1) == [-1044] && zeroFrom 1 (t.poly 1)) = true := by decide +kernel

/-- 2.5, default instance: basemul of ntt(1) with itself, rd = rs1. -/
theorem test_basemul :
    ends (execBasemulWith referenceFns 1 1 1 (State.reset.writeReg 1 (KPoly.ofLanes fun i => if i % 2 = 0 then 1 else 0)))
      (fun t => lanes 4 (t.poly 1) == [169, 0, 169, 0]) = true := by
  decide +kernel

/-- 2.5, default instance: the TOMONT table. -/
theorem test_tomont :
    ends (execTomontWith referenceFns 7 (State.reset.writeReg 7 (regOf [1, -1, 2, 1665, 3328, -3329, 32767, -32768])))
      (fun t => lanes 9 (t.poly 7) == [-1044, 1044, 1241, -522, 1044, 0, 56, 988, 0]) = true := by
  decide +kernel

/-- R170, 2.6. -/
theorem test_add :
    ends (exec (.add 1 2) ((State.reset.writeReg 1 (regOf [1, 3328, -5])).writeReg 2 (regOf [2, 3328, 5])))
      (fun t => lanes 3 (t.poly 1) == [3, 6656, 0] && lanes 3 (t.poly 2) == [2, 3328, 5]) = true := by decide +kernel

/-- 2.6: all 32767 plus 1 at index 255. -/
theorem test_add_overflow :
    ends (exec (.add 0 1) ((State.reset.writeReg 0 (Vector.replicate 256 32767)).writeReg 1
        (KPoly.ofLanes fun i => if i = 255 then 1 else 0)))
      (fun t => t.statusWord == 0x0000FF62 && t.fcmd == 0x0000100C && lanes 2 (t.poly 0) == [32767, 32767]) = true := by
  decide +kernel

/-- R171, 2.6: P2 − P1. -/
theorem test_sub :
    ends (exec (.sub 1 2) ((State.reset.writeReg 1 (regOf [1, 0, 7])).writeReg 2 (regOf [3, 3328, 7])))
      (fun t => lanes 3 (t.poly 1) == [2, 3328, 0]) = true := by decide +kernel

/-- 2.6: sub p1, p1. -/
theorem test_sub_self : ends (exec (.sub 1 1) (State.reset.writeReg 1 (regOf [5, -32768, 32767])))
    (fun t => (t.poly 1).allLanes (· == 0)) = true := by decide +kernel

/-- R172, 2.6. -/
theorem test_reduce : ends (exec (.reduce 1) (State.reset.writeReg 1 (regOf [-1, 3329, 6656, -32768, 32767, 4095])))
    (fun t => lanes 7 (t.poly 1) == [3328, 0, 3327, 522, 2806, 766, 0]) = true := by decide +kernel

/-- R180, 2.7. -/
theorem test_frommsg : ends (exec (.frommsg 0 0x180) (withBytes State.reset 0x180 [0xA5] 31))
    (fun t => lanes 9 (t.poly 0) == [1665, 0, 1665, 0, 0, 1665, 0, 1665, 0]) = true := by decide +kernel

/-- R181, 2.7: the decision boundaries. -/
theorem test_tomsg :
    ends (exec (.tomsg 0 0x1A0) (State.reset.writeReg 0 (regOf [832, 833, 2496, 2497, 0, 3328, 1665, 1])))
      (fun t => peek t 0x1A0 1 == [some 0x46] && zeros t 0x1A1 2) = true := by decide +kernel

/-- 2.7: P0[0] = −1 is outside the domain. -/
theorem test_tomsg_domain : ends (exec (.tomsg 0 0x1A0) (State.reset.writeReg 0 (regOf [-1])))
    (fun t => t.statusWord == 0x00000062) = true := by decide +kernel

/-! Faults and their order (95_test_vectors.md 2.8), and the step. -/

theorem test_uninit_rd_first : ends (exec (.add 0 1) State.reset) (fun t => t.statusWord == 0x00000042) = true := by
  decide +kernel
theorem test_uninit_rs1 : ends (exec (.add 0 1) (State.reset.writeReg 0 KPoly.zero)) (fun t => t.statusWord == 0x00000142) = true := by
  decide +kernel
theorem test_range_before_uninit : ends (exec (.tobytes 0 0xF00) State.reset)
    (fun t => t.statusWord == 0x00000032 && t.fcmd == 0xF0000002) = true := by decide +kernel
theorem test_range_fits : ends (exec (.tobytes 0 0xE80) State.reset) (fun t => t.statusWord == 0x00000042) = true := by
  decide +kernel

/-- 2.1: an ILLEGAL word issued first after reset. -/
theorem test_step_illegal : ends (step (State.reset.withFetchWord 32 0x00001001))
    (fun t => t.statusWord == 0x00000022 && t.fcmd == 0x00001001 && t.pc == 1) = true := by decide +kernel

/-- 2.8: reset with CBYTES = 192, then pzero p0: ignored, pc = 1. -/
theorem test_config : ends (step ((State.resetOf { Params.testVectors with cbytes := 192 }).withFetchWord 32 1))
    (fun t => t.statusWord == 0x00000012 && t.fcmd == 0 && !t.isValid 0 && t.pc == 1) = true := by decide +kernel

/-- The very next step after withFetchWord runs the word. -/
theorem test_step_runs : ends (step (State.reset.withFetchWord 32 0x00000501)) (fun t => t.isValid 5 && t.pc == 1) = true := by
  decide +kernel

/-- R27, R28: the words of the test configuration. -/
theorem test_config_words : State.reset.configWord = 0x10220080 ∧ State.reset.config2Word = 0x00201000 := by decide +kernel

theorem test_reset_memory_form : State.reset.bmem.wf := by decide

end Sys2Proof.Tests
end

