-- ==== Sys2Proof/Tests/Witnesses.lean ====
section
/-! SUPPORT. For every statement of Certificates/Slice0/Obligations.lean that has hypotheses, a concrete state and operands that
meet all of them together; for a statement of several clauses, one for each clause at a boundary of its range. -/

namespace Sys2Proof.Tests

set_option Elab.async false

open Sys2Proof.Machine Sys2Proof.Claims

/-! The common witness state: P1 and P2 zero and valid, BMEM[0..383] written, nothing halted. -/

def ws : State := ((State.reset.writeReg 1 KPoly.zero).writeReg 2 KPoly.zero).memWrite 0 (List.replicate 384 0)

/-- The witness state with the host about to do `op`. -/
def before (s : State) (op : HostOp) : State := { s with host := [op] }

/-- The witness state after a COEFF_RANGE fault. -/
def halted : State := ws.enterFault ⟨.coeffRange, 0⟩ 0x00000108

/-- The witness state, busy. No run reaches it. -/
def busy : State := { ws with status := { ws.status with busy := true } }

/-- A machine with fewer registers and a smaller BMEM. -/
def narrow : State := { ws with params := { ws.params with npoly := 8, bmemSize := 512 } }

theorem ws_running : Running ws := ⟨rfl, rfl⟩
theorem ws_readable1 : Readable ws 1 := ⟨by decide, by decide⟩
theorem ws_readable2 : Readable ws 2 := ⟨by decide, by decide⟩

theorem ws_lanes (r : Reg) {lo hi : Int} (h : lo ≤ 0 ∧ 0 ≤ hi) : LanesIn ws r lo hi := by
  have e : ws.poly r = KPoly.zero := by
    rw [ws, State.memWrite_poly]
    by_cases h2 : r = 2
    · rw [h2, State.poly_writeReg_self]
    · rw [State.poly_writeReg_of_ne _ _ _ h2]
      by_cases h1 : r = 1
      · rw [h1, State.poly_writeReg_self]
      · rw [State.poly_writeReg_of_ne _ _ _ h1]; simp [State.reset, State.resetOf, State.poly]
  intro i _
  rw [e, KPoly.lane_zero]; exact h

/-- Reading inside n zero bytes written from address 0 up. -/
theorem read_zeros (m : Memory) {n k : Nat} (h : k < n) : (m.write 0 (List.replicate n 0)).read (0 + k) = some 0 := by
  rw [Memory.read_write, List.length_replicate, if_pos (by omega), List.getElem?_replicate, if_pos (by omega)]

theorem read_past_zeros {n a : Nat} (h : n ≤ a) : (Memory.write [] 0 (List.replicate n 0)).read a = none := by
  rw [Memory.read_write, List.length_replicate, if_neg (by omega)]; rfl

theorem ws_bytes {n : Nat} (h : n ≤ 384) : BytesReadable ws 0 n := by
  refine ⟨Nat.le_trans (by omega) (show 384 ≤ ws.params.bmemSize by decide), fun k hk => ?_⟩
  show (Memory.write _ 0 (List.replicate 384 0)).written (0 + k) = true
  rw [Memory.written, read_zeros _ (by omega)]; rfl

theorem ws_inv : ws.Inv := by
  refine ⟨by decide, Memory.wf_write _ _ _ Memory.wf_nil, fun a ha => ?_, by decide +kernel, rfl, by decide, fun _ => rfl, rfl,
    by decide, fun h => by revert h; decide⟩
  by_contra hn
  have hn : 4096 ≤ a := Nat.le_of_not_lt hn
  have : (Memory.write [] 0 (List.replicate 384 0)).read a = none := read_past_zeros (by omega)
  have ha : ((Memory.write [] 0 (List.replicate 384 0)).read a).isSome = true := ha
  rw [this] at ha; cases ha

/-! Encoding. -/

theorem witness_DecodeEncodeRoundTrip : (Instr.basemul 15 8 0).wellFormed 16 = true := by decide

theorem witness_DecodedWordIsItsEncoding : decode 16 0xFFF0A106 = some (.getnoise1 1 0xFFF 0x0A) := by decide

/-- A word for each line of the table, and one that is not ILLEGAL. -/
theorem witness_IllegalWordsFaultFirst :
    (before narrow (.write 4 0 0x00000011)).host = [.write 4 0 0x00000011] ∧ Running (before narrow (.write 4 0 0x00000011)) ∧
    IllegalWord 8 0x00000011 ∧ IllegalWord 8 0x00000100 ∧ IllegalWord 8 0x00001001 ∧ IllegalWord 8 0x00000801 ∧
    IllegalWord 8 0x0001010C ∧ IllegalWord 8 0x0000800C ∧ IllegalWord 8 0x0008000A ∧ IllegalWord 8 0x0010000A ∧
    IllegalWord 8 0x00010002 ∧ IllegalWord 8 0x00008002 ∧ IllegalWord 8 0x00001003 ∧ IllegalWord 8 0x00000806 ∧
    ¬IllegalWord 8 0x00000701 := by
  refine ⟨rfl, ⟨rfl, rfl⟩, ?_, ?_, ?_, ?_, ?_, ?_, ?_, ?_, ?_, ?_, ?_, ?_, ?_⟩ <;> simp only [IllegalWord] <;> decide

/-! The step. -/

theorem witness_StepRunsTheDecodedCommand :
    (before ws (.write 4 0 0x00000501)).host = [.write 4 0 0x00000501] ∧ Running (before ws (.write 4 0 0x00000501)) ∧
    decode (before ws (.write 4 0 0x00000501)).params.npoly 0x00000501 = some (.pzero 5) := ⟨rfl, ⟨rfl, rfl⟩, by decide⟩

/-- Both clauses; the second with a host write to BMEM. -/
theorem witness_HaltedIgnoresCommands :
    ((before halted (.write 4 0 0x00000501)).host = [.write 4 0 0x00000501] ∧
      (before halted (.write 4 0 0x00000501)).status.halted = true ∧ (before halted (.write 4 0 0x00000501)).status.busy = false) ∧
    ((before halted (.write 1 0x1FFF 7)).status.halted = true ∧ (before halted (.write 1 0x1FFF 7)).host.head? ≠ some .reset ∧
      ∃ t, step (before halted (.write 1 0x1FFF 7)) = .next t) := ⟨⟨rfl, rfl, rfl⟩, rfl, by decide, _, rfl⟩

theorem witness_WaitingHoldsAllState : ws.host = [] ∧
    (before busy (.write 4 0 0)).host = [.write 4 0 0] ∧ (before busy (.write 4 0 0)).status.busy = true ∧
    HostOp.write 4 0 0 ≠ .read 4 0x004 ∧
    (before busy (.read 4 0x004)).host = [.read 4 0x004] ∧ (before busy (.read 4 0x004)).status.busy = true :=
  ⟨rfl, rfl, rfl, by decide, rfl, rfl⟩

/-- A CMD write (here an ignored one), a reset and another access. -/
theorem witness_PcCountsCommandWrites :
    (∃ t, step (before halted (.write 4 0 1)) = .next t) ∧ (∃ t, step (before ws .reset) = .next t) ∧
    (∃ t, step (before ws (.read 4 0x004)) = .next t) ∧ (before ws .reset).status.busy = false :=
  ⟨⟨_, rfl⟩, ⟨_, rfl⟩, ⟨_, rfl⟩, rfl⟩

/-! Reset and the invariant. -/

theorem witness_HostResetLeavesResetValues : (before halted .reset).host = [.reset] ∧ (before halted .reset).status.busy = false :=
  ⟨rfl, rfl⟩

/-- The smallest and the largest legal machine. -/
theorem witness_ResetStateMeetsTheInvariant :
    (Params.legal { cbytes := 0, eta1 := 2, eta2 := 2, npoly := 1, bmemSize := 512, symbytes := 1 }) = true ∧
    (Params.legal { cbytes := 65535, eta1 := 3, eta2 := 3, npoly := 16, bmemSize := 4096, symbytes := 255 }) = true := by decide

theorem witness_StepKeepsTheInvariant : (before ws .reset).Inv ∧ ∃ t, step (before ws .reset) = .next t :=
  ⟨⟨ws_inv.1, ws_inv.2, ws_inv.3, ws_inv.4, ws_inv.5, ws_inv.6, ws_inv.7, ws_inv.8, ws_inv.9, ws_inv.10⟩, _, rfl⟩

/-- The parameters of 95_test_vectors.md 2.8, with an unsupported width. -/
def badParams : Params := { Params.testVectors with cbytes := 192 }

theorem witness_UnsupportedWidthRunsNoCommand : badParams.legal = true ∧ badParams.cbytes ≠ 128 ∧ badParams.cbytes ≠ 160 ∧
    (State.resetOf badParams).Inv ∧ ∃ t, step (State.resetOf badParams) = .next t := by
  refine ⟨by decide, by decide, by decide, ?_, _, rfl⟩
  refine ⟨by decide, by decide, fun a ha => ?_, by decide +kernel, rfl, by decide, fun _ => rfl, rfl, by decide,
    fun _ => ⟨rfl, by decide +kernel⟩⟩
  cases (show false = true from ha)

/-! Runs (R195, R230): a safe run exists, and a fault cleared by a reset leaves no safe run. -/

theorem witness_SafeEnd : ∃ t, SafeEnd Params.testVectors [.write 4 0 0x00000501] t :=
  ⟨_, ⟨rfl, rfl⟩, _, rfl, ⟨rfl, rfl⟩, rfl⟩

/-- ADD of unwritten registers, a STATUS read, a reset: the end is free of a fault and the run is not safe. -/
def maskedFault : List HostOp := [.write 4 0 0x0000100C, .read 4 0x004, .reset]

theorem test_masked_fault_ends_fault_free :
    ends (Sys2Proof.core.run 3 (State.start Params.testVectors maskedFault))
      (fun t => !t.status.halted && t.replies == [0x00000042]) = true := by decide +kernel

theorem test_masked_fault_is_not_safe (t : State) : ¬SafeEnd Params.testVectors maskedFault t := by
  rintro ⟨_, u, hu, hs⟩
  have h : ends (step (State.start Params.testVectors maskedFault)) (fun u => u.status.halted) = true := by decide +kernel
  have hu : step (State.start Params.testVectors maskedFault) = .next u := hu
  rw [hu] at h
  exact absurd (hs.1.1.symm.trans h) (by decide)

/-! Faults and frames. -/

/-- Each cause, at the boundary of its check, and a command that passes every check. -/
theorem witness_FirstFailingCheckIsReported :
    firstFault (.pzero 8) narrow = some (.illegal, 0) ∧ firstFault (.pzero 7) narrow = none ∧
    firstFault (.tobytes 0 0xE81) ws = some (.bufferRange, 0) ∧ firstFault (.tobytes 0 0xE80) ws = some (.uninitReg, 0) ∧
    firstFault (.basemul 0 1 15) ws = some (.uninitReg, 15) ∧
    firstFault (.frommsg 0 0xFE0) ws = some (.uninitMem, 0) ∧ firstFault (.frommsg 0 353) ws = some (.uninitMem, 31) ∧
    firstFault (.tobytes 1 0) (ws.writeReg 1 (KPoly.ofLanes fun i => if i = 255 then 3329 else 3328)) =
      some (.coeffRange, 255) := by decide +kernel

theorem witness_FaultCommitsNothing : ws.status.halted = false ∧
    ∃ t, exec (.add 0 1) ws = .next t ∧ t.status.halted = true :=
  ⟨rfl, ws.enterFault ⟨.uninitReg, 0⟩ (encode (.add 0 1)), rfl, rfl⟩

theorem witness_CommandsRaiseOnlyTheirCauses : ws.status.halted = false ∧
    ∃ t, exec (.tomsg 1 0xFE1) ws = .next t ∧ t.status.halted = true :=
  ⟨rfl, ws.enterFault ⟨.bufferRange, 0⟩ (encode (.tomsg 1 0xFE1)), rfl, rfl⟩

theorem witness_CommandsWriteOnlyTheirDestination : ∃ t, exec (.tomsg 1 0xFE0) ws = .next t := by
  unfold exec execTomsg; exact conclude_total ..

theorem witness_ValidityBits : (∃ t, exec (.pzero 5) ws = .next t) ∧ ws.status.halted = false ∧
    0 ∈ sourcesOf (.add 1 0) ∧ ws.isValid 0 = false := ⟨⟨_, rfl⟩, rfl, by decide, by decide⟩

/-! Results. -/

theorem witness_PzeroWritesTheZeroPolynomial : (15 : Reg).toNat < ws.params.npoly := by decide

theorem witness_TobytesWritesTheSerialization :
    Readable ws 1 ∧ (0xE80 : Addr).toNat + 384 ≤ ws.params.bmemSize ∧ LanesIn ws 1 (-3329) 3328 :=
  ⟨ws_readable1, by decide, ws_lanes 1 (by decide)⟩

theorem witness_FrombytesReadsTheSerialization : (3 : Reg).toNat < ws.params.npoly ∧ BytesReadable ws (0 : Addr).toNat 384 :=
  ⟨by decide, ws_bytes (by decide)⟩

theorem witness_CompressWritesTheCompressedBytes : ws.params.supported = true ∧ Readable ws 1 ∧
    (0xF80 : Addr).toNat + ws.params.cbytes ≤ ws.params.bmemSize ∧ LanesIn ws 1 (-3329) 3328 :=
  ⟨by decide, ws_readable1, by decide, ws_lanes 1 (by decide)⟩

theorem witness_DecompressWritesTheDecompressedValues : ws.params.supported = true ∧ (3 : Reg).toNat < ws.params.npoly ∧
    BytesReadable ws (0 : Addr).toNat ws.params.cbytes := ⟨by decide, by decide, ws_bytes (by decide)⟩

theorem witness_GetnoiseWritesTheSampledPolynomial : (4 : Reg).toNat < ws.params.npoly ∧
    (0 : Addr).toNat + ws.params.symbytes ≤ ws.params.bmemSize ∧ (List.replicate 32 (0 : Byte)).length = ws.params.symbytes ∧
    ws.Holds (0 : Addr).toNat (List.replicate 32 0) ∧ ws.params.legal = true := by
  refine ⟨by decide, by decide, by decide, fun k hk => ?_, by decide⟩
  have hk : k < 32 := by simpa using hk
  show (Memory.write _ 0 (List.replicate 384 0)).read (0 + k) = _
  rw [read_zeros _ (by omega), List.getElem?_replicate, if_pos hk]

theorem witness_NttWritesTheReducedTransform : Readable ws 1 ∧ LanesIn ws 1 (-6657) 6657 :=
  ⟨ws_readable1, ws_lanes 1 (by decide)⟩

theorem witness_InvnttWritesTheUnreducedTransform : Readable ws 2 ∧ LanesIn ws 2 (-6657) 6657 :=
  ⟨ws_readable2, ws_lanes 2 (by decide)⟩

theorem witness_BasemulMultipliesBlockwise : (1 : Reg).toNat < ws.params.npoly ∧ Readable ws 1 ∧ Readable ws 2 ∧
    LanesIn ws 1 (-6657) 6657 ∧ LanesIn ws 2 (-6657) 6657 :=
  ⟨by decide, ws_readable1, ws_readable2, ws_lanes 1 (by decide), ws_lanes 2 (by decide)⟩

theorem witness_TomontLiftsEveryCoefficient : Readable ws 1 := ws_readable1

/-- A register of the largest values beside zero: every sum and difference fits, at the ends of int16. -/
def wmax : State := ws.writeReg 1 (Vector.replicate 256 32767)

theorem wmax_lane (i : Nat) (h : i < 256) : (wmax.poly 1).lane i = 32767 := by
  rw [wmax, State.poly_writeReg_self, KPoly.lane, KPoly.coeff_eq_getElem _ h, Vector.getElem_replicate]; rfl

theorem wmax_zero (i : Nat) (h : i < 256) : (wmax.poly 2).lane i = 0 := by
  rw [wmax, State.poly_writeReg_of_ne _ _ _ (by decide)]
  have := ws_lanes 2 (lo := 0) (hi := 0) (by decide) i h
  omega

theorem witness_AddWritesTheExactSum : Readable wmax 1 ∧ Readable wmax 2 ∧ ∀ i, i < 256 →
    -32768 ≤ (wmax.poly 1).lane i + (wmax.poly 2).lane i ∧ (wmax.poly 1).lane i + (wmax.poly 2).lane i ≤ 32767 :=
  ⟨⟨by decide, by decide⟩, ⟨by decide, by decide⟩, fun i h => by rw [wmax_lane i h, wmax_zero i h]; decide⟩

theorem witness_SubWritesTheExactDifference : Readable wmax 2 ∧ Readable wmax 1 ∧ ∀ i, i < 256 →
    -32768 ≤ (wmax.poly 1).lane i - (wmax.poly 2).lane i ∧ (wmax.poly 1).lane i - (wmax.poly 2).lane i ≤ 32767 :=
  ⟨⟨by decide, by decide⟩, ⟨by decide, by decide⟩, fun i h => by rw [wmax_lane i h, wmax_zero i h]; decide⟩

/-- P1 = [32767, 32767, …, 32767] and P2 = [0, …, 0, 1]: the sum leaves int16 at lane 255 first; and P2 = [−1, 0, …]: the
difference P1 − P2 leaves it at lane 0. -/
theorem witness_AddAndSubNeverWrap :
    (let s := wmax.writeReg 2 (KPoly.ofLanes fun i => if i = 255 then 1 else 0)
     Readable s 1 ∧ Readable s 2 ∧ (32767 : Int) < (s.poly 1).lane 255 + (s.poly 2).lane 255 ∧
      ∀ i, i < 255 → -32768 ≤ (s.poly 1).lane i + (s.poly 2).lane i ∧ (s.poly 1).lane i + (s.poly 2).lane i ≤ 32767) ∧
    (let s := wmax.writeReg 2 (KPoly.ofLanes fun i => if i = 0 then -1 else 0)
     Readable s 1 ∧ Readable s 2 ∧ (32767 : Int) < (s.poly 1).lane 0 - (s.poly 2).lane 0) := by
  have e : ∀ (v : KPoly) (i : Nat), i < 256 → ((wmax.writeReg 2 v).poly 1).lane i = 32767 := by
    intro v i h; rw [State.poly_writeReg_of_ne _ _ _ (by decide)]; exact wmax_lane i h
  refine ⟨⟨⟨by decide, by decide⟩, ⟨by decide, by decide⟩, ?_, fun i h => ?_⟩, ⟨by decide, by decide⟩, ⟨by decide, by decide⟩, ?_⟩
  · rw [e _ _ (by decide), State.poly_writeReg_self, KPoly.lane_ofLanes _ (by decide)]; decide
  · rw [e _ i (by omega), State.poly_writeReg_self, KPoly.lane_ofLanes _ (by omega), if_neg (by omega)]; decide
  · rw [e _ _ (by decide), State.poly_writeReg_self, KPoly.lane_ofLanes _ (by decide)]; decide

theorem witness_ReduceWritesTheCanonicalResidue : Readable wmax 1 := ⟨by decide, by decide⟩

theorem witness_FrommsgWritesTheSymbols : (3 : Reg).toNat < ws.params.npoly ∧ BytesReadable ws (0 : Addr).toNat 32 :=
  ⟨by decide, ws_bytes (by decide)⟩

theorem witness_TomsgWritesTheDecodedBits : Readable ws 1 ∧ (0xFE0 : Addr).toNat + 32 ≤ ws.params.bmemSize ∧ LanesIn ws 1 0 3328 :=
  ⟨ws_readable1, by decide, ws_lanes 1 (by decide)⟩

/-! Sequences of commands. -/

theorem witness_SerializationRoundTrip : Running ws ∧ Readable ws 1 ∧ (1 : Reg).toNat < ws.params.npoly ∧
    (0 : Addr).toNat + 384 ≤ ws.params.bmemSize ∧ LanesIn ws 1 (-3329) 3328 ∧ LanesIn ws 1 0 3328 :=
  ⟨ws_running, ws_readable1, by decide, by decide, ws_lanes 1 (by decide), ws_lanes 1 (by decide)⟩

/-- The twelve-bit groups of zero bytes are 0. -/
theorem ws_groups (i : Nat) (h : i < 256) : valueAt ws 0 12 i = 0 := by
  rw [valueAt]
  apply Finset.sum_eq_zero
  intro j hj
  have hj : j < 12 := by simpa using hj
  have : byteAt ws (0 + (i * 12 + j) / 8) = 0 := by
    show (((Memory.write _ 0 (List.replicate 384 0)).read (0 + (i * 12 + j) / 8)).getD 0).toNat = 0
    rw [read_zeros _ (by omega)]; rfl
  rw [streamBit, this]; simp

/-- BMEM[0..2] = 01 0D 00: group 0 is 3329. -/
def wgroup : State := ws.memWrite 0 [0x01, 0x0D, 0x00]

theorem witness_ReverseSerializationRoundTrip :
    (Running ws ∧ (1 : Reg).toNat < ws.params.npoly ∧ BytesReadable ws (0 : Addr).toNat 384 ∧
      (0xE80 : Addr).toNat + 384 ≤ ws.params.bmemSize ∧ ∀ i, i < 256 → valueAt ws (0 : Addr).toNat 12 i < 3329) ∧
    (Running wgroup ∧ (1 : Reg).toNat < wgroup.params.npoly ∧ BytesReadable wgroup (0 : Addr).toNat 384 ∧
      (0xE80 : Addr).toNat + 384 ≤ wgroup.params.bmemSize ∧ 3329 ≤ valueAt wgroup (0 : Addr).toNat 12 0) := by
  refine ⟨⟨ws_running, by decide, ws_bytes (by decide), by decide, fun i h => ?_⟩, ⟨rfl, rfl⟩, by decide, ⟨by decide, ?_⟩, by decide,
    by decide +kernel⟩
  · have := ws_groups i h
    show valueAt ws 0 12 i < 3329
    omega
  · intro k hk
    have := (ws_bytes (Nat.le_refl 384)).2 k hk
    rw [Memory.written] at this ⊢
    show ((Memory.write ws.bmem 0 [0x01, 0x0D, 0x00]).read (0 + k)).isSome = true
    rw [Memory.read_write]
    split
    · rename_i h; simp at h ⊢; omega
    · exact this

theorem witness_CompressionErrorBound : Running ws ∧ ws.params.supported = true ∧ Readable ws 1 ∧ (3 : Reg).toNat < ws.params.npoly ∧
    (0xF80 : Addr).toNat + ws.params.cbytes ≤ ws.params.bmemSize ∧ LanesIn ws 1 (-3329) 3328 :=
  ⟨ws_running, by decide, ws_readable1, by decide, by decide, ws_lanes 1 (by decide)⟩

/-- A grid point, an off-grid value, and the last group of each width. -/
theorem witness_GridPointsAreTheFixedPoints : 3121 < 3329 ∧ 3121 ∈ grid4 ∧ 3225 ∈ grid5 ∧ 117 ∉ grid4 ∧ 15 < 16 ∧ 31 < 32 := by decide

theorem witness_ZeroCompressesToZero : Running ws ∧ ws.params.supported = true ∧ (0 : Reg).toNat < ws.params.npoly ∧
    (15 : Reg).toNat < ws.params.npoly ∧ (0xF80 : Addr).toNat + ws.params.cbytes ≤ ws.params.bmemSize :=
  ⟨ws_running, by decide, by decide, by decide, by decide⟩

theorem witness_NttThenInvnttScalesByMontgomeryRadix : Running ws ∧ Readable ws 1 ∧ LanesIn ws 1 (-6657) 6657 :=
  ⟨ws_running, ws_readable1, ws_lanes 1 (by decide)⟩

theorem witness_RingProductThroughTheNtt : Running ws ∧ (1 : Reg) ≠ 2 ∧ (3 : Reg).toNat < ws.params.npoly ∧ Readable ws 1 ∧
    Readable ws 2 ∧ LanesIn ws 1 (-6657) 6657 ∧ LanesIn ws 2 (-6657) 6657 :=
  ⟨ws_running, by decide, by decide, ws_readable1, ws_readable2, ws_lanes 1 (by decide), ws_lanes 2 (by decide)⟩

theorem witness_ReducedSumsAndDifferences : Running wmax ∧ Readable wmax 2 ∧ Readable wmax 1 ∧
    (∀ i, i < 256 → -32768 ≤ (wmax.poly 2).lane i + (wmax.poly 1).lane i ∧ (wmax.poly 2).lane i + (wmax.poly 1).lane i ≤ 32767) ∧
    ∀ i, i < 256 → -32768 ≤ (wmax.poly 1).lane i - (wmax.poly 2).lane i ∧ (wmax.poly 1).lane i - (wmax.poly 2).lane i ≤ 32767 :=
  ⟨⟨rfl, rfl⟩, ⟨by decide, by decide⟩, ⟨by decide, by decide⟩, fun i h => by rw [wmax_lane i h, wmax_zero i h]; decide,
    fun i h => by rw [wmax_lane i h, wmax_zero i h]; decide⟩

/-- P1 = 3328 everywhere. -/
def wtop : State := ws.writeReg 1 (Vector.replicate 256 3328)

theorem wtop_lane (i : Nat) (h : i < 256) : (wtop.poly 1).lane i = 3328 := by
  rw [wtop, State.poly_writeReg_self, KPoly.lane, KPoly.coeff_eq_getElem _ h, Vector.getElem_replicate]; rfl

/-- Nine sources and ten, all with 3328 at lane 0; and two registers at the ends of L. -/
theorem witness_NineCanonicalPolynomialsSum :
    (Running wtop ∧ (0 : Reg).toNat < wtop.params.npoly ∧ (0 : Reg) ∉ List.replicate 10 (1 : Reg) ∧
      (∀ r ∈ List.replicate 10 (1 : Reg), Readable wtop r ∧ LanesIn wtop r 0 3328) ∧
      (List.replicate 9 (1 : Reg)).length ≤ 9 ∧ (List.replicate 10 (1 : Reg)).length = 10 ∧
      ∀ r ∈ List.replicate 10 (1 : Reg), (wtop.poly r).lane 0 = 3328) ∧
    (let s := (ws.writeReg 1 (Vector.replicate 256 6657)).writeReg 2 (Vector.replicate 256 (-6657))
     Readable s 1 ∧ Readable s 2 ∧ LanesIn s 1 (-6657) 6657 ∧ LanesIn s 2 (-6657) 6657) := by
  have only : ∀ r ∈ List.replicate 10 (1 : Reg), r = 1 := fun r h => (List.mem_replicate.mp h).2
  refine ⟨⟨⟨rfl, rfl⟩, by decide, by decide, fun r h => ?_, by decide, by decide, fun r h => ?_⟩,
    ⟨by decide, by decide⟩, ⟨by decide, by decide⟩, fun i h => ?_, fun i h => ?_⟩
  · rw [only r h]
    exact ⟨⟨by decide, by decide⟩, fun i h => by rw [wtop_lane i h]; decide⟩
  · rw [only r h]; exact wtop_lane 0 (by decide)
  · rw [State.poly_writeReg_of_ne _ _ _ (by decide), State.poly_writeReg_self, KPoly.lane, KPoly.coeff_eq_getElem _ h,
      Vector.getElem_replicate]; decide
  · rw [State.poly_writeReg_self, KPoly.lane, KPoly.coeff_eq_getElem _ h, Vector.getElem_replicate]; decide

theorem witness_MessageRoundTrip : Running ws ∧ (3 : Reg).toNat < ws.params.npoly ∧ BytesReadable ws (0 : Addr).toNat 32 ∧
    (0xFE0 : Addr).toNat + 32 ≤ ws.params.bmemSize := ⟨ws_running, by decide, ws_bytes (by decide), by decide⟩

theorem witness_MessageSurvivesBoundedNoise : Running ws ∧ (3 : Reg) ≠ 1 ∧ (3 : Reg).toNat < ws.params.npoly ∧ Readable ws 1 ∧
    LanesIn ws 1 (-831) 831 ∧ BytesReadable ws (0 : Addr).toNat 32 ∧ (0xFE0 : Addr).toNat + 32 ≤ ws.params.bmemSize :=
  ⟨ws_running, by decide, by decide, ws_readable1, ws_lanes 1 (by decide), ws_bytes (by decide), by decide⟩

/-- pmov; pneg on a register without −32768, and on one with it at lane 0. -/
theorem witness_PseudoInstructionsMeanTheirExpansion :
    (Running wmax ∧ (Pseudo.pmov 0 1).wellFormed = true ∧ (0 : Reg).toNat < wmax.params.npoly ∧ Readable wmax 1) ∧
    (Running wmax ∧ (Pseudo.pneg 1 0).wellFormed = true ∧ (0 : Reg).toNat < wmax.params.npoly ∧ Readable wmax 1 ∧
      ∀ i, i < 256 → (wmax.poly 1).lane i ≠ -32768) ∧
    (let s := ws.writeReg 1 (Vector.replicate 256 (-32768))
     Running s ∧ (0 : Reg).toNat < s.params.npoly ∧ Readable s 1 ∧ ∃ i, i < 256 ∧ (s.poly 1).lane i = -32768) := by
  refine ⟨⟨⟨rfl, rfl⟩, by decide, by decide, ⟨by decide, by decide⟩⟩, ⟨⟨rfl, rfl⟩, by decide, by decide, ⟨by decide, by decide⟩,
    fun i h => by rw [wmax_lane i h]; decide⟩, ⟨rfl, rfl⟩, by decide, ⟨by decide, by decide⟩, 0, by decide, ?_⟩
  rw [State.poly_writeReg_self, KPoly.lane, KPoly.coeff_eq_getElem _ (by decide), Vector.getElem_replicate]; rfl

/-! The host port. -/

theorem witness_HostReadsTheRegisterWords : ws.status.busy = false ∧ ws.params.legal = true ∧
    (before ws (.read 4 0x004)).host = [.read 4 0x004] ∧ (before ws (.read 4 0x008)).host = [.read 4 0x008] ∧
    (before ws (.read 4 0x010)).host = [.read 4 0x010] ∧ (before ws (.read 4 0x00C)).host = [.read 4 0x00C] ∧
    (before ws (.read 4 0x000)).host = [.read 4 0x000] := ⟨rfl, by decide, rfl, rfl, rfl, rfl, rfl⟩

/-- The last word and the last byte of BMEM. -/
theorem witness_HostWritesBmemLittleEndian : ws.status.busy = false ∧ ws.params.legal = true ∧
    4092 % 4 = 0 ∧ 4092 + 4 ≤ ws.params.bmemSize ∧ (before ws (.write 4 (0x1000 + 4092) 1)).host = [.write 4 (0x1000 + 4092) 1] ∧
    4095 < ws.params.bmemSize ∧ (before ws (.write 1 (0x1000 + 4095) 1)).host = [.write 1 (0x1000 + 4095) 1] :=
  ⟨rfl, by decide, by decide, by decide, rfl, by decide, rfl⟩

theorem witness_HostReadsBmemLittleEndian : ws.status.busy = false ∧ ws.params.legal = true ∧ 0 % 4 = 0 ∧ 0 + 4 ≤ ws.params.bmemSize ∧
    ws.bmem.read 0 = some 0 ∧ ws.bmem.read (0 + 1) = some 0 ∧ ws.bmem.read (0 + 2) = some 0 ∧ ws.bmem.read (0 + 3) = some 0 ∧
    (before ws (.read 4 (0x1000 + 0))).host = [.read 4 (0x1000 + 0)] ∧
    (before ws (.read 1 (0x1000 + 0))).host = [.read 1 (0x1000 + 0)] :=
  ⟨rfl, by decide, by decide, by decide, by decide, by decide, by decide, by decide, rfl, rfl⟩

/-- An unwritten byte, the last of BMEM. -/
theorem witness_HostReadOfBmemNeverFaults : ws.status.busy = false ∧ ws.params.legal = true ∧ 4095 < ws.params.bmemSize ∧
    ws.bmem.written 4095 = false ∧ (before ws (.read 1 (0x1000 + 4095))).host = [.read 1 (0x1000 + 4095)] :=
  ⟨rfl, by decide, by decide, by decide +kernel, rfl⟩

/-- The first and the last offset of each reserved range, in both widths, and a read-only register. -/
theorem witness_ReservedOffsetsReadZeroAndIgnoreWrites : narrow.status.busy = false ∧ narrow.params.legal = true ∧
    (∀ o ∈ [0x014, 0xFFC], o % 4 = 0 ∧ 0x014 ≤ o ∧ o < 0x1000) ∧ (∀ o ∈ [0x014, 0xFFF], 0x014 ≤ o ∧ o < 0x1000) ∧
    (∀ o ∈ [0x1200, 0x1FFC], o % 4 = 0 ∧ 0x1000 + narrow.params.bmemSize ≤ o ∧ o < 0x2000) ∧
    (∀ o ∈ [0x1200, 0x1FFF], 0x1000 + narrow.params.bmemSize ≤ o ∧ o < 0x2000) ∧
    (before narrow (.read 1 0x1FFF)).host = [.read 1 0x1FFF] ∧ (before narrow (.write 4 0x014 1)).host = [.write 4 0x014 1] ∧
    (before narrow (.write 4 0x00C 1)).host = [.write 4 0x00C 1] ∧ 0x00C ∈ [0x004, 0x008, 0x00C, 0x010] :=
  ⟨rfl, by decide, by decide, by decide, by decide, by decide, rfl, rfl, rfl, by decide⟩

/-- A byte access to a register, an unaligned word, a halfword at the end of the window. -/
theorem witness_OtherHostFormsAreRefused : ws.status.busy = false ∧
    (¬(1 = 4 ∧ 0x004 % 4 = 0) ∧ ¬(1 = 1 ∧ 0x014 ≤ 0x004)) ∧ (0x1001 + 4 ≤ 0x2000 ∧ ¬(4 = 4 ∧ 0x1001 % 4 = 0)) ∧
    (0x1FFE + 2 ≤ 0x2000 ∧ ¬(2 = 4 ∧ 0x1FFE % 4 = 0) ∧ ¬(2 = 1 ∧ 0x014 ≤ 0x1FFE)) ∧
    (before ws (.read 2 0x1FFE)).host = [.read 2 0x1FFE] ∧ (before ws (.write 1 0x004 0)).host = [.write 1 0x004 0] :=
  ⟨rfl, by decide, by decide, by decide, rfl, rfl⟩

theorem witness_HostNeverTouchesRegisters : (before ws (.write 4 0x1000 7)).host = [.write 4 0x1000 7] ∧
    isCmdWrite (.write 4 0x1000 7) = false ∧ HostOp.write 4 0x1000 7 ≠ .reset ∧
    ∃ t, step (before ws (.write 4 0x1000 7)) = .next t := ⟨rfl, rfl, by decide, _, rfl⟩

/-! The shared functions. -/

/-- Past the end by one byte; up to the end with the first unwritten byte at offset 4; the written bytes. -/
theorem witness_MemReadChecksThenReturnsTheBytes : ws.params.bmemSize < 0xFE1 + 32 ∧
    (380 + 32 ≤ ws.params.bmemSize ∧ 4 < 32 ∧ ws.bmem.written (380 + 4) = false ∧ ∀ j, j < 4 → ws.bmem.written (380 + j) = true) ∧
    BytesReadable ws 0 384 := ⟨by decide, ⟨by decide, by decide, by decide +kernel, by decide +kernel⟩, ws_bytes (by decide)⟩

theorem witness_PackPlacesEveryBit : [1, 2, 3, 4, 5, 6, 7, 31].length * 5 % 8 = 0 ∧ (∀ x ∈ [1, 2, 3, 4, 5, 6, 7, 31], x < 2 ^ 5) ∧
    7 < [1, 2, 3, 4, 5, 6, 7, 31].length ∧ 4 < 5 := by decide

theorem witness_UnpackUndoesPack : (8 * 5 ≤ 8 * ([0, 1, 2, 3, 4] : List Byte).length ∧ 7 < 8) ∧
    [2748, 291].length * 12 % 8 = 0 ∧ ∀ x ∈ [2748, 4095], x < 2 ^ 12 := by decide

/-- The ends of [−q, q). -/
theorem witness_SignFixAndBarrettReduce : -3329 ≤ (-3329#16).toInt ∧ (-3329#16).toInt < 3329 ∧ -3329 ≤ (3328#16).toInt ∧
    (3328#16).toInt < 3329 := by decide

/-- The ends of each decision interval. -/
theorem witness_MessageSymbolAndBit : ∀ x ∈ [0, 832, 833, 2496, 2497, 3328], x < 3329 := by decide

/-- The ends of the range of R86, and of [0, Q). -/
theorem witness_ReferenceCircuitsMeetTheirRules : (-109084672 ≤ (-109084672#32).toInt ∧ (-109084672#32).toInt ≤ 109084671) ∧
    (-109084672 ≤ (109084671#32).toInt ∧ (109084671#32).toInt ≤ 109084671) ∧ 3328 < 3329 := by decide

end Sys2Proof.Tests
end

section
/-! The proofs of the family 10_state.md: first the rules they share (one host action, the invariant under each effect, the
check phase of a command), then the obligations. -/

namespace Sys2Proof.Machine

open Sys2Proof.Claims

/-! ### One host action -/

/-- The parameter ranges of 00_scope.md R8, as facts for arithmetic. -/
theorem legal_ranges {c : Params} (h : c.legal = true) :
    c.cbytes < 65536 ∧ (c.eta1 = 2 ∨ c.eta1 = 3) ∧ (c.eta2 = 2 ∨ c.eta2 = 3) ∧ (1 ≤ c.npoly ∧ c.npoly ≤ 16) ∧
      (512 ≤ c.bmemSize ∧ c.bmemSize ≤ 4096) ∧ 1 ≤ c.symbytes ∧ c.symbytes ≤ 255 := by
  simpa [Params.legal, and_assoc] using h

section HostAction

variable {s t : State} {op : HostOp} {rest : List HostOp}

/-- The step of a machine that is not busy is the host's next action on the state past it (20_memory.md R53). -/
theorem step_eq_perform (hh : s.host = op :: rest) (hb : s.status.busy = false) :
    step s = perform op { s with host := rest } := by
  simp [step, hostAccess, hh, hb]

/-- A read of a register word (20_memory.md R50) answers it and changes nothing else. -/
theorem perform_read_register {o : Nat} (ha : o % 4 = 0) (ho : o < 0x014) :
    perform (.read 4 o) s = .next { s with replies := registerWord s o :: s.replies } := by
  simp [perform, insideWindow, supportedForm, readValue, ha, ho, show o < 0x2000 by omega,
    show o + 4 ≤ 0x2000 by omega]

/-- The step of an idle machine whose host reads a register word answers the word and changes nothing else. -/
theorem step_read_register {o : Nat} (hh : s.host = .read 4 o :: rest) (hb : s.status.busy = false) (ha : o % 4 = 0)
    (ho : o < 0x014) : step s = .next { s with host := rest, replies := registerWord s o :: s.replies } :=
  (step_eq_perform hh hb).trans (perform_read_register ha ho)

/-- A 32-bit write at offset 0 issues a command (20_memory.md R50). -/
theorem perform_cmd (w : Word) : perform (.write 4 0 w) s = issue w s := rfl

/-- A write inside BMEM, in a supported form, stores the bytes of the word that its size gives (20_memory.md R51). -/
theorem perform_write_bmem {size a : Nat} (w : Word) (hl : s.params.legal = true) (hs : 0 < size)
    (hr : a + size ≤ s.params.bmemSize) (hf : supportedForm size (0x1000 + a) = true) :
    perform (.write size (0x1000 + a) w) s = .next (s.memWrite a (writeBytes size w)) := by
  have hm := legal_ranges hl
  have hin : insideWindow size (0x1000 + a) = true := by simp [insideWindow]; omega
  have hwin : inBmemWindow s (0x1000 + a) = true := by simp [inBmemWindow]; omega
  have htake : (writeBytes size w).take (s.params.bmemSize - a) = writeBytes size w :=
    List.take_of_length_le (by simp [writeBytes]; omega)
  have hstore : storeWindow size (0x1000 + a) w s = s.memWrite a (writeBytes size w) := by
    rw [storeWindow, if_pos hwin, Nat.add_sub_cancel_left, htake]
  simp only [perform, hin, hf, if_true, writeAccess]
  rw [if_neg (by omega), if_neg (by omega), hstore]

/-- A machine that is not halted runs a word that decodes as its command (10_state.md R30, 30_encoding.md R68). -/
theorem issue_of_decode {w : Word} {i : Instr} (hh : s.status.halted = false) (hd : decode s.params.npoly w = some i) :
    issue w s = advancePc (exec i s) := by
  simp [issue, runWord, hh, hd]

/-- A CMD write moves pc by one, whatever becomes of its word (10_state.md R30). -/
theorem issue_pc {w : Word} (h : issue w s = .next t) : t.pc = s.pc + 1 := by
  rcases issue_cases h with ⟨_, rfl⟩ | ⟨_, i, u, _, he, rfl⟩ | ⟨_, _, rfl⟩
  · rfl
  · obtain ⟨_, hpc, _⟩ := exec_sameRest he
    exact congrArg (· + 1) hpc
  · rfl

end HostAction

/-! ### The register words and their fields -/

/-- The fields of the STATUS word (10_state.md R26). -/
theorem statusWord_fields (s : State) :
    s.statusWord.extractLsb' 0 1 = BitVec.ofBool s.status.busy ∧
    s.statusWord.extractLsb' 1 1 = BitVec.ofBool s.status.halted ∧ s.statusWord.extractLsb' 2 2 = 0 ∧
    s.statusWord.extractLsb' 4 4 = s.status.cause.code ∧ s.statusWord.extractLsb' 8 9 = s.status.fidx ∧
    s.statusWord.extractLsb' 17 15 = 0 := by
  unfold State.statusWord
  simp (disch := omega) only [BitVec.extractLsb'_append_eq_of_le, BitVec.extractLsb'_append_eq_of_add_le,
    BitVec.extractLsb'_eq_self]
  simp

/-- The fields of the CONFIG word (10_state.md R27). -/
theorem configWord_fields (s : State) :
    s.configWord.extractLsb' 0 16 = BitVec.ofNat 16 s.params.cbytes ∧
    s.configWord.extractLsb' 16 4 = BitVec.ofNat 4 s.params.eta1 ∧
    s.configWord.extractLsb' 20 4 = BitVec.ofNat 4 s.params.eta2 ∧
    s.configWord.extractLsb' 24 5 = BitVec.ofNat 5 s.params.npoly ∧ s.configWord.extractLsb' 29 3 = 0 := by
  unfold State.configWord
  simp (disch := omega) only [BitVec.extractLsb'_append_eq_of_le, BitVec.extractLsb'_append_eq_of_add_le,
    BitVec.extractLsb'_eq_self]
  simp

/-- The fields of the CONFIG2 word (10_state.md R28). -/
theorem config2Word_fields (s : State) :
    s.config2Word.extractLsb' 0 16 = BitVec.ofNat 16 s.params.bmemSize ∧
    s.config2Word.extractLsb' 16 8 = BitVec.ofNat 8 s.params.symbytes ∧ s.config2Word.extractLsb' 24 8 = 0 := by
  unfold State.config2Word
  simp (disch := omega) only [BitVec.extractLsb'_append_eq_of_le, BitVec.extractLsb'_append_eq_of_add_le,
    BitVec.extractLsb'_eq_self]
  simp

/-! ### The invariant under each effect of a step -/

section Invariant

variable {s t : State}

namespace State.Inv

/-- The invariant does not read the coefficients, pc or the host's side. -/
theorem of_same (h : s.Inv) (hp : t.params = s.params) (hv : t.valid = s.valid) (hm : t.bmem = s.bmem)
    (hst : t.status = s.status) (hf : t.fcmd = s.fcmd) : t.Inv := by
  obtain ⟨tp, _, tv, tm, ts, tf, _, _, _, _⟩ := t
  subst hp hv hm hst hf
  exact ⟨h.1, h.2, h.3, h.4, h.5, h.6, h.7, h.8, h.9, h.10⟩

/-- A machine that is not halted has a supported CBYTES (60_exceptions.md R196). -/
theorem supported_of_running (h : s.Inv) (hh : s.status.halted = false) : s.params.supported = true := by
  have hc : s.status.cause = .noFault := by
    by_contra hne
    simp [h.halted_iff_fault.mpr hne] at hh
  by_contra hs
  have := h.config_iff_unsupported.mpr (by simpa using hs)
  simp [hc] at this

/-- The reset state of legal parameters meets the invariant (10_state.md R36). -/
theorem resetOf {c : Params} (hl : c.legal = true) : (State.resetOf c).Inv where
  params_legal := hl
  mem_form := Memory.wf_nil
  mem_range a ha := by cases ha
  regs_exist r hr := by simp at hr
  idle := rfl
  halted_iff_fault := by cases hs : c.supported <;> simp [State.resetOf, Status.reset, hs]
  no_fault_no_fcmd _ := rfl
  fidx_range := by cases hs : c.supported <;> simp [State.resetOf, Status.reset, hs, fidxInRange]
  config_iff_unsupported := by cases hs : c.supported <;> simp [State.resetOf, Status.reset, hs]
  config_runs_nothing _ := ⟨rfl, fun r => State.resetOf_isValid r c⟩

/-- A host reset leads to the invariant. -/
theorem hostReset (h : s.Inv) : s.hostReset.Inv := (resetOf h.params_legal).of_same rfl rfl rfl rfl rfl

/-- A register write keeps the invariant if the register exists and the machine may run commands. -/
theorem writeReg (h : s.Inv) {rd : Reg} (v : KPoly) (hr : rd.toNat < s.params.npoly)
    (hs : s.params.supported = true) : (s.writeReg rd v).Inv :=
  { h with
    regs_exist := fun r hv => by
      by_cases he : r = rd
      · exact he ▸ hr
      · rw [isValid_writeReg_of_ne _ _ _ he] at hv
        exact h.regs_exist r hv
    config_runs_nothing := fun hn => by simp [hs] at hn }

/-- A write of bytes below BMEM_SIZE keeps the invariant (20_memory.md R43). -/
theorem memWrite (h : s.Inv) {a : Nat} {bs : List Byte} (hr : a + bs.length ≤ s.params.bmemSize) :
    (s.memWrite a bs).Inv :=
  { h with
    mem_form := Memory.wf_write _ _ _ h.mem_form
    mem_range := fun x hx => by
      rw [memWrite_bmem, Memory.written_write, Bool.or_eq_true, decide_eq_true_eq] at hx
      rcases hx with hx | hx
      · show x < s.params.bmemSize; omega
      · exact h.mem_range x hx }

/-- The entry of a fault a command can raise keeps the invariant if the machine may run commands (60_exceptions.md R199). -/
theorem enterFault (h : s.Inv) {f : FaultRecord} (w : Word) (hf : CheckFault s.params f)
    (hs : s.params.supported = true) : (s.enterFault f w).Inv := by
  obtain ⟨hne, hnc, hx⟩ := hf
  exact { h with
    halted_iff_fault := iff_of_true rfl hne
    no_fault_no_fcmd := fun e => absurd e hne
    fidx_range := hx h.params_legal hs
    config_iff_unsupported := iff_of_false hnc (by simp [hs])
    config_runs_nothing := fun hn => by simp [hs] at hn }

/-- A command executed by a running machine keeps the invariant. -/
theorem exec {i : Instr} (h : s.Inv) (hh : s.status.halted = false) (he : exec i s = .next t) : t.Inv := by
  have hs := h.supported_of_running hh
  rcases exec_result he with rfl | ⟨rd, v, hr, rfl⟩ | ⟨a, bs, hr, rfl⟩ | ⟨f, hf, rfl⟩
  · exact h
  · exact h.writeReg v hr hs
  · exact h.memWrite hr
  · exact h.enterFault _ hf hs

/-- A CMD write keeps the invariant: ignored, executed or illegal. -/
theorem issue {w : Word} (h : s.Inv) (hi : issue w s = .next t) : t.Inv := by
  rcases issue_cases hi with ⟨_, rfl⟩ | ⟨hh, i, u, _, he, rfl⟩ | ⟨hh, _, rfl⟩
  · exact h.of_same rfl rfl rfl rfl rfl
  · exact (h.exec hh he).of_same rfl rfl rfl rfl rfl
  · exact (h.enterFault w (checkFault_illegal _) (h.supported_of_running hh)).of_same rfl rfl rfl rfl rfl

end State.Inv

end Invariant

/-! ### What a command commits -/

section CheckPhases

/-- What a command that passes its checks does, with its operands: nothing, a write of its destination register, or a write
inside the buffer it may write (10_state.md R24, 20_memory.md R48). -/
def Committed (i : Instr) (s t : State) : Prop :=
  t = s ∨
  (∃ rd v, destOf i = some rd ∧ t = s.writeReg rd v) ∨
  (∃ a n bs, accessOf s.params i = some (a, n) ∧ readsBmem i = false ∧ bs.length ≤ n ∧ t = s.memWrite a bs)

/-- A check phase of command `i`: what it commits, and that a source that is not valid ends it in UNINIT_REG unless
BUFFER_RANGE comes first (60_exceptions.md R198). -/
structure CheckPhase (i : Instr) (s : State) (c : Check State) : Prop where
  commits : ∀ t, c = .ok t → Committed i s t
  uninit  : ∀ r ∈ sourcesOf i, s.isValid r = false →
    ∃ f, c = .error f ∧ (f.cause = .bufferRange ∨ f.cause = .uninitReg)

variable {i : Instr} {s t : State} {rd rs r1 r2 : Reg} {addr n : Nat}

/-- A read of a register that is not valid ends a check phase in UNINIT_REG (60_exceptions.md R194). -/
theorem readReg_bind_uninit {r : Reg} {k : KPoly → Check State} (h : s.isValid r = false) :
    ∃ f, (readReg s r >>= k) = .error f ∧ (f.cause = .bufferRange ∨ f.cause = .uninitReg) :=
  ⟨_, by rw [readReg_error h, check_error_bind], .inr rfl⟩

/-- The checks of a check phase commit nothing. -/
theorem commits_bind {α : Type} {x : Check α} {k : α → Check State} (hk : ∀ a t, k a = .ok t → Committed i s t) :
    ∀ t, (x >>= k) = .ok t → Committed i s t := fun t h => by
  obtain ⟨a, _, ha⟩ := bind_ok h
  exact hk a t ha

/-- A check phase that ends in a write of the destination register. -/
theorem commits_writeReg {v : KPoly} (hd : destOf i = some rd) :
    ∀ t, (.ok (s.writeReg rd v) : Check State) = .ok t → Committed i s t := fun _ h => by
  cases h
  exact .inr (.inl ⟨rd, v, hd, rfl⟩)

/-- A command that reads no register and commits `t`. -/
theorem checkPhase_ok (ht : Committed i s t) (hsrc : sourcesOf i = []) : CheckPhase i s (.ok t) where
  commits u h := by cases h; exact ht
  uninit r hr := by simp [hsrc] at hr

/-- A command that reads BMEM and writes a register. -/
theorem checkPhase_reader {g : List Byte → KPoly} (hd : destOf i = some rd) (hsrc : sourcesOf i = []) :
    CheckPhase i s (memRead s addr n >>= fun b => .ok (s.writeReg rd (g b))) where
  commits := commits_bind fun _ => commits_writeReg hd
  uninit r hr := by simp [hsrc] at hr

/-- A command that reads a register and writes BMEM. -/
theorem checkPhase_writer {ok : Int → Bool} {g : KPoly → List Byte} (ha : accessOf s.params i = some (addr, n))
    (hw : readsBmem i = false) (hsrc : sourcesOf i = [rs]) (hg : ∀ x, (g x).length ≤ n) :
    CheckPhase i s (checkRange s addr n >>= fun _ => readReg s rs >>= fun x =>
      checkLanes (goodLanes ok x) >>= fun _ => .ok (s.memWrite addr (g x))) where
  commits := commits_bind fun _ => commits_bind fun x => commits_bind fun _ _ h => by
    cases h
    exact .inr (.inr ⟨addr, n, g x, ha, hw, hg x, rfl⟩)
  uninit r hr hv := by
    obtain rfl : r = rs := by simpa [hsrc] using hr
    by_cases hfit : addr + n ≤ s.params.bmemSize
    · rw [checkRange_ok hfit, check_ok_bind]
      exact readReg_bind_uninit hv
    · exact ⟨_, by rw [checkRange_error hfit, check_error_bind], .inl rfl⟩

/-- A command on one register, with a domain check. -/
theorem checkPhase_unary {ok : Int → Bool} {g : KPoly → KPoly} (hd : destOf i = some rd) (hsrc : sourcesOf i = [rd]) :
    CheckPhase i s (readReg s rd >>= fun x => checkLanes (goodLanes ok x) >>= fun _ => .ok (s.writeReg rd (g x))) where
  commits := commits_bind fun _ => commits_bind fun _ => commits_writeReg hd
  uninit r hr hv := by
    obtain rfl : r = rd := by simpa [hsrc] using hr
    exact readReg_bind_uninit hv

/-- A command on one register, with no domain check. -/
theorem checkPhase_total_unary {g : KPoly → KPoly} (hd : destOf i = some rd) (hsrc : sourcesOf i = [rd]) :
    CheckPhase i s (readReg s rd >>= fun x => .ok (s.writeReg rd (g x))) where
  commits := commits_bind fun _ => commits_writeReg hd
  uninit r hr hv := by
    obtain rfl : r = rd := by simpa [hsrc] using hr
    exact readReg_bind_uninit hv

/-- A command on two registers. -/
theorem checkPhase_binary {good : KPoly → KPoly → List Bool} {g : KPoly → KPoly → KPoly} (hd : destOf i = some rd)
    (hsrc : sourcesOf i = [r1, r2]) :
    CheckPhase i s (readReg s r1 >>= fun a => readReg s r2 >>= fun b => checkLanes (good a b) >>= fun _ =>
      .ok (s.writeReg rd (g a b))) where
  commits := commits_bind fun _ => commits_bind fun _ => commits_bind fun _ => commits_writeReg hd
  uninit r hr hv := by
    cases hv1 : s.isValid r1 with
    | false => exact readReg_bind_uninit hv1
    | true =>
      have h2 : s.isValid r2 = false := by
        rcases (by simpa [hsrc] using hr : r = r1 ∨ r = r2) with rfl | rfl
        · simp [hv] at hv1
        · exact hv
      rw [readReg_ok hv1, check_ok_bind]
      exact readReg_bind_uninit h2

/-- Every command is the conclusion of a check phase. -/
theorem exec_checkPhase (i : Instr) (s : State) : ∃ c, exec i s = conclude i s c ∧ CheckPhase i s c := by
  cases i with
  | nop => exact ⟨_, rfl, checkPhase_ok (.inl rfl) rfl⟩
  | pzero rd => exact ⟨_, rfl, checkPhase_ok (.inr (.inl ⟨rd, _, rfl, rfl⟩)) rfl⟩
  | tobytes rs1 addr => exact ⟨_, rfl, checkPhase_writer rfl rfl rfl fun x => (length_serialize x).le⟩
  | frombytes rd addr => exact ⟨_, rfl, checkPhase_reader rfl rfl⟩
  | compress rs1 addr =>
    exact ⟨_, rfl, checkPhase_writer rfl rfl rfl fun x => (length_compressPoly _ x).trans_le (compressBits_le s.params)⟩
  | decompress rd addr => exact ⟨_, rfl, checkPhase_reader rfl rfl⟩
  | getnoise1 rd addr nonce => exact ⟨_, rfl, checkPhase_reader rfl rfl⟩
  | getnoise2 rd addr nonce => exact ⟨_, rfl, checkPhase_reader rfl rfl⟩
  | ntt rd => exact ⟨_, rfl, checkPhase_unary rfl rfl⟩
  | invntt rd => exact ⟨_, rfl, checkPhase_unary rfl rfl⟩
  | basemul rd rs1 rs2 => exact ⟨_, rfl, checkPhase_binary rfl rfl⟩
  | tomont rd => exact ⟨_, rfl, checkPhase_total_unary rfl rfl⟩
  | add rd rs1 => exact ⟨_, rfl, checkPhase_binary rfl rfl⟩
  | sub rd rs1 => exact ⟨_, rfl, checkPhase_binary rfl rfl⟩
  | reduce rd => exact ⟨_, rfl, checkPhase_total_unary rfl rfl⟩
  | frommsg rd addr => exact ⟨_, rfl, checkPhase_reader rfl rfl⟩
  | tomsg rs1 addr => exact ⟨_, rfl, checkPhase_writer rfl rfl rfl fun x => (length_messageBytes x).le⟩

/-- A command commits its own operands' write or enters a fault. -/
theorem exec_committed (h : exec i s = .next t) : Committed i s t ∨ ∃ f, t = s.enterFault f (encode i) := by
  obtain ⟨c, he, hc⟩ := exec_checkPhase i s
  rcases conclude_next (he ▸ h) with ⟨_, ht⟩ | ⟨f, _, _, ht⟩ | ⟨_, ht⟩
  · exact .inl (hc.commits t ht)
  · exact .inr ⟨f, ht⟩
  · exact .inr ⟨_, ht⟩

/-- A command with a source that is not valid enters ILLEGAL, BUFFER_RANGE or UNINIT_REG (60_exceptions.md R194, R198). -/
theorem exec_uninit {r : Reg} (hr : r ∈ sourcesOf i) (hv : s.isValid r = false) :
    ∃ f, exec i s = .next (s.enterFault f (encode i)) ∧
      (f.cause = .illegal ∨ f.cause = .bufferRange ∨ f.cause = .uninitReg) := by
  obtain ⟨c, he, hc⟩ := exec_checkPhase i s
  obtain ⟨f, hf, hcause⟩ := hc.uninit r hr hv
  rw [he]
  cases hw : i.wellFormed s.params.npoly with
  | true => exact ⟨f, conclude_error hw hf, .inr hcause⟩
  | false => exact ⟨illegalFault, conclude_illegal hw, .inl rfl⟩

end CheckPhases

/-! ### The obligations -/

/-- Settles O12: the invariant reads none of what the host's queue changes, and each effect of `step_cases` keeps it. -/
theorem stepKeepsTheInvariant : Obligations.StepKeepsTheInvariant := by
  intro s t hs h
  rcases step_cases h with ⟨rfl, _⟩ | ⟨op, rest, _, hop⟩
  · exact hs
  · have hu : State.Inv { s with host := rest } := hs.of_same rfl rfl rfl rfl rfl
    rcases hop with ⟨_, rfl⟩ | ⟨_, _, _, _, rfl⟩ | ⟨_, _, hi⟩ | ⟨_, _, _, _, _, rfl | ⟨a, bs, hr, rfl⟩⟩
    · exact hu.hostReset
    · exact hu.of_same rfl rfl rfl rfl rfl
    · exact hu.issue hi
    · exact hu
    · exact hu.memWrite hr

/-- Settles O8: by the effects of `step_cases`; a CMD write is the one write at offset 0. -/
theorem pcCountsCommandWrites : Obligations.PcCountsCommandWrites := by
  intro s t op rest hh hb h
  rcases step_cases h with ⟨_, hw⟩ | ⟨op', rest', hh', hop⟩
  · simp [hh, hb] at hw
  · obtain ⟨rfl, rfl⟩ := List.cons.inj (hh.symm.trans hh')
    rcases hop with ⟨rfl, rfl⟩ | ⟨_, _, _, rfl, rfl⟩ | ⟨w, rfl, hi⟩ | ⟨size, o, w, rfl, ho, hu⟩
    · rfl
    · rfl
    · simpa [isCmdWrite] using issue_pc hi
    · have hc : isCmdWrite (.write size o w) = false := by simp [isCmdWrite, ho]
      rcases hu with rfl | ⟨a, bs, _, rfl⟩ <;> simp [hc]

/-- Settles O17: the frame of each of the writes `Committed` lists, and of fault entry. -/
theorem commandsWriteOnlyTheirDestination : Obligations.CommandsWriteOnlyTheirDestination := by
  intro i s t h
  refine ⟨exec_sameRest h, ?_⟩
  rcases exec_committed h with (rfl | ⟨rd, v, hd, rfl⟩ | ⟨a, n, bs, ha, hr, hl, rfl⟩) | ⟨f, rfl⟩
  · exact ⟨fun _ _ => ⟨rfl, rfl⟩, fun _ _ => rfl, .inl fun _ => ⟨rfl, rfl⟩⟩
  · obtain ⟨_, hregs, hbytes, _⟩ := State.writeReg_wroteOnlyReg s rd v
    exact ⟨fun r hne => hregs r fun e => hne (e ▸ hd), fun _ _ => rfl, .inr hbytes⟩
  · obtain ⟨hbytes, hregs, _⟩ := State.memWrite_wroteOnlyBytes s a bs
    refine ⟨fun r _ => hregs r, fun x hx => hbytes x ?_, .inl hregs⟩
    have := hx a n ha hr
    omega
  · exact ⟨fun _ _ => ⟨rfl, rfl⟩, fun _ _ => rfl, .inl fun _ => ⟨rfl, rfl⟩⟩

/-- Settles O18: only a register write touches P or VALID, and it sets the bit; an invalid source is `exec_uninit`. -/
theorem validityBits : Obligations.ValidityBits := by
  refine ⟨fun c r => State.resetOf_isValid r c, fun i s t h r => ?_, fun i s r _ hr hv => ?_⟩
  · rcases exec_result h with rfl | ⟨rd, v, _, rfl⟩ | ⟨a, bs, _, rfl⟩ | ⟨f, _, rfl⟩
    · exact ⟨fun hne => absurd rfl hne, id⟩
    · by_cases he : r = rd
      · subst he
        exact ⟨fun _ => State.isValid_writeReg_self .., fun _ => State.isValid_writeReg_self ..⟩
      · rw [State.poly_writeReg_of_ne _ _ _ he, State.isValid_writeReg_of_ne _ _ _ he]
        exact ⟨fun hne => absurd rfl hne, id⟩
    · exact ⟨fun hne => absurd rfl hne, id⟩
    · exact ⟨fun hne => absurd rfl hne, id⟩
  · obtain ⟨f, he, hc⟩ := exec_uninit hr hv
    exact ⟨_, he, rfl, fun _ => ⟨rfl, rfl⟩, fun _ => rfl, hc⟩

/-- Settles O48: each read answers its register word, whose fields are those of the state. -/
theorem hostReadsTheRegisterWords : Obligations.HostReadsTheRegisterWords := by
  intro s rest hb
  refine ⟨fun hh => ?_, fun hl hh => ?_, fun hl hh => ?_, fun hh => ?_, fun hh => ?_⟩
  · obtain ⟨hbusy, hhalted, h2, hcause, hfidx, h17⟩ := statusWord_fields s
    refine ⟨s.statusWord, step_read_register hh hb rfl (by decide), ?_, hhalted, h2, ?_, hfidx, h17⟩
    · rw [hbusy, hb]; rfl
    · rw [hcause]
      cases s.status.cause <;> rfl
  · obtain ⟨hcb, he1, he2, hnp, h29⟩ := configWord_fields s
    have hr := legal_ranges hl
    refine ⟨s.configWord, step_read_register hh hb rfl (by decide), ?_, ?_, ?_, ?_, h29⟩ <;>
      simp only [hcb, he1, he2, hnp, BitVec.toNat_ofNat] <;> omega
  · obtain ⟨hbm, hsy, h24⟩ := config2Word_fields s
    have hr := legal_ranges hl
    refine ⟨s.config2Word, step_read_register hh hb rfl (by decide), ?_, ?_, h24⟩ <;>
      simp only [hbm, hsy, BitVec.toNat_ofNat] <;> omega
  · exact step_read_register hh hb rfl (by decide)
  · exact step_read_register hh hb rfl (by decide)

/-- Settles O49: both widths are a memory write of the word's bytes. -/
theorem hostWritesBmemLittleEndian : Obligations.HostWritesBmemLittleEndian := by
  intro s a w rest hb hl
  refine ⟨fun ha hr hh => ?_, fun hr hh => ?_⟩
  · have hf : supportedForm 4 (0x1000 + a) = true := by simp [supportedForm]; omega
    have hat : ∀ k, k < 4 → (s.bmem.write a (wordBytes w)).read (a + k) = (wordBytes w)[k]? := fun k hk =>
      Memory.read_write_inside _ _ _ hk
    refine ⟨State.memWrite { s with host := rest } a (wordBytes w),
      (step_eq_perform hh hb).trans (perform_write_bmem w hl (by decide) hr hf),
      State.memWrite_wroteOnlyBytes { s with host := rest } a (wordBytes w), ?_, ?_, ?_, ?_⟩
    · exact hat 0 (by decide)
    · exact hat 1 (by decide)
    · exact hat 2 (by decide)
    · exact hat 3 (by decide)
  · have hf : supportedForm 1 (0x1000 + a) = true := by simp [supportedForm]; omega
    exact ⟨State.memWrite { s with host := rest } a [w.extractLsb' 0 8],
      (step_eq_perform hh hb).trans (perform_write_bmem w hl (by decide) hr hf),
      State.memWrite_wroteOnlyBytes { s with host := rest } a [w.extractLsb' 0 8],
      Memory.read_write_inside s.bmem a [w.extractLsb' 0 8] (k := 0) Nat.one_pos⟩

/-- Settles O54: of the effects of `step_cases`, only a CMD write and a reset reach a register, STATUS or FCMD. -/
theorem hostNeverTouchesRegisters : Obligations.HostNeverTouchesRegisters := by
  intro s t op rest hh hc hr h
  rcases step_cases h with ⟨rfl, _⟩ | ⟨op', rest', hh', hop⟩
  · exact ⟨fun _ => ⟨rfl, rfl⟩, rfl, rfl, rfl⟩
  · obtain ⟨rfl, rfl⟩ := List.cons.inj (hh.symm.trans hh')
    rcases hop with ⟨he, _⟩ | ⟨_, _, _, _, rfl⟩ | ⟨w, rfl, _⟩ | ⟨_, _, _, _, _, rfl | ⟨a, bs, _, rfl⟩⟩
    · exact absurd he hr
    · exact ⟨fun _ => ⟨rfl, rfl⟩, rfl, rfl, rfl⟩
    · exact absurd hc (by simp [isCmdWrite])
    · exact ⟨fun _ => ⟨rfl, rfl⟩, rfl, rfl, rfl⟩
    · exact ⟨fun _ => ⟨rfl, rfl⟩, rfl, rfl, rfl⟩

/-- Settles O5: the step is the CMD write, which runs the decoded command. -/
theorem stepRunsTheDecodedCommand : Obligations.StepRunsTheDecodedCommand := by
  intro s w rest i hh ⟨hhalt, hbusy⟩ hd
  rw [step_eq_perform hh hbusy, perform_cmd, issue_of_decode (s := { s with host := rest }) hhalt hd]
  cases exec i { s with host := rest } <;> rfl

/-- Settles O10: the step is the host's reset. -/
theorem hostResetLeavesResetValues : Obligations.HostResetLeavesResetValues := by
  intro s rest hh hb
  refine ⟨State.hostReset { s with host := rest }, step_eq_perform hh hb, rfl, State.hostReset_isValid _, fun _ => rfl, rfl,
    rfl, ?_, rfl, rfl, rfl, rfl⟩
  simp [Status.reset, Params.supported]

/-- Settles O11: `State.Inv.resetOf`, whose parameters the reset state of 95_test_vectors.md meets. -/
theorem resetStateMeetsTheInvariant : Obligations.ResetStateMeetsTheInvariant :=
  ⟨fun _ => State.Inv.resetOf, State.Inv.resetOf (by decide)⟩

end Sys2Proof.Machine
end

section
/-! The proofs of the family 20_memory.md: first the rules they share (the bits of a stream and the value of a cut, the first
unwritten byte, the waiting machine, the window's reads and writes), then the obligations. -/

namespace Sys2Proof.Machine

open Sys2Proof.Claims

/-! ### The bits of a stream -/

/-- Bit s of the stream of bytes is bit (s mod 8) of byte (s div 8) (20_memory.md R45). -/
theorem getElem?_byteStream {b : List Byte} {s : Nat} (h : s < 8 * b.length) :
    (bitStream 8 (b.map fun x => x.toNat))[s]? = some ((b.getD (s / 8) 0).getLsbD (s % 8)) := by
  have hi : s / 8 < b.length := by omega
  have hs : s / 8 * 8 + s % 8 = s := by omega
  have hbit := getElem?_bitStream 8 (b.map fun x => x.toNat) (i := s / 8) (j := s % 8) (by simpa using hi) (by omega)
  rw [hs] at hbit
  simpa [hi, BitVec.testBit_toNat] using hbit

/-- Bit j of value i lies inside the stream of the first k values. -/
theorem streamIndex_lt {i j k w : Nat} (hi : i < k) (hj : j < w) : i * w + j < k * w := by
  have := Nat.mul_le_mul_right w (show i + 1 ≤ k from hi)
  rw [Nat.succ_mul] at this
  omega

/-- The value of the first w bits of a list is the sum of its bits (20_memory.md R46). -/
theorem natOfBits_take (w : Nat) (bits : List Bool) :
    natOfBits (bits.take w) = ∑ j ∈ Finset.range w, (bits.getD j false).toNat * 2 ^ j := by
  induction w generalizing bits with
  | zero => simp [natOfBits]
  | succ w ih =>
    cases bits with
    | nil => simp [natOfBits]
    | cons b bits =>
      rw [List.take_succ_cons, natOfBits, ih, Finset.sum_range_succ', Finset.mul_sum, add_comm]
      congr 1
      · exact Finset.sum_congr rfl fun j _ => by rw [List.getD_cons_succ, pow_succ]; ring
      · simp

/-- Value i of a cut is the sum of the w stream bits from bit i*w up (20_memory.md R46). -/
theorem getD_fields {w k i : Nat} (bits : List Bool) (h : i < k) :
    (fields w k bits).getD i 0 = ∑ j ∈ Finset.range w, (bits.getD (i * w + j) false).toNat * 2 ^ j := by
  rw [List.getD_eq_getElem?_getD, getElem?_fields w k bits h, Option.getD_some, natOfBits_take]
  simp [List.getD_eq_getElem?_getD]

/-! ### The first unwritten byte -/

/-- The lowest unwritten offset is the one below which every byte is written (20_memory.md R41). -/
theorem firstUnwritten_of_lowest {m : Memory} {addr n k : Nat} (hk : k < n) (hu : m.written (addr + k) = false)
    (hl : ∀ j, j < k → m.written (addr + j) = true) : firstUnwritten m addr n = some k := by
  rw [firstUnwritten, List.find?_range_eq_some]
  exact ⟨by simp [hu], List.mem_range.mpr hk, fun j hj => by simp [hl j hj]⟩

/-! ### Waiting and halted machines -/

section HostAction

variable {s t : State} {op : HostOp} {rest : List HostOp}

/-- While BUSY = 1 every host action but a STATUS read waits (20_memory.md R53). -/
theorem step_waits (hh : s.host = op :: rest) (hb : s.status.busy = true) (ho : op ≠ .read 4 0x004) :
    step s = .next s := by
  simp [step, hostAccess, hh, hb, isStatusRead, ho]

/-- A STATUS read does not wait for BUSY (20_memory.md R53). -/
theorem step_read_status (hh : s.host = .read 4 0x004 :: rest) :
    step s = .next { s with host := rest, replies := s.statusWord :: s.replies } := by
  have hp : step s = perform (.read 4 0x004) { s with host := rest } := by
    simp [step, hostAccess, hh, isStatusRead]
  exact hp.trans (perform_read_register rfl (by decide))

/-- Bit 0 of the STATUS word is BUSY (10_state.md R26). -/
theorem statusWord_bit_busy (s : State) : s.statusWord.getLsbD 0 = s.status.busy := by
  obtain ⟨hbusy, _⟩ := statusWord_fields s
  simpa using congrArg (·.getLsbD 0) hbusy

/-- A halted machine ignores a CMD write: only pc moves (20_memory.md R54). -/
theorem issue_of_halted (w : Word) (hh : s.status.halted = true) : issue w s = .next { s with pc := s.pc + 1 } := by
  simp [issue, advancePc, hh]

/-! ### Accesses outside the registers -/

theorem insideWindow_iff {size o : Nat} : insideWindow size o = true ↔ o < 0x2000 ∧ o + size ≤ 0x2000 := by
  simp [insideWindow]

theorem supportedForm_iff {size o : Nat} :
    supportedForm size o = true ↔ (size = 4 ∧ o % 4 = 0) ∨ (size = 1 ∧ 0x014 ≤ o) := by
  simp [supportedForm]

/-- The step of an idle machine whose host reads in a supported form, inside the window, answers the value and changes nothing
else (20_memory.md R51). -/
theorem step_read {size o : Nat} (hh : s.host = .read size o :: rest) (hb : s.status.busy = false)
    (hi : insideWindow size o = true) (hf : supportedForm size o = true) :
    step s = .next { s with host := rest, replies := readValue size o s :: s.replies } := by
  rw [step_eq_perform hh hb, perform, if_pos hi, if_pos hf]
  rfl

/-- The step of an idle machine whose host writes in a supported form, inside the window, is the write to the register or
bytes it names (20_memory.md R51). -/
theorem step_write {size o : Nat} {w : Word} (hh : s.host = .write size o w :: rest) (hb : s.status.busy = false)
    (hi : insideWindow size o = true) (hf : supportedForm size o = true) :
    step s = writeAccess size o w { s with host := rest } := by
  rw [step_eq_perform hh hb, perform, if_pos hi, if_pos hf]

/-- The host reads a written byte of BMEM (20_memory.md R50). -/
theorem windowByte_of_read {a : Nat} {b : Byte} (ha : a < s.params.bmemSize) (hr : s.bmem.read a = some b) :
    windowByte s (0x1000 + a) = b := by
  simp [windowByte, inBmemWindow, hostByte, ha, hr]

/-- The host reads 0 outside BMEM (20_memory.md R52). -/
theorem windowByte_of_reserved {o : Nat} (ho : inBmemWindow s o = false) : windowByte s o = 0 := by
  simp [windowByte, ho]

/-- A word read of four written bytes is their concatenation, the lowest address in the low byte (20_memory.md R51). -/
theorem readValue_bmem_word {a : Nat} {b0 b1 b2 b3 : Byte} (ha : a + 4 ≤ s.params.bmemSize)
    (h0 : s.bmem.read a = some b0) (h1 : s.bmem.read (a + 1) = some b1) (h2 : s.bmem.read (a + 2) = some b2)
    (h3 : s.bmem.read (a + 3) = some b3) : readValue 4 (0x1000 + a) s = b3 ++ b2 ++ b1 ++ b0 := by
  rw [readValue, if_neg (by omega), if_neg (by decide), windowWord]
  simp only [Nat.add_assoc]
  rw [windowByte_of_read (by omega) h0, windowByte_of_read (by omega) h1, windowByte_of_read (by omega) h2,
    windowByte_of_read (by omega) h3]

/-- A byte read of a written byte is the byte (20_memory.md R51). -/
theorem readValue_bmem_byte {a : Nat} {b : Byte} (ha : a < s.params.bmemSize) (hr : s.bmem.read a = some b) :
    readValue 1 (0x1000 + a) s = b.setWidth 32 := by
  rw [readValue, if_neg (by omega), if_pos rfl, windowByte_of_read ha hr]

/-- The value of four bytes, the last in the low byte. -/
theorem toNat_append_bytes (b3 b2 b1 b0 : Byte) :
    (b3 ++ b2 ++ b1 ++ b0 : Word).toNat = b0.toNat + 2 ^ 8 * b1.toNat + 2 ^ 16 * b2.toNat + 2 ^ 24 * b3.toNat := by
  simp only [BitVec.toNat_append, ← Nat.shiftLeft_add_eq_or_of_lt b0.isLt, ← Nat.shiftLeft_add_eq_or_of_lt b1.isLt,
    ← Nat.shiftLeft_add_eq_or_of_lt b2.isLt]
  simp only [Nat.shiftLeft_eq]
  ring

/-- The offsets of the window that hold neither a register nor a byte of BMEM (20_memory.md R50). -/
def Reserved (c : Params) (o : Nat) : Prop :=
  (0x014 ≤ o ∧ o < 0x1000) ∨ (0x1000 + c.bmemSize ≤ o ∧ o < 0x2000)

/-- The registers end below every reserved offset. -/
theorem Reserved.registers_le {c : Params} {o : Nat} (ho : Reserved c o) : 0x014 ≤ o := by
  unfold Reserved at ho
  omega

/-- No reserved offset is in BMEM. -/
theorem inBmemWindow_of_reserved {o : Nat} (ho : Reserved s.params o) : inBmemWindow s o = false := by
  unfold Reserved at ho
  simp only [inBmemWindow, Bool.and_eq_false_iff, decide_eq_false_iff_not]
  omega

/-- An aligned word that starts at a reserved offset lies in the same reserved range. -/
theorem Reserved.add_of_aligned {c : Params} {o k : Nat} (ho : Reserved c o) (ha : o % 4 = 0) (hk : k < 4) :
    Reserved c (o + k) := by
  unfold Reserved at ho ⊢
  omega

/-- A reserved offset reads 0 in both supported widths (20_memory.md R52). -/
theorem readValue_of_reserved {size o : Nat} (ho : Reserved s.params o)
    (hf : (size = 4 ∧ o % 4 = 0) ∨ size = 1) : readValue size o s = 0 := by
  have hlow := ho.registers_le
  rw [readValue, if_neg (by omega)]
  rcases hf with ⟨rfl, ha⟩ | rfl
  · have hbyte : ∀ k, k < 4 → windowByte s (o + k) = 0 := fun k hk =>
      windowByte_of_reserved (inBmemWindow_of_reserved (ho.add_of_aligned ha hk))
    rw [if_neg (by decide), windowWord, hbyte 3 (by decide), hbyte 2 (by decide), hbyte 1 (by decide),
      show windowByte s o = 0 from hbyte 0 (by decide)]
    rfl
  · rw [if_pos rfl, windowByte_of_reserved (inBmemWindow_of_reserved ho)]
    rfl

/-- A write to a reserved offset is ignored (20_memory.md R52). -/
theorem writeAccess_of_reserved {size o : Nat} (w : Word) (ho : Reserved s.params o) :
    writeAccess size o w s = .next s := by
  have hlow := ho.registers_le
  rw [writeAccess, if_neg (by omega), if_neg (by omega), storeWindow, inBmemWindow_of_reserved ho]
  rfl

/-- A write to a register other than CMD is ignored (20_memory.md R52). -/
theorem writeAccess_of_readOnly {size o : Nat} (w : Word) (h0 : o ≠ 0) (ho : o < 0x014) :
    writeAccess size o w s = .next s := by
  rw [writeAccess, if_neg h0, if_pos ho]

end HostAction

/-! ### The obligations -/

/-- Settles O50: each read answers the value `readValue` has on written bytes. -/
theorem hostReadsBmemLittleEndian : Obligations.HostReadsBmemLittleEndian := by
  intro s a rest b0 b1 b2 b3 hb hl
  have hm := legal_ranges hl
  refine ⟨fun ha hr h0 h1 h2 h3 hh => ?_, fun hr h0 hh => ?_⟩
  · refine ⟨b3 ++ b2 ++ b1 ++ b0, ?_, toNat_append_bytes b3 b2 b1 b0⟩
    rw [step_read hh hb (insideWindow_iff.mpr (by omega)) (supportedForm_iff.mpr (by omega)),
      readValue_bmem_word hr h0 h1 h2 h3]
  · refine ⟨b0.setWidth 32, ?_, BitVec.toNat_setWidth_of_le (by decide)⟩
    rw [step_read hh hb (insideWindow_iff.mpr (by omega)) (supportedForm_iff.mpr (by omega)), readValue_bmem_byte hr h0]

/-- Settles O52: a reserved offset is outside the registers and BMEM, and a word that starts there stays there. -/
theorem reservedOffsetsReadZeroAndIgnoreWrites : Obligations.ReservedOffsetsReadZeroAndIgnoreWrites := by
  intro s size o w rest hb _ hform
  refine ⟨fun ho => ?_, fun hs ho hh => ?_⟩
  · have hres : Reserved s.params o := ho
    have hi : insideWindow size o = true := insideWindow_iff.mpr (by omega)
    have hf : supportedForm size o = true := supportedForm_iff.mpr (by omega)
    refine ⟨fun hh => ?_, fun hh => (step_write hh hb hi hf).trans (writeAccess_of_reserved w hres)⟩
    rw [step_read hh hb hi hf, readValue_of_reserved hres hform]
  · have hreg : o ≠ 0 ∧ o < 0x014 ∧ o % 4 = 0 := by
      simp only [List.mem_cons, List.not_mem_nil, or_false] at ho
      omega
    obtain ⟨h0, hlt, ha⟩ := hreg
    exact (step_write hh hb (insideWindow_iff.mpr (by omega)) (supportedForm_iff.mpr (.inl ⟨hs, ha⟩))).trans
      (writeAccess_of_readOnly w h0 hlt)

/-- Settles O55: the three answers of a memory read are exclusive. -/
theorem memReadChecksThenReturnsTheBytes : Obligations.MemReadChecksThenReturnsTheBytes := by
  intro s addr n
  refine ⟨fun hr => memRead_range (by omega), fun hr k hk hu hl => ?_, fun ⟨hr, hw⟩ => ?_⟩
  · exact memRead_unwritten hr (firstUnwritten_of_lowest hk hu hl)
  · exact ⟨_, memRead_ok hr hw, length_bytesAt _ _ _, fun k hk => getElem?_bytesAt hw hk⟩

/-- Settles O56: the stream of the packed bytes is the stream of the values, whose bit s is read in both. -/
theorem packPlacesEveryBit : Obligations.PackPlacesEveryBit := by
  intro w v hv _
  refine ⟨length_pack w v, fun i j hi hj => ?_⟩
  have hs : i * w + j < 8 * (pack w v).length := by
    have := streamIndex_lt hi hj
    rw [length_pack]
    omega
  have hbytes := getElem?_byteStream hs
  rw [bitStream_pack w v hv, getElem?_bitStream w v hi hj] at hbytes
  rw [List.getD_eq_getElem _ _ hi]
  exact (Option.some.inj hbytes).symm

/-- Settles O57: a cut sums the stream's bits, and the stream of the packed bytes is the stream of the values. -/
theorem unpackUndoesPack : Obligations.UnpackUndoesPack := by
  refine ⟨fun w k b hk i hi => ?_, fun w v hv hlt => ?_⟩
  · rw [unpack, getD_fields _ hi]
    refine Finset.sum_congr rfl fun j hj => ?_
    have hs : i * w + j < 8 * b.length := lt_of_lt_of_le (streamIndex_lt hi (Finset.mem_range.mp hj)) hk
    rw [List.getD_eq_getElem?_getD, getElem?_byteStream hs, Option.getD_some]
  · rw [unpack, bitStream_pack w v hv, fields_bitStream w v hlt]

/-- Settles O6: a CMD write of a halted machine moves only pc, and of the other effects of `step_cases` only a reset reaches
STATUS or FCMD. -/
theorem haltedIgnoresCommands : Obligations.HaltedIgnoresCommands := by
  refine ⟨fun s w rest hh hhalt hb => ?_, fun s t hhalt hr h => ?_⟩
  · rw [step_eq_perform hh hb, perform_cmd, issue_of_halted (s := { s with host := rest }) w hhalt]
  · rcases step_cases h with ⟨rfl, _⟩ | ⟨op, rest, hh, hop⟩
    · exact ⟨rfl, rfl⟩
    · rcases hop with ⟨rfl, _⟩ | ⟨_, _, _, _, rfl⟩ | ⟨w, _, hi⟩ | ⟨_, _, _, _, _, rfl | ⟨_, _, _, rfl⟩⟩
      · exact absurd (by rw [hh]; rfl) hr
      · exact ⟨rfl, rfl⟩
      · rw [issue_of_halted (s := { s with host := rest }) w hhalt] at hi
        cases hi
        exact ⟨rfl, rfl⟩
      · exact ⟨rfl, rfl⟩
      · exact ⟨rfl, rfl⟩

/-- Settles O7: only a STATUS read does not wait for BUSY, and bit 0 of its word is BUSY. -/
theorem waitingHoldsAllState : Obligations.WaitingHoldsAllState := by
  refine ⟨fun s hh => by simp [step, hostAccess, hh], fun s op rest hh hb => ⟨step_waits hh hb, ?_⟩⟩
  rintro rfl
  exact ⟨s.statusWord, (statusWord_bit_busy s).trans hb, step_read_status hh⟩

/-- Settles O53: inside the window the form alone decides. -/
theorem otherHostFormsAreRefused : Obligations.OtherHostFormsAreRefused := by
  intro s size o w rest hb ho hend hword hbyte
  have hi : insideWindow size o = true := insideWindow_iff.mpr ⟨ho, hend⟩
  have hf : ¬supportedForm size o = true := fun h => (supportedForm_iff.mp h).elim hword hbyte
  refine ⟨fun hh => ?_, fun hh => ?_⟩
  · rw [step_eq_perform hh hb, perform, if_pos hi, if_neg hf]
  · rw [step_eq_perform hh hb, perform, if_pos hi, if_neg hf]

end Sys2Proof.Machine
end

section
/-! The proofs of the family 30_encoding.md: first the rules they share (the fields of a word, the must-be-zero fields of a
format, the command of a word; commands in sequence, ADD and SUB), then the obligations. -/

namespace Sys2Proof.Machine

open Sys2Proof.Claims Sys2Proof.Laws

/-! ### The fields of a word -/

section Fields

variable (addr : Addr) (rs2 rs1 rd : Reg) (nonce : Byte) (op : BitVec 8)

/-- The fields of a packed word are what it was packed from (30_encoding.md R61). -/
theorem packWord_fields :
    addrField (packWord addr rs2 rs1 rd op) = addr ∧ rs2Field (packWord addr rs2 rs1 rd op) = rs2 ∧
      rs1Field (packWord addr rs2 rs1 rd op) = rs1 ∧ rdField (packWord addr rs2 rs1 rd op) = rd := by
  unfold packWord addrField rs2Field rs1Field rdField
  simp (disch := omega) only [BitVec.extractLsb'_append_eq_of_le, BitVec.extractLsb'_append_eq_of_add_le]
  simp

/-- The fields of a packed format-N word are what it was packed from (30_encoding.md R61, R62). -/
theorem packNonceWord_fields :
    addrField (packNonceWord addr nonce rd op) = addr ∧ nonceField (packNonceWord addr nonce rd op) = nonce ∧
      rdField (packNonceWord addr nonce rd op) = rd := by
  unfold packNonceWord addrField nonceField rdField
  simp (disch := omega) only [BitVec.extractLsb'_append_eq_of_le, BitVec.extractLsb'_append_eq_of_add_le]
  simp

end Fields

/-- A word is packed from its own fields (30_encoding.md R61). -/
theorem packWord_of_fields (w : Word) :
    packWord (addrField w) (rs2Field w) (rs1Field w) (rdField w) (opcodeField w) = w := by
  unfold packWord addrField rs2Field rs1Field rdField opcodeField
  simp (disch := rfl) only [BitVec.extractLsb'_append_extractLsb'_eq_extractLsb']
  exact BitVec.extractLsb'_eq_self

/-- A word is packed from its own fields, read as a format-N word (30_encoding.md R61, R62). -/
theorem packNonceWord_of_fields (w : Word) :
    packNonceWord (addrField w) (nonceField w) (rdField w) (opcodeField w) = w := by
  unfold packNonceWord addrField nonceField rdField opcodeField
  simp (disch := rfl) only [BitVec.extractLsb'_append_extractLsb'_eq_extractLsb']
  exact BitVec.extractLsb'_eq_self

/-! ### The must-be-zero fields -/

/-- The word passes the format check of `f` (30_encoding.md R66). -/
def Masked (f : Format) (w : Word) : Prop := w &&& f.mask = (opcodeField w).setWidth 32

section Masked

variable {w : Word} {f : Format}

theorem matchesFormat_iff :
    matchesFormat w = true ↔ ∃ f, formatOf (opcodeField w).toNat = some f ∧ Masked f w := by
  unfold matchesFormat
  cases formatOf (opcodeField w).toNat <;> simp [Masked]

/-- A field above the opcode that lies in the mask of the word's format is 0 (30_encoding.md R66). -/
theorem Masked.field_eq_zero (h : Masked f w) {start len : Nat} (hs : 8 ≤ start)
    (hm : f.mask.extractLsb' start len = BitVec.allOnes len) : w.extractLsb' start len = 0 := by
  have hop : ((opcodeField w).setWidth 32).extractLsb' start len = 0 := by
    ext k hk
    simp [BitVec.getLsbD_of_ge _ _ (show 8 ≤ start + k by omega)]
  calc w.extractLsb' start len = (w &&& f.mask).extractLsb' start len := by
        rw [BitVec.extractLsb'_and, hm, BitVec.and_allOnes]
    _ = 0 := by rw [h, hop]

/-! A word that passes the check of its format is packed from the fields the format uses (30_encoding.md R62). -/

theorem Masked.packWord_Z (h : Masked .Z w) : packWord 0 0 0 0 (opcodeField w) = w := by
  have ha : addrField w = 0 := h.field_eq_zero (by decide) (by decide)
  have h2 : rs2Field w = 0 := h.field_eq_zero (by decide) (by decide)
  have h1 : rs1Field w = 0 := h.field_eq_zero (by decide) (by decide)
  have hd : rdField w = 0 := h.field_eq_zero (by decide) (by decide)
  simpa only [ha, h2, h1, hd] using packWord_of_fields w

theorem Masked.packWord_D (h : Masked .D w) : packWord 0 0 0 (rdField w) (opcodeField w) = w := by
  have ha : addrField w = 0 := h.field_eq_zero (by decide) (by decide)
  have h2 : rs2Field w = 0 := h.field_eq_zero (by decide) (by decide)
  have h1 : rs1Field w = 0 := h.field_eq_zero (by decide) (by decide)
  simpa only [ha, h2, h1] using packWord_of_fields w

theorem Masked.packWord_R2 (h : Masked .R2 w) : packWord 0 0 (rs1Field w) (rdField w) (opcodeField w) = w := by
  have ha : addrField w = 0 := h.field_eq_zero (by decide) (by decide)
  have h2 : rs2Field w = 0 := h.field_eq_zero (by decide) (by decide)
  simpa only [ha, h2] using packWord_of_fields w

theorem Masked.packWord_R3 (h : Masked .R3 w) :
    packWord 0 (rs2Field w) (rs1Field w) (rdField w) (opcodeField w) = w := by
  have ha : addrField w = 0 := h.field_eq_zero (by decide) (by decide)
  simpa only [ha] using packWord_of_fields w

theorem Masked.packWord_S (h : Masked .S w) : packWord (addrField w) 0 (rs1Field w) 0 (opcodeField w) = w := by
  have h2 : rs2Field w = 0 := h.field_eq_zero (by decide) (by decide)
  have hd : rdField w = 0 := h.field_eq_zero (by decide) (by decide)
  simpa only [h2, hd] using packWord_of_fields w

theorem Masked.packWord_L (h : Masked .L w) : packWord (addrField w) 0 0 (rdField w) (opcodeField w) = w := by
  have h2 : rs2Field w = 0 := h.field_eq_zero (by decide) (by decide)
  have h1 : rs1Field w = 0 := h.field_eq_zero (by decide) (by decide)
  simpa only [h2, h1] using packWord_of_fields w

end Masked

/-! ### The command of a word -/

section Command

variable {npoly : Nat} {w : Word} {i : Instr}

/-- The three checks of R68: the format of the opcode, the command of the opcode, its register fields. -/
theorem decode_eq_some_iff :
    decode npoly w = some i ↔
      matchesFormat w = true ∧ commandOf (opcodeField w).toNat w = some i ∧ i.wellFormed npoly = true := by
  unfold decode
  cases matchesFormat w
  · simp
  · cases commandOf (opcodeField w).toNat w
    · simp
    · simp only [if_true, Option.ite_none_right_eq_some, Option.some.injEq, true_and]
      constructor
      · rintro ⟨hw, rfl⟩
        exact ⟨rfl, hw⟩
      · rintro ⟨rfl, hw⟩
        exact ⟨hw, rfl⟩

/-- The word of every command matches its opcode and the mask of its format (30_encoding.md R66). -/
theorem encodingMatch (i : Instr) : EncodingMatch.Statement i := by
  cases i with
  | nop => exact EncodingMatch.nop
  | pzero rd => exact EncodingMatch.pzero rd
  | tobytes rs1 addr => exact EncodingMatch.tobytes rs1 addr
  | frombytes rd addr => exact EncodingMatch.frombytes rd addr
  | compress rs1 addr => exact EncodingMatch.compress rs1 addr
  | decompress rd addr => exact EncodingMatch.decompress rd addr
  | getnoise1 rd addr nonce => exact EncodingMatch.getnoise1 rd addr nonce
  | getnoise2 rd addr nonce => exact EncodingMatch.getnoise2 rd addr nonce
  | ntt rd => exact EncodingMatch.ntt rd
  | invntt rd => exact EncodingMatch.invntt rd
  | basemul rd rs1 rs2 => exact EncodingMatch.basemul rd rs1 rs2
  | tomont rd => exact EncodingMatch.tomont rd
  | add rd rs1 => exact EncodingMatch.add rd rs1
  | sub rd rs1 => exact EncodingMatch.sub rd rs1
  | reduce rd => exact EncodingMatch.reduce rd
  | frommsg rd addr => exact EncodingMatch.frommsg rd addr
  | tomsg rs1 addr => exact EncodingMatch.tomsg rs1 addr

theorem opcodeField_encode (i : Instr) : opcodeField (encode i) = i.opcode := by
  obtain ⟨_, hop, _⟩ := encodingMatch i
  exact hop

theorem formatOf_opcode (i : Instr) : formatOf i.opcode.toNat = some i.format := by
  obtain ⟨_, _, hfmt⟩ := encodingMatch i
  exact hfmt

theorem matchesFormat_encode (i : Instr) : matchesFormat (encode i) = true := by
  obtain ⟨hmask, hop, hfmt⟩ := encodingMatch i
  rw [← hop] at hmask hfmt
  exact matchesFormat_iff.mpr ⟨i.format, hfmt, hmask⟩

/-- The command of an opcode has this opcode (30_encoding.md R65). -/
theorem opcode_of_commandOf {op : Nat} (h : commandOf op w = some i) : op = i.opcode.toNat := by
  unfold commandOf at h
  split at h <;> cases h <;> rfl

/-- The word of a command carries all its operands: the command of its opcode and its fields is the command itself. -/
theorem commandOf_encode (i : Instr) : commandOf i.opcode.toNat (encode i) = some i := by
  cases i <;> simp [commandOf, encode, Instr.opcode, packWord_fields, packNonceWord_fields]

/-- A word with the opcode and the operands of `i`, in the format of `i`, is the word of `i` (30_encoding.md R66). -/
theorem encode_eq_of_masked (hop : opcodeField w = i.opcode) (hm : Masked i.format w)
    (hc : commandOf i.opcode.toNat w = some i) : encode i = w := by
  cases i with
  | nop => rw [encode, ← hop, hm.packWord_Z]
  | pzero rd | ntt rd | invntt rd | tomont rd | reduce rd =>
    cases hc
    rw [encode, ← hop, hm.packWord_D]
  | add rd rs1 | sub rd rs1 =>
    cases hc
    rw [encode, ← hop, hm.packWord_R2]
  | basemul rd rs1 rs2 =>
    cases hc
    rw [encode, ← hop, hm.packWord_R3]
  | tobytes rs1 addr | compress rs1 addr | tomsg rs1 addr =>
    cases hc
    rw [encode, ← hop, hm.packWord_S]
  | frombytes rd addr | decompress rd addr | frommsg rd addr =>
    cases hc
    rw [encode, ← hop, hm.packWord_L]
  | getnoise1 rd addr nonce | getnoise2 rd addr nonce =>
    cases hc
    rw [encode, ← hop, packNonceWord_of_fields w]

/-- Every register field is below 16, so every command exists on a machine with 16 registers (30_encoding.md R64). -/
theorem wellFormed_sixteen (i : Instr) : i.wellFormed 16 = true :=
  List.all_eq_true.mpr fun r _ => decide_eq_true r.isLt

end Command

/-! ### Commands in sequence -/

section Sequence

variable {s t : State} {i : Instr} {is : List Instr} {rd rs1 : Reg}

/-- A command that leaves the machine running is followed by the rest of the sequence (10_state.md R30). -/
theorem execSeq_cons (h : exec i s = .next t) (hr : t.status.halted = false) : execSeq (i :: is) s = execSeq is t := by
  simp [execSeq, h, hr]

/-- A sequence ends as its last command does. -/
theorem execSeq_singleton (h : exec i s = .next t) : execSeq [i] s = .next t := by
  simp [execSeq, h]

/-- PZERO writes the zero polynomial to a register that exists (41_construction.md R101). -/
theorem exec_pzero (hd : rd.toNat < s.params.npoly) : exec (.pzero rd) s = .next (s.writeReg rd KPoly.zero) :=
  conclude_ok (by simpa [Instr.wellFormed, Instr.regs] using hd) rfl

/-- A write of another register keeps a register readable. -/
theorem readable_writeReg_of_ne {r : Reg} (v : KPoly) (h : Readable s r) (hne : r ≠ rd) :
    Readable (s.writeReg rd v) r :=
  ⟨h.1, (State.isValid_writeReg_of_ne s rd v hne).trans h.2⟩

/-- A register that exists is readable once it is written. -/
theorem readable_writeReg_self (v : KPoly) (hd : rd.toNat < s.params.npoly) : Readable (s.writeReg rd v) rd :=
  ⟨hd, State.isValid_writeReg_self s rd v⟩

/-- The second of two writes of a register is the one that counts. -/
theorem writeReg_writeReg (s : State) (r : Reg) (v v' : KPoly) : (s.writeReg r v).writeReg r v' = s.writeReg r v' := by
  simp [State.writeReg]

end Sequence

/-! ### The exact sum and difference -/

section Exact

variable {s : State} {rd rs1 : Reg} {f : Int → Int → Int}

/-- The check phase that ADD and SUB share (46_arithmetic.md R170, R171, R173). -/
def exactPhase (f : Int → Int → Int) (rd rs1 : Reg) (s : State) : Check State := do
  let a ← readReg s rd
  let b ← readReg s rs1
  checkLanes (goodResults f a b)
  .ok (s.writeReg rd (exactLanes f a b))

/-- Where every exact result is an int16, the results are written. -/
theorem exactPhase_ok (hd : s.isValid rd = true) (hs : s.isValid rs1 = true)
    (hfit : ∀ k, k < 256 → Config.inInt16 (f ((s.poly rd).lane k) ((s.poly rs1).lane k)) = true) :
    exactPhase f rd rs1 s = .ok (s.writeReg rd (exactLanes f (s.poly rd) (s.poly rs1))) := by
  rw [exactPhase, readReg_ok hd, check_ok_bind, readReg_ok hs, check_ok_bind, checkLanes_ok (goodResults_all.mpr hfit),
    check_ok_bind]

/-- Where some exact result is no int16, the fault is COEFF_RANGE at the lowest such lane (46_arithmetic.md R173). -/
theorem exactPhase_overflow (hd : s.isValid rd = true) (hs : s.isValid rs1 = true) {k : Nat} (hk : k < 256)
    (hbad : Config.inInt16 (f ((s.poly rd).lane k) ((s.poly rs1).lane k)) = false) :
    ∃ l, l < 256 ∧ Config.inInt16 (f ((s.poly rd).lane l) ((s.poly rs1).lane l)) = false ∧
      (∀ j, j < l → Config.inInt16 (f ((s.poly rd).lane j) ((s.poly rs1).lane j)) = true) ∧
      exactPhase f rd rs1 s = .error ⟨.coeffRange, BitVec.ofNat 9 l⟩ := by
  rcases checkLanes_cases (goodResults f (s.poly rd) (s.poly rs1)) with ⟨_, hall⟩ | ⟨l, hl, hlbad, hbelow, he⟩
  · rw [goodResults_all.mp hall k hk] at hbad
    cases hbad
  · have hl' : l < 256 := by simpa using hl
    rw [getElem_goodResults _ _ _ hl'] at hlbad
    refine ⟨l, hl', hlbad, fun j hj => ?_, ?_⟩
    · rw [← getElem_goodResults f _ _ (hj.trans hl')]
      exact hbelow j hj
    · rw [exactPhase, readReg_ok hd, check_ok_bind, readReg_ok hs, check_ok_bind, he, check_error_bind]

theorem wellFormed_add (hd : Readable s rd) (hs : Readable s rs1) :
    (Instr.add rd rs1).wellFormed s.params.npoly = true := by
  simp [Instr.wellFormed, Instr.regs, hd.1, hs.1]

theorem wellFormed_sub (hd : Readable s rd) (hs : Readable s rs1) :
    (Instr.sub rd rs1).wellFormed s.params.npoly = true := by
  simp [Instr.wellFormed, Instr.regs, hd.1, hs.1]

/-- ADD writes the exact sum where every lane of it is an int16 (46_arithmetic.md R170). -/
theorem exec_add_of_fits (hd : Readable s rd) (hs : Readable s rs1)
    (hfit : ∀ k, k < 256 → Config.inInt16 (sumLane ((s.poly rd).lane k) ((s.poly rs1).lane k)) = true) :
    exec (.add rd rs1) s = .next (s.writeReg rd (exactLanes sumLane (s.poly rd) (s.poly rs1))) :=
  conclude_ok (wellFormed_add hd hs) (exactPhase_ok hd.2 hs.2 hfit)

/-- SUB writes the exact difference where every lane of it is an int16 (46_arithmetic.md R171). -/
theorem exec_sub_of_fits (hd : Readable s rd) (hs : Readable s rs1)
    (hfit : ∀ k, k < 256 → Config.inInt16 (diffLane ((s.poly rd).lane k) ((s.poly rs1).lane k)) = true) :
    exec (.sub rd rs1) s = .next (s.writeReg rd (exactLanes diffLane (s.poly rd) (s.poly rs1))) :=
  conclude_ok (wellFormed_sub hd hs) (exactPhase_ok hd.2 hs.2 hfit)

/-- SUB enters COEFF_RANGE where some lane of the exact difference is no int16 (46_arithmetic.md R173). -/
theorem exec_sub_of_overflow (hd : Readable s rd) (hs : Readable s rs1) {k : Nat} (hk : k < 256)
    (hbad : Config.inInt16 (diffLane ((s.poly rd).lane k) ((s.poly rs1).lane k)) = false) :
    ∃ l, exec (.sub rd rs1) s = .next (s.enterFault ⟨.coeffRange, BitVec.ofNat 9 l⟩ (encode (.sub rd rs1))) := by
  obtain ⟨l, _, _, _, he⟩ := exactPhase_overflow hd.2 hs.2 hk hbad
  exact ⟨l, conclude_error (wellFormed_sub hd hs) he⟩

end Exact

/-! ### Sums and differences with the zero polynomial -/

section Zero

variable (p : KPoly) (k : Nat)

theorem inInt16_iff {x : Int} : Config.inInt16 x = true ↔ -32768 ≤ x ∧ x ≤ 32767 := by
  simp [Config.inInt16]

theorem sumLane_zero : sumLane (KPoly.zero.lane k) (p.lane k) = p.lane k := by
  rw [sumLane, KPoly.lane_zero, zero_add]

theorem diffLane_zero : diffLane (p.lane k) (KPoly.zero.lane k) = 0 - p.lane k := by
  rw [diffLane, KPoly.lane_zero]

/-- 0 + x never overflows int16 (30_encoding.md R70). -/
theorem sumLane_zero_fits : Config.inInt16 (sumLane (KPoly.zero.lane k) (p.lane k)) = true := by
  rw [sumLane_zero, inInt16_iff]
  exact toInt_int16 (p.coeff k)

/-- 0 − x leaves int16 only for x = −32768 (30_encoding.md R70). -/
theorem diffLane_zero_fits_iff : Config.inInt16 (diffLane (p.lane k) (KPoly.zero.lane k)) = true ↔ p.lane k ≠ -32768 := by
  have hrange : -32768 ≤ p.lane k ∧ p.lane k ≤ 32767 := toInt_int16 (p.coeff k)
  rw [diffLane_zero, inInt16_iff]
  omega

/-- The exact sum of the zero polynomial and a polynomial is the polynomial. -/
theorem exactLanes_sum_zero : exactLanes sumLane KPoly.zero p = p :=
  KPoly.ext_coeff fun k hk => coeff_eq_of_toInt <|
    (lane_exactLanes sumLane KPoly.zero p hk (sumLane_zero_fits p k)).trans (sumLane_zero p k)

end Zero

/-! ### The pseudo-instructions -/

section Pseudo

variable {s : State} {pd ps pt : Reg}

/-- pmov writes P[ps] to P[pd] and nothing else (30_encoding.md R70). -/
theorem execSeq_pmov (hrun : Running s) (hne : pd ≠ ps) (hd : pd.toNat < s.params.npoly) (hs : Readable s ps) :
    execSeq (Pseudo.pmov pd ps).expand s = .next (s.writeReg pd (s.poly ps)) := by
  have hsrc : (s.writeReg pd KPoly.zero).poly ps = s.poly ps := State.poly_writeReg_of_ne _ _ _ hne.symm
  have hadd := exec_add_of_fits (readable_writeReg_self KPoly.zero hd) (readable_writeReg_of_ne KPoly.zero hs hne.symm)
    fun k _ => by
      rw [State.poly_writeReg_self]
      exact sumLane_zero_fits _ k
  rw [State.poly_writeReg_self, hsrc, exactLanes_sum_zero, writeReg_writeReg] at hadd
  exact (execSeq_cons (exec_pzero hd) hrun.1).trans (execSeq_singleton hadd)

/-- pneg is SUB on the machine whose scratch register is zero (30_encoding.md R70). -/
theorem execSeq_pneg (hrun : Running s) (ht : pt.toNat < s.params.npoly) {t : State}
    (hsub : exec (.sub pd pt) (s.writeReg pt KPoly.zero) = .next t) :
    execSeq (Pseudo.pneg pd pt).expand s = .next t :=
  (execSeq_cons (exec_pzero ht) hrun.1).trans (execSeq_singleton hsub)

/-- With no coefficient −32768, pneg writes the exact difference of zero and P[pd]. -/
theorem execSeq_pneg_of_fits (hrun : Running s) (hne : pd ≠ pt) (ht : pt.toNat < s.params.npoly) (hd : Readable s pd)
    (hfit : ∀ k, k < 256 → (s.poly pd).lane k ≠ -32768) :
    execSeq (Pseudo.pneg pd pt).expand s =
      .next ((s.writeReg pt KPoly.zero).writeReg pd (exactLanes diffLane (s.poly pd) KPoly.zero)) := by
  have hsrc : (s.writeReg pt KPoly.zero).poly pd = s.poly pd := State.poly_writeReg_of_ne _ _ _ hne
  have hsub := exec_sub_of_fits (readable_writeReg_of_ne KPoly.zero hd hne) (readable_writeReg_self KPoly.zero ht)
    fun k hk => by
      rw [State.poly_writeReg_self, hsrc]
      exact (diffLane_zero_fits_iff _ k).mpr (hfit k hk)
  rw [State.poly_writeReg_self, hsrc] at hsub
  exact execSeq_pneg hrun ht hsub

/-- With a coefficient −32768, pneg halts with COEFF_RANGE. -/
theorem execSeq_pneg_of_overflow (hrun : Running s) (hne : pd ≠ pt) (ht : pt.toNat < s.params.npoly)
    (hd : Readable s pd) {k : Nat} (hk : k < 256) (hbad : (s.poly pd).lane k = -32768) :
    ∃ t, execSeq (Pseudo.pneg pd pt).expand s = .next t ∧ t.status.halted = true ∧ t.status.cause = .coeffRange := by
  have hsrc : (s.writeReg pt KPoly.zero).poly pd = s.poly pd := State.poly_writeReg_of_ne _ _ _ hne
  obtain ⟨l, hsub⟩ := exec_sub_of_overflow (readable_writeReg_of_ne KPoly.zero hd hne)
    (readable_writeReg_self KPoly.zero ht) hk (by
      rw [State.poly_writeReg_self, hsrc, ← Bool.not_eq_true, diffLane_zero_fits_iff]
      exact not_not_intro hbad)
  exact ⟨_, execSeq_pneg hrun ht hsub, rfl, rfl⟩

end Pseudo

/-! ### The obligations -/

/-- Settles O1: the word passes the format check, and its fields are the operands. -/
theorem decodeEncodeRoundTrip : Obligations.DecodeEncodeRoundTrip := by
  intro npoly i hw
  refine decode_eq_some_iff.mpr ⟨matchesFormat_encode i, ?_, hw⟩
  rw [opcodeField_encode]
  exact commandOf_encode i

/-- Settles O2: the format check leaves only the fields the command holds. -/
theorem decodedWordIsItsEncoding : Obligations.DecodedWordIsItsEncoding := by
  intro npoly w i h
  obtain ⟨hmatch, hcmd, hw⟩ := decode_eq_some_iff.mp h
  obtain ⟨f, hfmt, hmask⟩ := matchesFormat_iff.mp hmatch
  have hop : opcodeField w = i.opcode := BitVec.eq_of_toNat_eq (opcode_of_commandOf hcmd)
  rw [hop] at hcmd hfmt
  obtain rfl : i.format = f := Option.some.inj ((formatOf_opcode i).symm.trans hfmt)
  exact ⟨encode_eq_of_masked hop hmask hcmd, hw⟩

/-- Settles O47: pmov adds to zero, which fits every lane; pneg subtracts from zero, which fits every lane but −32768. -/
theorem pseudoInstructionsMeanTheirExpansion : Obligations.PseudoInstructionsMeanTheirExpansion := by
  refine ⟨fun _ => rfl, ?_, ?_⟩
  · intro pd ps s hrun hwf hd hs
    have hne : pd ≠ ps := by simpa [Pseudo.wellFormed] using hwf
    exact ⟨_, execSeq_pmov hrun hne hd hs, State.writeReg_wroteOnlyReg s pd _, State.poly_writeReg_self s pd _⟩
  · intro pd pt s hrun hwf ht hd
    have hne : pd ≠ pt := by simpa [Pseudo.wellFormed] using hwf
    refine ⟨fun hfit => ?_, fun ⟨k, hk, hbad⟩ => execSeq_pneg_of_overflow hrun hne ht hd hk hbad⟩
    refine ⟨_, execSeq_pneg_of_fits hrun hne ht hd hfit, rfl, fun k hk => ⟨?_, ?_⟩⟩
    · have hfits := (diffLane_zero_fits_iff (s.poly pd) k).mpr (hfit k hk)
      rw [State.poly_writeReg_self, lane_exactLanes _ _ _ hk hfits, diffLane_zero]
    · rw [State.poly_writeReg_of_ne _ _ _ hne.symm, State.poly_writeReg_self, KPoly.lane_zero]

/-- Settles O4: each word is the encoding of its command, and the round trip decodes it. -/
theorem workedEncodings : Obligations.WorkedEncodings := by
  intro p hp
  have henc : encode p.2 = p.1 := by
    revert p
    decide
  exact ⟨henc ▸ decodeEncodeRoundTrip 16 p.2 (wellFormed_sixteen p.2), henc⟩

end Sys2Proof.Machine
end

section
/-! The proofs of the family 40_datapath_primitives.md: first the rules they share (the scalar functions as floor divisions,
the default Montgomery and Barrett circuits, the packed buffer a command reads or writes, the check phases that pass), then
the obligations. -/

namespace Sys2Proof.Machine

open Sys2Proof.Claims

/-! ### Rounding and multiply-and-shift -/

/-- m/Q rounded to the nearest integer, as a floor division (Q is odd, so no half occurs). -/
theorem roundDiv_eq (m : Nat) : (2 * m + 3329) / (2 * 3329) = (m + 1664) / 3329 := by omega

theorem compressD_eq_floor (d u : Nat) : compressD d u = (2 ^ d * u + 1664) / 3329 % 2 ^ d := by
  rw [compressD, ← roundDiv_eq, pow_succ, mul_comm (2 ^ d) 2, mul_assoc]

/-- 80635/2^28 is a little below 1/3329, so it divides one less than its argument (40_datapath_primitives.md R90, R93). -/
theorem mulShift28_eq_div {n : Nat} (h : n ≤ 60000) : (n + 1) * 80635 / 2 ^ 28 = n / 3329 := by
  have hn := Nat.div_add_mod n 3329
  have hr := Nat.mod_lt n (show 3329 > 0 by decide)
  rw [Nat.div_eq_iff (by decide)]
  omega

/-- 40318/2^27 is a little above 1/3329 (40_datapath_primitives.md R90). -/
theorem mulShift27_eq_div {n : Nat} (h : n ≤ 110000) : n * 40318 / 2 ^ 27 = n / 3329 := by
  have hn := Nat.div_add_mod n 3329
  have hr := Nat.mod_lt n (show 3329 > 0 by decide)
  rw [Nat.div_eq_iff (by decide)]
  omega

theorem msgBit_eq_floor {x : Nat} (h : x < 3329) : msgBit x = (2 * x + 1664) / 3329 % 2 := by
  rw [msgBit, Nat.and_one_is_mod, Nat.shiftRight_eq_div_pow, Nat.shiftLeft_eq, ← mulShift28_eq_div (by omega)]
  congr 3
  omega

/-- MsgBit is 1 exactly on [833, 2496] (40_datapath_primitives.md R93). -/
theorem msgBit_eq_ite {x : Nat} (h : x < 3329) : msgBit x = if 833 ≤ x ∧ x ≤ 2496 then 1 else 0 := by
  rw [msgBit_eq_floor h]
  split <;> omega

/-- The top four bits of the 32-bit accumulator are those of the unwrapped product. -/
theorem compressFixed4_eq {u : Nat} (h : u < 3329) : compressFixed4 u = compressD 4 u := by
  rw [compressD_eq_floor, ← mulShift28_eq_div (by omega), compressFixed4, Nat.shiftRight_eq_div_pow, Nat.shiftLeft_eq,
    show 0xF = 2 ^ 4 - 1 by decide, Nat.and_two_pow_sub_one_eq_mod, show 2 ^ 32 = 2 ^ 28 * 2 ^ 4 by decide,
    Nat.mod_mul_right_div_self, Nat.mod_mod, mul_comm u]

/-- The top five bits of the 32-bit accumulator are those of the unwrapped product. -/
theorem compressFixed5_eq {u : Nat} (h : u < 3329) : compressFixed5 u = compressD 5 u := by
  rw [compressD_eq_floor, ← mulShift27_eq_div (by omega), compressFixed5, Nat.shiftRight_eq_div_pow, Nat.shiftLeft_eq,
    show 0x1F = 2 ^ 5 - 1 by decide, Nat.and_two_pow_sub_one_eq_mod, show 2 ^ 32 = 2 ^ 27 * 2 ^ 5 by decide,
    Nat.mod_mul_right_div_self, Nat.mod_mod, mul_comm u]

/-! ### The default reductions -/

/-- The quotient digit of the Montgomery circuit is a·Q^-1 mod 2^16 (40_datapath_primitives.md R87). -/
theorem montDigit_emod (a : BitVec 32) : (a.setWidth 16 * 62209#16).toInt % 65536 = a.toInt * 62209 % 65536 := by
  have hlow : (a.setWidth 16).toInt % 65536 = a.toInt % 65536 := by
    have hmod := Int.bmod_emod (x := a.toNat) (m := 2 ^ 16)
    rw [BitVec.toInt_setWidth, BitVec.toInt_eq_toNat_cond a]
    split <;> omega
  have hmod := Int.bmod_emod (x := (a.setWidth 16).toInt * (62209#16).toInt) (m := 2 ^ 16)
  rw [← BitVec.toInt_mul, show (62209#16).toInt = -3327 by decide] at hmod
  omega

/-- The Montgomery circuit divides exactly: its result is a − t·Q over 2^16 with t the int16 quotient digit. -/
theorem montReduceRef_mul (a : BitVec 32) (h₁ : -109084672 ≤ a.toInt) (h₂ : a.toInt ≤ 109084671) :
    (montReduceRef a).toInt * 65536 = a.toInt - (a.setWidth 16 * 62209#16).toInt * 3329 := by
  have ht := toInt_int16 (a.setWidth 16 * 62209#16)
  have hmod := montDigit_emod a
  rw [montReduceRef, toInt_ofInt16 (by omega) (by omega)]
  omega

/-- The Barrett quotient leaves the centered residue (40_datapath_primitives.md R85). -/
theorem barrettRef_toInt (x : Coeff) :
    (barrettRef x).toInt % 3329 = x.toInt % 3329 ∧ -1665 ≤ (barrettRef x).toInt ∧ (barrettRef x).toInt ≤ 1665 := by
  have hx := toInt_int16 x
  rw [barrettRef, toInt_ofInt16 (by omega) (by omega)]
  omega

theorem barrettCircuit_eq (x : Coeff) : barrettCircuit x = barrettReduce x := by
  obtain ⟨hmod, hlo, hhi⟩ := barrettRef_toInt x
  apply coeff_eq_of_toInt
  rw [barrettCircuit, signFix_toInt, barrettReduce_toInt]
  split <;> omega

/-! ### Packed buffers -/

section Buffers

variable {s : State} {addr n w : Nat}

theorem byteAt_testBit (s : State) (a j : Nat) : (byteAt s a).testBit j = ((s.bmem.read a).getD 0).getLsbD j :=
  BitVec.testBit_toNat _

theorem getD_bytesAt (m : Memory) {k : Nat} (h : k < n) : (bytesAt m addr n).getD k 0 = (m.read (addr + k)).getD 0 := by
  simp [bytesAt, h]

/-- Value i unpacked from the bytes of a buffer is the value its stream bits give (20_memory.md R46). -/
theorem getD_unpack_bytesAt {k i : Nat} (hk : k * w ≤ 8 * n) (hi : i < k) :
    (unpack w k (bytesAt s.bmem addr n)).getD i 0 = valueAt s addr w i := by
  rw [unpackUndoesPack.1 w k _ (by rwa [length_bytesAt]) i hi]
  refine Finset.sum_congr rfl fun j hj => ?_
  have hs := streamIndex_lt hi (Finset.mem_range.mp hj)
  rw [getD_bytesAt _ (by omega), streamBit, byteAt_testBit]

/-- Coefficient i of the register unpacked from a buffer is the image of value i of the buffer. -/
theorem coeff_unpackPoly_bytesAt {f : Nat → Coeff} {i : Nat} (hn : 256 * w ≤ 8 * n) (hi : i < 256) :
    (unpackPoly w f (bytesAt s.bmem addr n)).coeff i = f (valueAt s addr w i) := by
  rw [← getD_unpack_bytesAt hn hi]
  simp [KPoly.coeff, unpackPoly, Vector.toList, hi]

/-- A packed value of width 1 is its stream bit. -/
theorem valueAt_one (s : State) (addr i : Nat) : valueAt s addr 1 i = (streamBit s addr i).toNat := by
  simp [valueAt]

/-- Stream bit 8i + j is bit j of byte i (20_memory.md R45). -/
theorem streamBit_byte (s : State) (addr i : Nat) {j : Nat} (hj : j < 8) :
    streamBit s addr (8 * i + j) = (byteAt s (addr + i)).testBit j := by
  rw [streamBit, show (8 * i + j) / 8 = i by omega, show (8 * i + j) % 8 = j by omega]

/-- The stream of the bytes just written to a buffer. -/
theorem streamBit_memWrite (s : State) (addr : Nat) {bs : List Byte} {j : Nat} (h : j < 8 * bs.length) :
    some (streamBit (s.memWrite addr bs) addr j) = (bitStream 8 (bs.map fun b => b.toNat))[j]? := by
  rw [getElem?_byteStream h, streamBit, byteAt_testBit, State.memWrite_bmem,
    Memory.read_write_inside _ _ _ (by omega), List.getD_eq_getElem?_getD]

/-- A command that packs a register into a buffer leaves the packed values there (20_memory.md R45). -/
theorem memWrite_packPoly_holds (s : State) (addr w : Nat) (f : Coeff → Nat) (p : KPoly) :
    HoldsPacked (s.memWrite addr (packPoly w f p)) addr (32 * w) w fun i => f (p.coeff i) := by
  have hlen := length_packPoly w f p
  refine ⟨fun k hk => ?_, fun j hj => ?_⟩
  · rw [State.memWrite_bmem, Memory.written_write, hlen]
    simp [hk]
  · have hw : 0 < w := by omega
    have hi : j / w < 256 := Nat.div_lt_of_lt_mul (by rw [mul_comm]; omega)
    have hbit := streamBit_memWrite s addr (bs := packPoly w f p) (j := j) (by omega)
    rw [packPoly, bitStream_pack _ _ (by simp; omega), ← Nat.div_add_mod' j w,
      getElem?_bitStream w _ (by simpa using hi) (Nat.mod_lt j hw), Nat.div_add_mod'] at hbit
    simpa [packPoly, KPoly.coeff_eq_getElem p hi] using hbit

end Buffers

/-! ### Check phases that pass -/

section Phases

variable {s : State} {rd rs : Reg} {addr n : Nat}

/-- A command on one register with no domain check writes its result. -/
theorem totalUnaryPhase_ok {g : KPoly → KPoly} (hv : s.isValid rd = true) :
    (readReg s rd >>= fun x => (.ok (s.writeReg rd (g x)) : Check State)) = .ok (s.writeReg rd (g (s.poly rd))) := by
  rw [readReg_ok hv, check_ok_bind]

/-- A command that reads a written buffer writes the register made of its bytes. -/
theorem readerPhase_ok {g : List Byte → KPoly} (hb : BytesReadable s addr n) :
    (memRead s addr n >>= fun b => (.ok (s.writeReg rd (g b)) : Check State)) =
      .ok (s.writeReg rd (g (bytesAt s.bmem addr n))) := by
  obtain ⟨hrange, hwritten⟩ := hb
  rw [memRead_ok hrange hwritten, check_ok_bind]

/-- A command that stores a register of its domain writes its bytes. -/
theorem writerPhase_ok {ok : Int → Bool} {g : KPoly → List Byte} (hr : addr + n ≤ s.params.bmemSize)
    (hv : s.isValid rs = true) (hdom : ∀ i, i < 256 → ok ((s.poly rs).lane i) = true) :
    (checkRange s addr n >>= fun _ => readReg s rs >>= fun x => checkLanes (goodLanes ok x) >>= fun _ =>
      (.ok (s.memWrite addr (g x)) : Check State)) = .ok (s.memWrite addr (g (s.poly rs))) := by
  rw [checkRange_ok hr, check_ok_bind, readReg_ok hv, check_ok_bind, checkLanes_ok (goodLanes_all.mpr hdom), check_ok_bind]

/-- TOMONT writes its scalar function of every lane (45_ntt.md R158). -/
theorem exec_tomont (h : Readable s rd) :
    exec (.tomont rd) s = .next (s.writeReg rd (KPoly.mapLanes (tomontLane Config.prims.fns) (s.poly rd))) :=
  conclude_ok (by simpa [Instr.wellFormed, Instr.regs] using h.1) (totalUnaryPhase_ok h.2)

/-- REDUCE writes the reduced polynomial (46_arithmetic.md R172). -/
theorem exec_reduce (h : Readable s rd) : exec (.reduce rd) s = .next (s.writeReg rd (reducePoly (s.poly rd))) :=
  conclude_ok (by simpa [Instr.wellFormed, Instr.regs] using h.1) (totalUnaryPhase_ok h.2)

/-- FROMMSG writes the polynomial of the 32 message bytes (47_message.md R180). -/
theorem exec_frommsg {addr : Addr} (hd : rd.toNat < s.params.npoly) (hb : BytesReadable s addr.toNat 32) :
    exec (.frommsg rd addr) s = .next (s.writeReg rd (messagePoly (bytesAt s.bmem addr.toNat 32))) :=
  conclude_ok (by simpa [Instr.wellFormed, Instr.regs] using hd) (readerPhase_ok hb)

/-- TOMSG of a canonical register writes its message bytes (47_message.md R181). -/
theorem exec_tomsg {addr : Addr} (h : Readable s rs) (hr : addr.toNat + 32 ≤ s.params.bmemSize)
    (hdom : LanesIn s rs 0 3328) :
    exec (.tomsg rs addr) s = .next (s.memWrite addr.toNat (messageBytes (s.poly rs))) :=
  conclude_ok (by simpa [Instr.wellFormed, Instr.regs] using h.1)
    (writerPhase_ok hr h.2 fun i hi => by simpa [Config.inCanonical] using hdom i hi)

end Phases

/-! ### Lanes -/

/-- A canonical polynomial is its own reduction. -/
theorem reducePoly_reducePoly (p : KPoly) : reducePoly (reducePoly p) = reducePoly p :=
  KPoly.ext_coeff fun i hi => coeff_eq_of_toInt <| by
    change (reducePoly (reducePoly p)).lane i = (reducePoly p).lane i
    rw [lane_reducePoly _ hi, lane_reducePoly _ hi, Int.emod_emod]

/-- MsgSym of a bit, as an integer (40_datapath_primitives.md R92). -/
theorem msgSym_toInt (b : Bool) : (msgSym b.toNat).toInt = if b then 1665 else 0 := by
  cases b <;> rfl

/-- MsgBit of a canonical coefficient, by its integer value (40_datapath_primitives.md R93). -/
theorem testBit_msgBit {c : Coeff} (h : 0 ≤ c.toInt ∧ c.toInt ≤ 3328) :
    (msgBit c.toNat).testBit 0 = decide (833 ≤ c.toInt ∧ c.toInt ≤ 2496) := by
  have hc : (c.toNat : Int) = c.toInt := by
    have := BitVec.toInt_eq_toNat_cond c
    split at this <;> omega
  rw [msgBit_eq_ite (by omega), apply_ite (Nat.testBit · 0)]
  simp [← hc]

/-! ### The obligations -/

/-- Settles O29: TOMONT is `tomontLane` on every lane; (−Q, Q) and 0 mod Q leave only 0 for 0. -/
theorem tomontLiftsEveryCoefficient : Obligations.TomontLiftsEveryCoefficient := by
  intro rd s h
  have hcoeff : ∀ i, i < 256 → (KPoly.mapLanes (tomontLane Config.prims.fns) (s.poly rd)).coeff i =
      tomontLane Config.prims.fns ((s.poly rd).coeff i) := fun i hi => KPoly.coeff_mapLanes _ _ hi
  refine ⟨_, exec_tomont h, State.writeReg_wroteOnlyReg s rd _, fun i hi => ?_, fun i hi => ?_⟩
  · obtain ⟨_, hlo, hhi⟩ := tomontLane_spec ((s.poly rd).coeff i)
    rw [State.poly_writeReg_self, KPoly.lane, hcoeff i hi]
    omega
  · obtain ⟨hmod, hlo, hhi⟩ := tomontLane_spec ((s.poly rd).coeff i)
    rw [State.poly_writeReg_self, KPoly.lane, KPoly.lane, hcoeff i hi]
    refine ⟨hmod, fun hzero => ?_, rfl⟩
    rw [hzero] at hmod
    omega

/-- Settles O33: REDUCE is `reducePoly`, which is idempotent. -/
theorem reduceWritesTheCanonicalResidue : Obligations.ReduceWritesTheCanonicalResidue := by
  intro rd s h
  have hlane : ∀ i, i < 256 → ((s.writeReg rd (reducePoly (s.poly rd))).poly rd).lane i = (s.poly rd).lane i % 3329 :=
    fun i hi => by rw [State.poly_writeReg_self, lane_reducePoly _ hi]
  refine ⟨_, exec_reduce h, State.writeReg_wroteOnlyReg s rd _, fun i hi => ?_, hlane, ?_⟩
  · rw [hlane i hi]
    omega
  · rw [exec_reduce (readable_writeReg_self _ h.1), State.poly_writeReg_self, reducePoly_reducePoly, writeReg_writeReg]

/-- Settles O34: coefficient 8i + j is MsgSym of stream bit 8i + j, which is bit j of byte i. -/
theorem frommsgWritesTheSymbols : Obligations.FrommsgWritesTheSymbols := by
  intro rd addr s hd hb
  refine ⟨_, exec_frommsg hd hb, State.writeReg_wroteOnlyReg s rd _, fun i j hi hj => ?_⟩
  rw [State.poly_writeReg_self, KPoly.lane, messagePoly, coeff_unpackPoly_bytesAt (by decide) (by omega), valueAt_one,
    msgSym_toInt, streamBit_byte s _ i hj]

/-- Settles O35: bit j of byte i is stream bit 8i + j, which is MsgBit of coefficient 8i + j. -/
theorem tomsgWritesTheDecodedBits : Obligations.TomsgWritesTheDecodedBits := by
  intro rs1 addr s h hr hdom
  obtain ⟨hwritten, hbits⟩ := memWrite_packPoly_holds s addr.toNat 1 (fun c => msgBit c.toNat) (s.poly rs1)
  have hframe := State.memWrite_wroteOnlyBytes s addr.toNat (messageBytes (s.poly rs1))
  rw [length_messageBytes] at hframe
  refine ⟨_, exec_tomsg h hr hdom, hframe, fun i hi => ⟨hwritten i hi, fun j hj => ?_⟩⟩
  rw [← streamBit_byte _ _ i hj, messageBytes, hbits _ (by omega), Nat.div_one, Nat.mod_one]
  exact testBit_msgBit (hdom _ (by omega))

/-- Settles O58: the integer forms of the two functions; on [−Q, Q) the sign fix lands in [0, Q). -/
theorem signFixAndBarrettReduce : Obligations.SignFixAndBarrettReduce := by
  refine ⟨signFix_toInt, fun x hlo hhi => ?_, barrettReduce_toInt⟩
  rw [signFix_toInt]
  split <;> omega

/-- Settles O59: on [0, Q) MsgBit is the parity of a floor division, which is the rounding. -/
theorem messageSymbolAndBit : Obligations.MessageSymbolAndBit := by
  refine ⟨msgSym_zero, msgSym_toInt true, fun x hx => ⟨msgBit_eq_ite hx, ?_⟩⟩
  rw [msgBit_eq_floor hx, ← roundDiv_eq, mul_comm (2 * x) 2]

/-- Settles O60: M1 and M2 follow from the exact division by 2^16. -/
theorem referenceCircuitsMeetTheirRules : Obligations.ReferenceCircuitsMeetTheirRules := by
  refine ⟨fun a hlo hhi => ?_, barrettCircuit_eq, fun u hu => ⟨compressFixed4_eq hu, compressFixed5_eq hu⟩⟩
  have ht := toInt_int16 (a.setWidth 16 * 62209#16)
  have hmul := montReduceRef_mul a hlo hhi
  refine ⟨?_, by omega, by omega⟩
  change (montReduceRef a).toInt * 65536 % 3329 = a.toInt % 3329
  omega

end Sys2Proof.Machine
end

section
/-! The proofs of the family 41_construction.md. PZERO's rule, `exec_pzero`, stands with the pseudo-instructions that use it. -/

namespace Sys2Proof.Machine

/-- Settles O19: NOP names no register, so it is well formed on every machine, and its check phase passes with the state
as it was. -/
theorem nopChangesNothing : Obligations.NopChangesNothing := by
  intro s
  have hw : Instr.nop.wellFormed s.params.npoly = true := rfl
  exact conclude_ok hw rfl

/-- Settles O20: PZERO is one register write, whose frame is that of every register write. -/
theorem pzeroWritesTheZeroPolynomial : Obligations.PzeroWritesTheZeroPolynomial := by
  intro rd s hd
  refine ⟨_, exec_pzero hd, fun i _ => ?_, State.writeReg_wroteOnlyReg s rd _⟩
  rw [State.poly_writeReg_self, KPoly.lane_zero]

end Sys2Proof.Machine
end

section
/-! The proofs of the family 42_serialization.md: the values packed in a buffer and the bytes that hold them, the two commands
on operands that pass their checks and on a lane outside TOBYTES's domain, then the obligations. -/

namespace Sys2Proof.Machine

open Sys2Proof.Claims

/-! ### Packed values and the bytes that hold them -/

section Values

variable {s t : State} {addr n w : Nat}

/-- A packed value is the number its stream bits spell (20_memory.md R46). -/
theorem valueAt_eq_natOfBits (s : State) (addr w i : Nat) :
    valueAt s addr w i = natOfBits ((List.range w).map fun j => streamBit s addr (i * w + j)) := by
  have hsum := natOfBits_take w ((List.range w).map fun j => streamBit s addr (i * w + j))
  rw [List.take_of_length_le (by simp)] at hsum
  rw [hsum, valueAt]
  exact Finset.sum_congr rfl fun j hj => by simp [Finset.mem_range.mp hj]

/-- Bit j of value i is stream bit i*w + j. -/
theorem testBit_valueAt (s : State) (addr i : Nat) {j : Nat} (hj : j < w) :
    (valueAt s addr w i).testBit j = streamBit s addr (i * w + j) := by
  rw [valueAt_eq_natOfBits, testBit_natOfBits]
  simp [hj]

theorem valueAt_lt (s : State) (addr w i : Nat) : valueAt s addr w i < 2 ^ w := by
  rw [valueAt_eq_natOfBits]
  simpa using natOfBits_lt ((List.range w).map fun j => streamBit s addr (i * w + j))

/-- Two numbers below 2^w with the same w low bits are one number. -/
theorem eq_of_low_bits {x y : Nat} (hx : x < 2 ^ w) (hy : y < 2 ^ w) (h : ∀ j, j < w → x.testBit j = y.testBit j) :
    x = y := by
  refine Nat.eq_of_testBit_eq fun j => ?_
  rcases Nat.lt_or_ge j w with hj | hj
  · exact h j hj
  · have hpow : 2 ^ w ≤ 2 ^ j := Nat.pow_le_pow_right (by decide) hj
    rw [Nat.testBit_lt_two_pow (hx.trans_le hpow), Nat.testBit_lt_two_pow (hy.trans_le hpow)]

/-- Reading a packed buffer at the width it was packed with gives its values back. -/
theorem valueAt_of_holdsPacked {v : Nat → Nat} (h : HoldsPacked s addr n w v) {i : Nat} (hi : (i + 1) * w ≤ 8 * n)
    (hv : v i < 2 ^ w) : valueAt s addr w i = v i := by
  refine eq_of_low_bits (valueAt_lt s addr w i) hv fun j hj => ?_
  have hlast : i * w + j < 8 * n := by rw [Nat.succ_mul] at hi; omega
  have hindex : (i * w + j) / w = i ∧ (i * w + j) % w = j := by
    rw [Nat.mul_comm, Nat.mul_add_div (by omega), Nat.mul_add_mod, Nat.div_eq_of_lt hj, Nat.mod_eq_of_lt hj]
    exact ⟨rfl, rfl⟩
  rw [testBit_valueAt s addr i hj, h.2 _ hlast, hindex.1, hindex.2]

theorem byteAt_lt (s : State) (a : Nat) : byteAt s a < 2 ^ 8 := BitVec.isLt _

/-- A written byte reads as its number. -/
theorem read_eq_byteAt {a : Nat} (h : s.bmem.written a = true) : s.bmem.read a = some (BitVec.ofNat 8 (byteAt s a)) := by
  obtain ⟨b, hb⟩ := Option.isSome_iff_exists.mp h
  simp [byteAt, hb]

/-- Value 2j of width 12 is byte 3j and the low half of byte 3j + 1; value 2j + 1 is the high half and byte 3j + 2
(42_serialization.md R111). -/
theorem valueAt_pair (s : State) (addr j : Nat) :
    let b0 := byteAt s (addr + 3 * j)
    let b1 := byteAt s (addr + 3 * j + 1)
    let b2 := byteAt s (addr + 3 * j + 2)
    valueAt s addr 12 (2 * j) = b0 + b1 % 16 * 256 ∧ valueAt s addr 12 (2 * j + 1) = b1 / 16 + b2 * 16 := by
  intro b0 b1 b2
  have h0 : b0 < 2 ^ 8 := byteAt_lt _ _
  have h1 : b1 < 2 ^ 8 := byteAt_lt _ _
  have h2 : b2 < 2 ^ 8 := byteAt_lt _ _
  constructor
  · rw [show b0 + b1 % 16 * 256 = 2 ^ 8 * (b1 % 2 ^ 4) + b0 by omega]
    refine eq_of_low_bits (valueAt_lt _ _ _ _) (by omega) fun k hk => ?_
    rw [testBit_valueAt _ _ _ hk, Nat.testBit_two_pow_mul_add _ h0]
    split
    · rw [show 2 * j * 12 + k = 8 * (3 * j) + k by omega, streamBit_byte _ _ _ (by omega)]
    · rw [show 2 * j * 12 + k = 8 * (3 * j + 1) + (k - 8) by omega, streamBit_byte _ _ _ (by omega),
        Nat.testBit_mod_two_pow, decide_eq_true (by omega), Bool.true_and, ← Nat.add_assoc]
  · rw [show b1 / 16 + b2 * 16 = 2 ^ 4 * b2 + b1 / 2 ^ 4 by omega]
    refine eq_of_low_bits (valueAt_lt _ _ _ _) (by omega) fun k hk => ?_
    rw [testBit_valueAt _ _ _ hk, Nat.testBit_two_pow_mul_add _ (by omega)]
    split
    · rw [show (2 * j + 1) * 12 + k = 8 * (3 * j + 1) + (4 + k) by omega, streamBit_byte _ _ _ (by omega),
        Nat.testBit_div_two_pow, ← Nat.add_assoc, Nat.add_comm 4 k]
    · rw [show (2 * j + 1) * 12 + k = 8 * (3 * j + 2) + (k - 4) by omega, streamBit_byte _ _ _ (by omega),
        ← Nat.add_assoc]

/-- Three bytes are determined by the two values of width 12 they hold (42_serialization.md R110). -/
theorem byteAt_triple (s : State) (addr j : Nat) :
    let u0 := valueAt s addr 12 (2 * j)
    let u1 := valueAt s addr 12 (2 * j + 1)
    byteAt s (addr + 3 * j) = u0 % 256 ∧ byteAt s (addr + 3 * j + 1) = u0 / 256 + u1 % 16 * 16 ∧
      byteAt s (addr + 3 * j + 2) = u1 / 16 := by
  obtain ⟨hu0, hu1⟩ := valueAt_pair s addr j
  have h0 := byteAt_lt s (addr + 3 * j)
  have h1 := byteAt_lt s (addr + 3 * j + 1)
  intro u0 u1
  omega

/-- The bytes just written can be read back. -/
theorem bytesReadable_memWrite {bs : List Byte} (h : addr + bs.length ≤ s.params.bmemSize) :
    BytesReadable (s.memWrite addr bs) addr bs.length :=
  ⟨h, fun _ hk => by simp [Memory.written_write, hk]⟩

/-- Two buffers that hold the same 256 values of width 12 hold the same 384 bytes. -/
theorem byteAt_eq_of_valueAt_eq {addr' : Nat} (h : ∀ i, i < 256 → valueAt t addr' 12 i = valueAt s addr 12 i) {k : Nat}
    (hk : k < 384) : byteAt t (addr' + k) = byteAt s (addr + k) := by
  refine eq_of_low_bits (byteAt_lt _ _) (byteAt_lt _ _) fun b hb => ?_
  have hindex : 8 * k + b = (8 * k + b) / 12 * 12 + (8 * k + b) % 12 := by omega
  have hlt : (8 * k + b) % 12 < 12 := by omega
  rw [← streamBit_byte t _ _ hb, ← streamBit_byte s _ _ hb, hindex, ← testBit_valueAt t _ _ hlt,
    ← testBit_valueAt s _ _ hlt, h _ (by omega)]

end Values

/-! ### Serialized registers -/

section Registers

variable {s : State} {rs : Reg}

/-- SignFix of a coefficient of TOBYTES's domain, as the rule's formula gives it (40_datapath_primitives.md R82). -/
theorem signFix_toNat_eq_fixed {x : Coeff} (h : -3329 ≤ x.toInt ∧ x.toInt ≤ 3328) :
    (signFix x).toNat = fixed x.toInt := by
  obtain ⟨hmod, _⟩ := signFix_toNat x (by simpa [Config.inSignFix] using h)
  rw [fixed]
  split <;> omega

theorem fixed_lt {x : Int} (h : -3329 ≤ x ∧ x ≤ 3328) : fixed x < 3329 := by
  rw [fixed]
  split <;> omega

/-- An integer that is not negative is its own sign fix. -/
theorem fixed_of_nonneg {x : Int} (h : 0 ≤ x) : (fixed x : Int) = x := by
  rw [fixed, if_neg (by omega), Int.toNat_of_nonneg h]

/-- The buffer TOBYTES writes holds the sign-fixed coefficients (42_serialization.md R110). -/
theorem valueAt_memWrite_serialize (addr : Nat) (hdom : LanesIn s rs (-3329) 3328) {i : Nat} (hi : i < 256) :
    valueAt (s.memWrite addr (serialize (s.poly rs))) addr 12 i = fixed ((s.poly rs).lane i) := by
  have hfix : (signFix ((s.poly rs).coeff i)).toNat = fixed ((s.poly rs).lane i) := signFix_toNat_eq_fixed (hdom i hi)
  have hlt := fixed_lt (hdom i hi)
  rw [← hfix] at hlt ⊢
  exact valueAt_of_holdsPacked (memWrite_packPoly_holds s addr 12 _ _) (by omega) (by omega)

/-- The register FROMBYTES writes holds the twelve-bit values of the buffer (42_serialization.md R111). -/
theorem lane_deserialize (s : State) (addr : Nat) {i : Nat} (hi : i < 256) :
    (deserialize (bytesAt s.bmem addr 384)).lane i = valueAt s addr 12 i := by
  have hlt := valueAt_lt s addr 12 i
  rw [KPoly.lane, deserialize, coeff_unpackPoly_bytesAt (by decide) hi, BitVec.toInt_eq_toNat_cond, BitVec.toNat_ofNat]
  split <;> omega

end Registers

/-! ### The two commands -/

section Commands

variable {s : State} {rd rs : Reg} {addr : Addr}

/-- FROMBYTES writes the register of the 384 bytes (42_serialization.md R111). -/
theorem exec_frombytes (hd : rd.toNat < s.params.npoly) (hb : BytesReadable s addr.toNat 384) :
    exec (.frombytes rd addr) s = .next (s.writeReg rd (deserialize (bytesAt s.bmem addr.toNat 384))) :=
  conclude_ok (by simpa [Instr.wellFormed, Instr.regs] using hd) (readerPhase_ok hb)

/-- TOBYTES of a register of its domain writes its 384 bytes (42_serialization.md R110). -/
theorem exec_tobytes (h : Readable s rs) (hr : addr.toNat + 384 ≤ s.params.bmemSize) (hdom : LanesIn s rs (-3329) 3328) :
    exec (.tobytes rs addr) s = .next (s.memWrite addr.toNat (serialize (s.poly rs))) :=
  conclude_ok (by simpa [Instr.wellFormed, Instr.regs] using h.1)
    (writerPhase_ok hr h.2 fun i hi => by simpa [Config.inSignFix] using hdom i hi)

/-- FROMBYTES writes a register whose lanes are the twelve-bit values of the buffer. -/
theorem exec_frombytes_lanes (hd : rd.toNat < s.params.npoly) (hb : BytesReadable s addr.toNat 384) :
    ∃ p, exec (.frombytes rd addr) s = .next (s.writeReg rd p) ∧
      ∀ i, i < 256 → p.lane i = valueAt s addr.toNat 12 i :=
  ⟨_, exec_frombytes hd hb, fun _ hi => lane_deserialize s _ hi⟩

/-- TOBYTES writes 384 bytes, which can be read back and hold the sign-fixed coefficients. -/
theorem exec_tobytes_values (h : Readable s rs) (hr : addr.toNat + 384 ≤ s.params.bmemSize)
    (hdom : LanesIn s rs (-3329) 3328) :
    ∃ bs, exec (.tobytes rs addr) s = .next (s.memWrite addr.toNat bs) ∧ bs.length = 384 ∧
      BytesReadable (s.memWrite addr.toNat bs) addr.toNat 384 ∧
      ∀ i, i < 256 → valueAt (s.memWrite addr.toNat bs) addr.toNat 12 i = fixed ((s.poly rs).lane i) := by
  have hlen := length_serialize (s.poly rs)
  have hread := bytesReadable_memWrite (s := s) (addr := addr.toNat) (bs := serialize (s.poly rs)) (by rwa [hlen])
  rw [hlen] at hread
  exact ⟨_, exec_tobytes h hr hdom, hlen, hread, fun _ hi => valueAt_memWrite_serialize _ hdom hi⟩

/-- A command that stores a register enters COEFF_RANGE at the lowest lane outside its domain (60_exceptions.md R193). -/
theorem writerPhase_coeffRange {a n k : Nat} {ok : Int → Bool} {g : KPoly → List Byte} (hr : a + n ≤ s.params.bmemSize)
    (hv : s.isValid rs = true) (hk : k < 256) (hbad : ok ((s.poly rs).lane k) = false)
    (hlow : ∀ i, i < k → ok ((s.poly rs).lane i) = true) :
    (checkRange s a n >>= fun _ => readReg s rs >>= fun x => checkLanes (goodLanes ok x) >>= fun _ =>
      (.ok (s.memWrite a (g x)) : Check State)) = .error ⟨.coeffRange, BitVec.ofNat 9 k⟩ := by
  have hlanes : checkLanes (goodLanes ok (s.poly rs)) = .error ⟨.coeffRange, BitVec.ofNat 9 k⟩ :=
    checkLanes_error (by simpa using hk) ((getElem_goodLanes ok _ hk).trans hbad) fun i hi =>
      (getElem_goodLanes ok _ (hi.trans hk)).trans (hlow i hi)
  rw [checkRange_ok hr, check_ok_bind, readReg_ok hv, check_ok_bind, hlanes, check_error_bind]

/-- TOBYTES faults at the lowest coefficient outside [-Q, Q) (42_serialization.md R110). -/
theorem exec_tobytes_coeffRange (h : Readable s rs) (hr : addr.toNat + 384 ≤ s.params.bmemSize) {k : Nat} (hk : k < 256)
    (hbad : 3328 < (s.poly rs).lane k) (hlow : ∀ i, i < k → -3329 ≤ (s.poly rs).lane i ∧ (s.poly rs).lane i ≤ 3328) :
    exec (.tobytes rs addr) s =
      .next (s.enterFault ⟨.coeffRange, BitVec.ofNat 9 k⟩ (encode (.tobytes rs addr))) :=
  conclude_error (by simpa [Instr.wellFormed, Instr.regs] using h.1)
    (writerPhase_coeffRange hr h.2 hk (by simp [Config.inSignFix, hbad])
      fun i hi => by simpa [Config.inSignFix] using hlow i hi)

end Commands

/-! ### The obligations -/

/-- Settles O21: the buffer holds the sign-fixed coefficients at width 12, and two such values give their three bytes. -/
theorem tobytesWritesTheSerialization : Obligations.TobytesWritesTheSerialization := by
  intro rs1 addr s h hr hdom
  obtain ⟨bs, hexec, hlen, ⟨_, hwritten⟩, hvalue⟩ := exec_tobytes_values h hr hdom
  have hframe := State.memWrite_wroteOnlyBytes s addr.toNat bs
  rw [hlen] at hframe
  refine ⟨_, hexec, hframe, fun j hj => ?_⟩
  obtain ⟨h0, h1, h2⟩ := byteAt_triple (s.memWrite addr.toNat bs) addr.toNat j
  rw [hvalue (2 * j) (by omega)] at h0 h1
  rw [hvalue (2 * j + 1) (by omega)] at h1 h2
  dsimp only
  rw [← h0, ← h1, ← h2]
  exact ⟨read_eq_byteAt (hwritten (3 * j) (by omega)), read_eq_byteAt (hwritten (3 * j + 1) (by omega)),
    read_eq_byteAt (hwritten (3 * j + 2) (by omega))⟩

/-- Settles O22: a lane is the twelve-bit value of the buffer, and three bytes give two such values. -/
theorem frombytesReadsTheSerialization : Obligations.FrombytesReadsTheSerialization := by
  intro rd addr s hd hb
  obtain ⟨p, hexec, hlane⟩ := exec_frombytes_lanes hd hb
  refine ⟨_, hexec, State.writeReg_wroteOnlyReg s rd p, fun j hj => ?_⟩
  obtain ⟨hlow, hhigh⟩ := valueAt_pair s addr.toNat j
  rw [State.poly_writeReg_self, hlane _ (by omega), hlane _ (by omega), hlow, hhigh]
  constructor <;> push_cast <;> rfl

/-- Settles O36: FROMBYTES reads the values TOBYTES packed, and a canonical coefficient is its own sign fix. -/
theorem serializationRoundTrip : Obligations.SerializationRoundTrip := by
  intro rs1 rd addr s hrun h hd hr hdom
  obtain ⟨bs, hto, _, hb, hvalue⟩ := exec_tobytes_values h hr hdom
  obtain ⟨p, hfrom, hlane⟩ := exec_frombytes_lanes (s := s.memWrite addr.toNat bs) hd hb
  have hfixed : ∀ i, i < 256 → p.lane i = fixed ((s.poly rs1).lane i) := fun i hi => by rw [hlane i hi, hvalue i hi]
  refine ⟨_, (execSeq_cons hto hrun.1).trans (execSeq_singleton hfrom), rfl, ?_, fun hcanon => ?_⟩ <;>
    rw [State.poly_writeReg_self]
  · exact hfixed
  · exact KPoly.ext_coeff fun i hi => coeff_eq_of_toInt ((hfixed i hi).trans (fixed_of_nonneg (hcanon i hi).1))

/-- Settles O37: FROMBYTES makes the twelve-bit values the lanes; below 3329 they are their own sign fix and TOBYTES packs
them again, and the first one above is the first lane outside TOBYTES's domain. -/
theorem reverseSerializationRoundTrip : Obligations.ReverseSerializationRoundTrip := by
  intro r addr dst s hrun hd hb hr
  obtain ⟨p, hfrom, hlane⟩ := exec_frombytes_lanes hd hb
  have hseq : ∀ t, exec (.tobytes r dst) (s.writeReg r p) = .next t →
      execSeq [.frombytes r addr, .tobytes r dst] s = .next t :=
    fun t hto => (execSeq_cons hfrom hrun.1).trans (execSeq_singleton hto)
  have hreg := readable_writeReg_self p hd
  have hpoly := State.poly_writeReg_self s r p
  have hdom : ∀ i, i < 256 → valueAt s addr.toNat 12 i < 3329 →
      -3329 ≤ ((s.writeReg r p).poly r).lane i ∧ ((s.writeReg r p).poly r).lane i ≤ 3328 := fun i hi hsmall => by
    rw [hpoly, hlane i hi]
    omega
  refine ⟨fun hsmall => ?_, fun k hk hbad hlow => ?_⟩
  · obtain ⟨bs, hto, _, hb', hfixed⟩ := exec_tobytes_values hreg hr fun i hi => hdom i hi (hsmall i hi)
    have hvalue : ∀ i, i < 256 → valueAt ((s.writeReg r p).memWrite dst.toNat bs) dst.toNat 12 i =
        valueAt s addr.toNat 12 i := fun i hi => by
      rw [hfixed i hi, hpoly, hlane i hi]
      exact_mod_cast fixed_of_nonneg (Int.natCast_nonneg _)
    refine ⟨_, hseq _ hto, rfl, fun k hk => ?_⟩
    rw [read_eq_byteAt (hb'.2 k hk), byteAt_eq_of_valueAt_eq hvalue hk, read_eq_byteAt (hb.2 k hk)]
  · have hto := exec_tobytes_coeffRange hreg hr hk (by rw [hpoly, hlane k hk]; exact_mod_cast hbad)
      fun i hi => hdom i (hi.trans hk) (hlow i hi)
    exact ⟨_, hseq _ hto, rfl, rfl, rfl, fun _ => rfl⟩

end Sys2Proof.Machine
end

section
/-! The proofs of the family 43_compression.md: the width a supported CBYTES gives, the two rounding functions (R89, R91) and
how far apart they are from inverses, the two commands on operands that pass their checks, then the obligations. -/

namespace Sys2Proof.Machine

open Sys2Proof.Claims

/-! ### The width D -/

section Width

variable {c : Params}

/-- The two supported widths and their D (43_compression.md R120). -/
theorem supported_width (h : c.supported = true) : c.cbytes = 128 ∧ widthD c = 4 ∨ c.cbytes = 160 ∧ widthD c = 5 := by
  simp only [Params.supported, Bool.or_eq_true, beq_iff_eq] at h
  rcases h with h | h <;> simp [widthD, h]

/-- 256 coefficients of D bits fill the CBYTES bytes. -/
theorem widthD_bytes (h : c.supported = true) : 32 * widthD c = c.cbytes := by
  have := supported_width h
  omega

theorem compressBits_eq_widthD (h : c.supported = true) : c.compressBits = widthD c := by
  have hbits := compressBits_eq h
  have hbytes := widthD_bytes h
  omega

theorem widthD_range (h : c.supported = true) : 1 ≤ widthD c ∧ widthD c ≤ 12 := by
  have := supported_width h
  omega

end Width

/-! ### The rounding functions -/

section Rounding

variable {d y : Nat}

theorem compressed_lt (d u : Nat) : compressed d u < 2 ^ d := compressD_lt d u

theorem compressed_zero (d : Nat) : compressed d 0 = 0 := by simp [compressed]

theorem decompressD_eq_decompressed (d y : Nat) : decompressD d y = decompressed d y := Nat.shiftRight_eq_div_pow _ _

/-- Decompress_d rounds y*Q/2^d to the nearest integer (40_datapath_primitives.md R91). -/
theorem decompressed_nearest (hd : 1 ≤ d) (y : Nat) :
    2 ^ (d + 1) * decompressed d y ≤ 2 * 3329 * y + 2 ^ d ∧
      2 * 3329 * y + 2 ≤ 2 ^ (d + 1) * decompressed d y + 2 ^ d := by
  obtain ⟨k, rfl⟩ := Nat.exists_eq_add_of_le' hd
  have hdiv := Nat.div_add_mod (y * 3329 + 2 ^ k) (2 ^ (k + 1))
  have hmod := Nat.mod_lt (y * 3329 + 2 ^ k) (Nat.two_pow_pos (k + 1))
  simp only [decompressed, Nat.add_sub_cancel]
  rw [pow_succ 2 (k + 1), mul_comm (2 ^ (k + 1)) 2, mul_assoc]
  omega

/-- Compress_d before its reduction rounds 2^d*u/Q to the nearest integer (40_datapath_primitives.md R89). -/
theorem compress_quotient_nearest (d u : Nat) :
    2 * 3329 * ((2 ^ (d + 1) * u + 3329) / (2 * 3329)) ≤ 2 ^ (d + 1) * u + 3329 ∧
      2 ^ (d + 1) * u < 2 * 3329 * ((2 ^ (d + 1) * u + 3329) / (2 * 3329)) + 3329 := by
  omega

theorem decompressed_lt (hd : 1 ≤ d ∧ d ≤ 12) (hy : y < 2 ^ d) : decompressed d y < 3329 := by
  have hpow : 2 ^ (d - 1) ≤ 2 ^ 11 := Nat.pow_le_pow_right (by decide) (by omega)
  refine Nat.div_lt_of_lt_mul ?_
  omega

theorem decompressed_zero (hd : 1 ≤ d) : decompressed d 0 = 0 := by
  have hpow : 2 ^ (d - 1) < 2 ^ d := Nat.pow_lt_pow_right (by decide) (by omega)
  rw [decompressed, Nat.zero_mul, Nat.zero_add, Nat.div_eq_of_lt hpow]

/-- The grid point of y is nearer to y*Q/2^d than half a step, so it compresses to y (43_compression.md R124). -/
theorem compressed_decompressed (hd : 1 ≤ d) (hq : 2 ^ d < 3329) (hy : y < 2 ^ d) :
    compressed d (decompressed d y) = y := by
  obtain ⟨hle, hge⟩ := decompressed_nearest hd y
  have hquot : (2 ^ (d + 1) * decompressed d y + 3329) / (2 * 3329) = y := by omega
  rw [compressed, hquot, Nat.mod_eq_of_lt hy]

/-- Decompress after Compress fixes the values of Decompress and no other (43_compression.md R124). -/
theorem decompressed_compressed_eq_iff (hd : 1 ≤ d) (hq : 2 ^ d < 3329) (u : Nat) :
    decompressed d (compressed d u) = u ↔ ∃ y, y < 2 ^ d ∧ decompressed d y = u := by
  constructor
  · exact fun h => ⟨_, compressed_lt d u, h⟩
  · rintro ⟨y, hy, rfl⟩
    rw [compressed_decompressed hd hq hy]

/-- The two roundings together move u by at most (Q + 2^d)/2^(d+1), up to a multiple of Q (43_compression.md R123): with k
the quotient that Compress_d drops when it reduces mod 2^d, the value moves by k*Q, which the sum puts back. -/
theorem decompressed_compressed_near (hd : 1 ≤ d) (u : Nat) :
    ∃ k : Int, |2 ^ (d + 1) * ((decompressed d (compressed d u) : Int) - u + 3329 * k)| ≤ 3329 + 2 ^ d := by
  obtain ⟨hlo, hhi⟩ := compress_quotient_nearest d u
  obtain ⟨hle, hge⟩ := decompressed_nearest hd (compressed d u)
  have hsplit : 2 ^ d * ((2 ^ (d + 1) * u + 3329) / (2 * 3329) / 2 ^ d) + compressed d u =
      (2 ^ (d + 1) * u + 3329) / (2 * 3329) := Nat.div_add_mod _ _
  generalize (2 ^ (d + 1) * u + 3329) / (2 * 3329) = q at hlo hhi hsplit
  rw [pow_succ] at hlo hhi hle hge ⊢
  zify at hlo hhi hle hge hsplit
  exact ⟨(q / 2 ^ d : Int), abs_le.mpr ⟨by linarith, by linarith⟩⟩

end Rounding

/-- The sign fix moves an integer by a multiple of Q (40_datapath_primitives.md R82). -/
theorem fixed_emod {x : Int} (h : -3329 ≤ x ∧ x ≤ 3328) : (fixed x : Int) % 3329 = x % 3329 := by
  rw [fixed]
  split <;> omega

/-! ### The grid -/

theorem grid4_eq : grid4 = (List.range (2 ^ 4)).map (decompressed 4) := by decide

theorem grid5_eq : grid5 = (List.range (2 ^ 5)).map (decompressed 5) := by decide

section Grid

variable {d : Nat} {grid : List Nat} (hgrid : grid = (List.range (2 ^ d)).map (decompressed d))

include hgrid

/-- The fixed points of Decompress after Compress are the grid points (43_compression.md R124). -/
theorem decompressD_compressD_eq_iff_mem (hd : 1 ≤ d) (hq : 2 ^ d < 3329) (u : Nat) :
    decompressD d (compressD d u) = u ↔ u ∈ grid := by
  rw [decompressD_eq_decompressed, show compressD d u = compressed d u from rfl, decompressed_compressed_eq_iff hd hq]
  simp [hgrid]

/-- Grid point y is Decompress of y and compresses to y (43_compression.md R124). -/
theorem decompressD_eq_getD_grid (hd : 1 ≤ d) (hq : 2 ^ d < 3329) {y : Nat} (hy : y < 2 ^ d) :
    decompressD d y = grid.getD y 0 ∧ compressD d (decompressD d y) = y := by
  rw [decompressD_eq_decompressed]
  exact ⟨by simp [hgrid, hy], compressed_decompressed hd hq hy⟩

end Grid

/-! ### Compressed buffers and decompressed registers -/

section Buffers

variable {s : State} {rs : Reg} {addr n w : Nat}

/-- What a buffer of 256 packed values holds depends on these values only. -/
theorem holdsPacked_congr {v v' : Nat → Nat} (h : HoldsPacked s addr (32 * w) w v) (hv : ∀ i, i < 256 → v i = v' i) :
    HoldsPacked s addr (32 * w) w v' := by
  obtain ⟨hwritten, hbits⟩ := h
  refine ⟨hwritten, fun j hj => ?_⟩
  rw [hbits j hj, hv _ (Nat.div_lt_of_lt_mul (by omega))]

/-- A buffer that holds the value 0 packed holds zero bytes. -/
theorem read_of_holdsPacked_zero (h : HoldsPacked s addr n w fun _ => 0) {k : Nat} (hk : k < n) :
    s.bmem.read (addr + k) = some 0 := by
  obtain ⟨hwritten, hbits⟩ := h
  have hzero : byteAt s (addr + k) = 0 :=
    eq_of_low_bits (byteAt_lt s _) (by decide) fun j hj => by
      rw [← streamBit_byte s addr k hj]
      simpa using hbits (8 * k + j) (by omega)
  rw [read_eq_byteAt (hwritten k hk), hzero]
  rfl

/-- The buffer COMPRESS writes holds Compress_D of the sign-fixed coefficients (43_compression.md R121). -/
theorem memWrite_compressPoly_holds (addr d : Nat) (hdom : LanesIn s rs (-3329) 3328) :
    HoldsPacked (s.memWrite addr (compressPoly d (s.poly rs))) addr (32 * d) d
      fun i => compressed d (fixed ((s.poly rs).lane i)) :=
  holdsPacked_congr (memWrite_packPoly_holds s addr d _ _) fun i hi =>
    congrArg (compressed d) (signFix_toNat_eq_fixed (hdom i hi))

/-- The register DECOMPRESS writes holds Decompress_D of the values of the buffer (43_compression.md R122). -/
theorem lane_decompressPoly (s : State) (addr : Nat) {d i : Nat} (hd : 1 ≤ d ∧ d ≤ 12) (hi : i < 256) :
    (decompressPoly d (bytesAt s.bmem addr (32 * d))).lane i = decompressed d (valueAt s addr d i) := by
  have hlt := decompressed_lt hd (valueAt_lt s addr d i)
  rw [KPoly.lane, decompressPoly, coeff_unpackPoly_bytesAt (by omega) hi, decompressD_eq_decompressed,
    BitVec.toInt_eq_toNat_of_lt] <;> rw [BitVec.toNat_ofNat, Nat.mod_eq_of_lt (by omega)]
  omega

end Buffers

/-! ### The two commands -/

section Commands

variable {s : State} {rd rs1 : Reg} {addr : Addr}

/-- COMPRESS of a register of its domain writes CBYTES bytes, which hold Compress_D of the sign-fixed coefficients
(43_compression.md R121). -/
theorem exec_compress_holds (hsup : s.params.supported = true) (h : Readable s rs1)
    (hr : addr.toNat + s.params.cbytes ≤ s.params.bmemSize) (hdom : LanesIn s rs1 (-3329) 3328) :
    ∃ bs, exec (.compress rs1 addr) s = .next (s.memWrite addr.toNat bs) ∧ bs.length = s.params.cbytes ∧
      HoldsPacked (s.memWrite addr.toNat bs) addr.toNat s.params.cbytes (widthD s.params)
        fun i => compressed (widthD s.params) (fixed ((s.poly rs1).lane i)) := by
  have hexec : exec (.compress rs1 addr) s =
      .next (s.memWrite addr.toNat (compressPoly s.params.compressBits (s.poly rs1))) :=
    conclude_ok (by simpa [Instr.wellFormed, Instr.regs] using h.1)
      (writerPhase_ok hr h.2 fun i hi => by simpa [Config.inSignFix] using hdom i hi)
  rw [compressBits_eq_widthD hsup] at hexec
  rw [← widthD_bytes hsup]
  exact ⟨_, hexec, length_compressPoly _ _, memWrite_compressPoly_holds _ _ hdom⟩

/-- DECOMPRESS writes a register whose lanes are Decompress_D of the values of the buffer (43_compression.md R122). -/
theorem exec_decompress_lanes (hsup : s.params.supported = true) (hd : rd.toNat < s.params.npoly)
    (hb : BytesReadable s addr.toNat s.params.cbytes) :
    ∃ p, exec (.decompress rd addr) s = .next (s.writeReg rd p) ∧
      ∀ i, i < 256 → p.lane i = decompressed (widthD s.params) (valueAt s addr.toNat (widthD s.params) i) := by
  have hexec : exec (.decompress rd addr) s =
      .next (s.writeReg rd (decompressPoly s.params.compressBits (bytesAt s.bmem addr.toNat s.params.cbytes))) :=
    conclude_ok (by simpa [Instr.wellFormed, Instr.regs] using hd) (readerPhase_ok hb)
  rw [compressBits_eq_widthD hsup, ← widthD_bytes hsup] at hexec
  exact ⟨_, hexec, fun _ hi => lane_decompressPoly s _ (widthD_range hsup) hi⟩

/-- COMPRESS then DECOMPRESS leaves the compressed values in the buffer and Decompress_D of each in the register. -/
theorem execSeq_compress_decompress (hrun : Running s) (hsup : s.params.supported = true) (h : Readable s rs1)
    (hd : rd.toNat < s.params.npoly) (hr : addr.toNat + s.params.cbytes ≤ s.params.bmemSize)
    (hdom : LanesIn s rs1 (-3329) 3328) :
    ∃ bs p, execSeq [.compress rs1 addr, .decompress rd addr] s = .next ((s.memWrite addr.toNat bs).writeReg rd p) ∧
      HoldsPacked (s.memWrite addr.toNat bs) addr.toNat s.params.cbytes (widthD s.params)
        (fun i => compressed (widthD s.params) (fixed ((s.poly rs1).lane i))) ∧
      ∀ i, i < 256 →
        p.lane i = decompressed (widthD s.params) (compressed (widthD s.params) (fixed ((s.poly rs1).lane i))) := by
  obtain ⟨bs, hcomp, _, hholds⟩ := exec_compress_holds hsup h hr hdom
  obtain ⟨p, hdec, hlane⟩ := exec_decompress_lanes (s := s.memWrite addr.toNat bs) hsup hd ⟨hr, hholds.1⟩
  have hbytes := widthD_bytes hsup
  refine ⟨bs, p, (execSeq_cons hcomp hrun.1).trans (execSeq_singleton hdec), hholds, fun i hi => ?_⟩
  have hinside : (i + 1) * widthD s.params ≤ 8 * s.params.cbytes := by
    have := Nat.mul_le_mul_right (widthD s.params) (show i + 1 ≤ 256 from hi)
    omega
  rw [hlane i hi, State.memWrite_params, valueAt_of_holdsPacked hholds hinside (compressed_lt _ _)]

end Commands

/-! ### The obligations -/

/-- Settles O23: the packed buffer of `exec_compress_holds`, with the frame of a memory write. -/
theorem compressWritesTheCompressedBytes : Obligations.CompressWritesTheCompressedBytes := by
  intro rs1 addr s hsup h hr hdom
  obtain ⟨bs, hexec, hlen, hholds⟩ := exec_compress_holds hsup h hr hdom
  exact ⟨_, hexec, hlen ▸ State.memWrite_wroteOnlyBytes s addr.toNat bs, hholds⟩

/-- Settles O24: the lanes of `exec_decompress_lanes`; a value of D bits decompresses below Q. -/
theorem decompressWritesTheDecompressedValues : Obligations.DecompressWritesTheDecompressedValues := by
  intro rd addr s hsup hd hb
  obtain ⟨p, hexec, hlane⟩ := exec_decompress_lanes hsup hd hb
  have hpoly := State.poly_writeReg_self s rd p
  refine ⟨_, hexec, State.writeReg_wroteOnlyReg s rd p, fun i hi => ?_, fun i hi => by rw [hpoly, hlane i hi]⟩
  have hlt := decompressed_lt (widthD_range hsup) (valueAt_lt s addr.toNat (widthD s.params) i)
  rw [hpoly, hlane i hi]
  omega

/-- Settles O38: both roundings move the sign-fixed coefficient by at most (Q + 2^D)/2^(D+1), which is 104 for D = 4 and 52
for D = 5, and the sign fix moves it by a multiple of Q. -/
theorem compressionErrorBound : Obligations.CompressionErrorBound := by
  intro rs1 rd addr s hrun hsup h hd hr hdom
  obtain ⟨bs, p, hseq, _, hlane⟩ := execSeq_compress_decompress hrun hsup h hd hr hdom
  refine ⟨_, hseq, rfl, fun i hi => ?_⟩
  obtain ⟨k, hk⟩ := decompressed_compressed_near (widthD_range hsup).1 (fixed ((s.poly rs1).lane i))
  have hfix := fixed_emod (hdom i hi)
  dsimp only
  rw [State.poly_writeReg_self, hlane i hi]
  rcases supported_width hsup with ⟨hc, hw⟩ | ⟨hc, hw⟩ <;> rw [hw, abs_le] at hk <;> rw [hw]
  · rw [if_pos hc]
    omega
  · rw [if_neg (by omega)]
    omega

/-- Settles O40: Compress_D and Decompress_D take 0 to 0, and a buffer of packed zeros is zero bytes. -/
theorem zeroCompressesToZero : Obligations.ZeroCompressesToZero := by
  intro rs1 rd addr s hrun hsup h1 hd hr
  have hzero : ∀ i, ((s.writeReg rs1 KPoly.zero).poly rs1).lane i = 0 := fun i => by
    rw [State.poly_writeReg_self, KPoly.lane_zero]
  obtain ⟨bs, p, hseq, hholds, hlane⟩ := execSeq_compress_decompress (s := s.writeReg rs1 KPoly.zero) hrun hsup
    (readable_writeReg_self _ h1) hd hr fun i _ => by rw [hzero i]; decide
  have hpacked : ∀ i, compressed (widthD s.params) (fixed (((s.writeReg rs1 KPoly.zero).poly rs1).lane i)) = 0 :=
    fun i => by rw [hzero i]; exact compressed_zero _
  simp only [State.writeReg_params, hpacked] at hholds hlane
  refine ⟨_, (execSeq_cons (exec_pzero h1) hrun.1).trans hseq, rfl, fun k hk => read_of_holdsPacked_zero hholds hk,
    fun i hi => ?_⟩
  rw [State.poly_writeReg_self, hlane i hi, decompressed_zero (widthD_range hsup).1]
  rfl

/-- Settles O39: the grids list the values of Decompress_4 and Decompress_5. -/
theorem gridPointsAreTheFixedPoints : Obligations.GridPointsAreTheFixedPoints :=
  ⟨fun u _ => decompressD_compressD_eq_iff_mem grid4_eq (by decide) (by decide) u,
    fun u _ => decompressD_compressD_eq_iff_mem grid5_eq (by decide) (by decide) u,
    fun _ hy => decompressD_eq_getD_grid grid4_eq (by decide) (by decide) hy,
    fun _ hy => decompressD_eq_getD_grid grid5_eq (by decide) (by decide) hy⟩

end Sys2Proof.Machine
end

section
/-! The proofs of the family 44_noise.md: a memory read of a buffer whose bytes are known, the two commands on a seed that
stands in BMEM, the range of a sampled polynomial, then the obligation. -/

namespace Sys2Proof.Machine

open Sys2Proof.Claims

/-! ### Buffers of known bytes -/

section Buffers

variable {s : State} {addr : Nat} {bytes : List Byte}

/-- Bytes that stand in BMEM are written. -/
theorem written_of_holds (h : s.Holds addr bytes) {k : Nat} (hk : k < bytes.length) :
    s.bmem.written (addr + k) = true := by
  rw [Memory.written, h k hk, List.getElem?_eq_getElem hk, Option.isSome_some]

/-- The bytes of a buffer are the ones it holds. -/
theorem bytesAt_of_holds (h : s.Holds addr bytes) : bytesAt s.bmem addr bytes.length = bytes := by
  refine List.ext_getElem? fun k => ?_
  by_cases hk : k < bytes.length
  · rw [getElem?_bytesAt (fun _ => written_of_holds h) hk, h k hk]
  · rw [List.getElem?_eq_none (by simpa using hk), List.getElem?_eq_none (by simpa using hk)]

/-- MemRead of a buffer inside BMEM returns the bytes the buffer holds (20_memory.md R41). -/
theorem memRead_of_holds (h : s.Holds addr bytes) (hr : addr + bytes.length ≤ s.params.bmemSize) :
    memRead s addr bytes.length = .ok bytes := by
  rw [memRead_ok hr fun _ => written_of_holds h, bytesAt_of_holds h]

end Buffers

/-! ### The two commands -/

section Commands

variable {s : State} {rd : Reg} {addr : Addr} {seed : List Byte} (hd : rd.toNat < s.params.npoly)
  (hr : addr.toNat + s.params.symbytes ≤ s.params.bmemSize) (hlen : seed.length = s.params.symbytes)
  (hseed : s.Holds addr.toNat seed)

include hr hlen hseed in
/-- The check phase of a command that makes a polynomial of a seed of SYMBYTES bytes. -/
theorem seedPhase_ok (g : List Byte → KPoly) :
    (memRead s addr.toNat s.params.symbytes >>= fun b => (.ok (s.writeReg rd (g b)) : Check State)) =
      .ok (s.writeReg rd (g seed)) := by
  rw [← hlen, memRead_of_holds hseed (hlen ▸ hr), check_ok_bind]

include hd hr hlen hseed

/-- GETNOISE1 writes the polynomial sampled with η1 (44_noise.md R137). -/
theorem exec_getnoise1 (nonce : Byte) : exec (.getnoise1 rd addr nonce) s =
    .next (s.writeReg rd (noisePoly Config.prims.fns s.params.eta1 seed nonce)) :=
  conclude_ok (by simpa [Instr.wellFormed, Instr.regs] using hd) (seedPhase_ok hr hlen hseed _)

/-- GETNOISE2 writes the polynomial sampled with η2 (44_noise.md R138). -/
theorem exec_getnoise2 (nonce : Byte) : exec (.getnoise2 rd addr nonce) s =
    .next (s.writeReg rd (noisePoly Config.prims.fns s.params.eta2 seed nonce)) :=
  conclude_ok (by simpa [Instr.wellFormed, Instr.regs] using hd) (seedPhase_ok hr hlen hseed _)

end Commands

/-- PRF gives CBD a buffer of the right length, so the sampled coefficients are in [-η, η] (44_noise.md R135, R136). -/
theorem lane_noisePoly_bound {eta i : Nat} (heta : eta = 2 ∨ eta = 3) (seed : List Byte) (nonce : Byte) (hi : i < 256) :
    -(eta : Int) ≤ (noisePoly Config.prims.fns eta seed nonce).lane i ∧
      (noisePoly Config.prims.fns eta seed nonce).lane i ≤ eta :=
  Config.prims.contract.cbd_bound eta _ heta (Config.prims.contract.prf_length seed nonce _) i hi

/-- A register that takes a sampled polynomial has its coefficients in [-η, η]. -/
theorem lanesIn_writeReg_noisePoly (s : State) (rd : Reg) {eta : Nat} (heta : eta = 2 ∨ eta = 3) (seed : List Byte)
    (nonce : Byte) : LanesIn (s.writeReg rd (noisePoly Config.prims.fns eta seed nonce)) rd (-(eta : Int)) eta :=
  fun i hi => by
    rw [State.poly_writeReg_self]
    exact lane_noisePoly_bound heta seed nonce hi

/-! ### The obligation -/

/-- Settles O25: each command is one write of its sampled polynomial, whose range the contract of the function parameters
gives for a legal η. -/
theorem getnoiseWritesTheSampledPolynomial : Obligations.GetnoiseWritesTheSampledPolynomial := by
  intro rd addr nonce s seed hd hr hlen hseed hlegal
  obtain ⟨_, heta1, heta2, _⟩ := legal_ranges hlegal
  exact ⟨⟨_, exec_getnoise1 hd hr hlen hseed nonce, State.writeReg_wroteOnlyReg s rd _, State.poly_writeReg_self s rd _,
      lanesIn_writeReg_noisePoly s rd heta1 seed nonce⟩,
    ⟨_, exec_getnoise2 hd hr hlen hseed nonce, State.writeReg_wroteOnlyReg s rd _, State.poly_writeReg_self s rd _,
      lanesIn_writeReg_noisePoly s rd heta2 seed nonce⟩⟩

end Sys2Proof.Machine
end

section
/-! The proofs of the family 45_ntt.md: the lazy range L as the commands check it, the three transforms on operands of L and
the range of their results, the product they compute in sequence, then the obligations. -/

namespace Sys2Proof.Machine

open Sys2Proof.Claims

/-! ### The lazy range -/

section Lazy

variable {s : State} {r : Reg}

theorem inLazy_iff {x : Int} : Config.inLazy x = true ↔ -6657 ≤ x ∧ x ≤ 6657 := by
  simp [Config.inLazy]

/-- A register is in L exactly when its polynomial passes the domain check of the transforms (40_datapath_primitives.md
R94). -/
theorem allLanes_inLazy_iff : (s.poly r).allLanes Config.inLazy = true ↔ LanesIn s r (-6657) 6657 := by
  simp only [KPoly.allLanes_iff, inLazy_iff, LanesIn]

/-- The lanes of a reduced polynomial are canonical (45_ntt.md R155). -/
theorem lane_reducePoly_bound (p : KPoly) {i : Nat} (hi : i < 256) :
    0 ≤ (reducePoly p).lane i ∧ (reducePoly p).lane i ≤ 3328 := by
  rw [lane_reducePoly p hi]
  omega

/-- The output of the NTT command is canonical, so in L, whatever the function parameters. -/
theorem ntt_allLanes_inLazy (F : PrimFns) (p : KPoly) : (F.ntt p).allLanes Config.inLazy = true :=
  (KPoly.allLanes_iff _ _).mpr fun i hi => by
    have hbound : 0 ≤ (F.ntt p).lane i ∧ (F.ntt p).lane i ≤ 3328 := lane_reducePoly_bound (F.nttPrim p) hi
    exact inLazy_iff.mpr (by omega)

/-- The products of two polynomials in L are in L, pair by pair (45_ntt.md R152 B1). -/
theorem basemulPoly_allLanes_inLazy {a b : KPoly} (ha : a.allLanes Config.inLazy = true)
    (hb : b.allLanes Config.inLazy = true) : (basemulPoly Config.prims.fns a b).allLanes Config.inLazy = true := by
  rw [KPoly.allLanes_iff] at ha hb ⊢
  intro i hi
  obtain ⟨heven, hodd⟩ := coeff_basemulPoly Config.prims.fns a b (h := i / 2) (by omega)
  obtain ⟨hlow, hhigh⟩ := Config.prims.contract.basemul_lazy _ _ _ _ (i / 2) (by omega) (ha (2 * (i / 2)) (by omega))
    (ha (2 * (i / 2) + 1) (by omega)) (hb (2 * (i / 2)) (by omega)) (hb (2 * (i / 2) + 1) (by omega))
  rcases Nat.mod_two_eq_zero_or_one i with hpar | hpar
  · rw [show i = 2 * (i / 2) by omega, KPoly.lane, heven]
    exact hlow
  · rw [show i = 2 * (i / 2) + 1 by omega, KPoly.lane, hodd]
    exact hhigh

end Lazy

/-! ### The two pairs of a block -/

section Block

variable (F : PrimFns) (j : Nat)

/-- The two coefficients of pair h are BASEMUL_PRIM of the sources' two with the twist of the pair (45_ntt.md R157). -/
theorem basemulPoly_pair (a b : KPoly) {h : Nat} (hh : h < 128) :
    ((basemulPoly F a b).coeff (2 * h), (basemulPoly F a b).coeff (2 * h + 1)) =
      F.basemulPrim (a.coeff (2 * h)) (a.coeff (2 * h + 1)) (b.coeff (2 * h)) (b.coeff (2 * h + 1)) (pairTwist F h) :=
  Prod.ext (coeff_basemulPoly F a b hh).1 (coeff_basemulPoly F a b hh).2

theorem pairTwist_even : pairTwist F (2 * j) = F.zetaTw j := by
  rw [pairTwist, if_pos (by omega), Nat.mul_div_cancel_left j (by decide)]

/-- The second twist of a block is the int16 negation of the first (45_ntt.md R157). -/
theorem pairTwist_odd : pairTwist F (2 * j + 1) = BitVec.ofInt 16 (-(F.zetaTw j).toInt) := by
  rw [pairTwist, if_neg (by omega), show (2 * j + 1) / 2 = j by omega, BitVec.ofInt_neg, BitVec.ofInt_toInt]

end Block

/-! ### The commands on operands in L -/

section Commands

variable {s : State} {rd rs1 rs2 : Reg}

/-- A command on one register of its domain writes its result. -/
theorem unaryPhase_ok {ok : Int → Bool} {g : KPoly → KPoly} (hv : s.isValid rd = true)
    (hdom : (s.poly rd).allLanes ok = true) :
    (readReg s rd >>= fun x => checkLanes (goodLanes ok x) >>= fun _ => (.ok (s.writeReg rd (g x)) : Check State)) =
      .ok (s.writeReg rd (g (s.poly rd))) := by
  rw [readReg_ok hv, check_ok_bind, checkLanes_ok (goodLanes_all.mpr ((KPoly.allLanes_iff _ _).mp hdom)), check_ok_bind]

/-- A command on two registers of its domain writes its result, of the sources as they were. -/
theorem pairsPhase_ok {ok : Int → Bool} {g : KPoly → KPoly → KPoly} (hv1 : s.isValid rs1 = true)
    (hv2 : s.isValid rs2 = true) (hdom1 : (s.poly rs1).allLanes ok = true) (hdom2 : (s.poly rs2).allLanes ok = true) :
    (readReg s rs1 >>= fun a => readReg s rs2 >>= fun b => checkLanes (goodPairs ok a b) >>= fun _ =>
      (.ok (s.writeReg rd (g a b)) : Check State)) = .ok (s.writeReg rd (g (s.poly rs1) (s.poly rs2))) := by
  rw [KPoly.allLanes_iff] at hdom1 hdom2
  rw [readReg_ok hv1, check_ok_bind, readReg_ok hv2, check_ok_bind,
    checkLanes_ok (goodPairs_all.mpr fun i hi => ⟨hdom1 i hi, hdom2 i hi⟩), check_ok_bind]

/-- NTT of a register in L writes the reduced transform (45_ntt.md R155). -/
theorem exec_ntt (h : Readable s rd) (hdom : (s.poly rd).allLanes Config.inLazy = true) :
    exec (.ntt rd) s = .next (s.writeReg rd (Config.prims.fns.ntt (s.poly rd))) :=
  conclude_ok (by simpa [Instr.wellFormed, Instr.regs] using h.1) (unaryPhase_ok h.2 hdom)

/-- INVNTT of a register in L writes the inverse transform, not reduced (45_ntt.md R156). -/
theorem exec_invntt (h : Readable s rd) (hdom : (s.poly rd).allLanes Config.inLazy = true) :
    exec (.invntt rd) s = .next (s.writeReg rd (Config.prims.fns.invnttPrim (s.poly rd))) :=
  conclude_ok (by simpa [Instr.wellFormed, Instr.regs] using h.1) (unaryPhase_ok h.2 hdom)

/-- BASEMUL of two registers in L writes the products of their pairs (45_ntt.md R157). -/
theorem exec_basemul (hd : rd.toNat < s.params.npoly) (h1 : Readable s rs1) (h2 : Readable s rs2)
    (hdom1 : (s.poly rs1).allLanes Config.inLazy = true) (hdom2 : (s.poly rs2).allLanes Config.inLazy = true) :
    exec (.basemul rd rs1 rs2) s =
      .next (s.writeReg rd (basemulPoly Config.prims.fns (s.poly rs1) (s.poly rs2))) :=
  conclude_ok (by simp [Instr.wellFormed, Instr.regs, hd, h1.1, h2.1]) (pairsPhase_ok h1.2 h2.2 hdom1 hdom2)

end Commands

/-! ### The commands in sequence -/

section Sequence

variable {s : State} {rd ra rb : Reg}

/-- NTT then INVNTT is one write of the inverse transform of the reduced transform. -/
theorem execSeq_ntt_invntt (hrun : Running s) (h : Readable s rd) (hdom : (s.poly rd).allLanes Config.inLazy = true) :
    execSeq [.ntt rd, .invntt rd] s =
      .next (s.writeReg rd (Config.prims.fns.invnttPrim (Config.prims.fns.ntt (s.poly rd)))) := by
  have hinv := exec_invntt (readable_writeReg_self (Config.prims.fns.ntt (s.poly rd)) h.1)
    (by rw [State.poly_writeReg_self]; exact ntt_allLanes_inLazy _ _)
  rw [State.poly_writeReg_self, writeReg_writeReg] at hinv
  exact (execSeq_cons (exec_ntt h hdom) hrun.1).trans (execSeq_singleton hinv)

/-- NTT of two different registers writes both transforms. -/
theorem execSeq_ntt_ntt (is : List Instr) (hrun : Running s) (hne : ra ≠ rb) (ha : Readable s ra) (hb : Readable s rb)
    (hdoma : (s.poly ra).allLanes Config.inLazy = true) (hdomb : (s.poly rb).allLanes Config.inLazy = true) :
    execSeq (.ntt ra :: .ntt rb :: is) s = execSeq is
      ((s.writeReg ra (Config.prims.fns.ntt (s.poly ra))).writeReg rb (Config.prims.fns.ntt (s.poly rb))) := by
  have hkeep := State.poly_writeReg_of_ne s ra (Config.prims.fns.ntt (s.poly ra)) hne.symm
  have hnttb := exec_ntt (readable_writeReg_of_ne (Config.prims.fns.ntt (s.poly ra)) hb hne.symm) (by rwa [hkeep])
  rw [hkeep] at hnttb
  exact (execSeq_cons (exec_ntt ha hdoma) hrun.1).trans (execSeq_cons hnttb hrun.1)

/-- BASEMUL, INVNTT and REDUCE on one destination are one write of it: BASEMUL's result is in L, as INVNTT asks
(45_ntt.md R152 B1). -/
theorem execSeq_basemul_invntt_reduce {a b : KPoly} (hrun : Running s) (hd : rd.toNat < s.params.npoly)
    (ha : Readable s ra) (hb : Readable s rb) (hpa : s.poly ra = a) (hpb : s.poly rb = b)
    (hdoma : a.allLanes Config.inLazy = true) (hdomb : b.allLanes Config.inLazy = true) :
    execSeq [.basemul rd ra rb, .invntt rd, .reduce rd] s =
      .next (s.writeReg rd (reducePoly (Config.prims.fns.invnttPrim (basemulPoly Config.prims.fns a b)))) := by
  subst hpa hpb
  have hinv := exec_invntt (readable_writeReg_self (basemulPoly Config.prims.fns (s.poly ra) (s.poly rb)) hd)
    (by rw [State.poly_writeReg_self]; exact basemulPoly_allLanes_inLazy hdoma hdomb)
  rw [State.poly_writeReg_self, writeReg_writeReg] at hinv
  have hred := exec_reduce (readable_writeReg_self (s := s) (rd := rd)
    (Config.prims.fns.invnttPrim (basemulPoly Config.prims.fns (s.poly ra) (s.poly rb))) hd)
  rw [State.poly_writeReg_self, writeReg_writeReg] at hred
  calc execSeq [.basemul rd ra rb, .invntt rd, .reduce rd] s
      = execSeq [.invntt rd, .reduce rd] (s.writeReg rd _) :=
        execSeq_cons (exec_basemul hd ha hb hdoma hdomb) hrun.1
    _ = execSeq [.reduce rd] (s.writeReg rd _) := execSeq_cons hinv hrun.1
    _ = .next (s.writeReg rd _) := execSeq_singleton hred

end Sequence

/-! ### The obligations -/

/-- Settles O26: NTT is one write of a reduced polynomial. -/
theorem nttWritesTheReducedTransform : Obligations.NttWritesTheReducedTransform := by
  intro rd s h hdom
  refine ⟨_, exec_ntt h (allLanes_inLazy_iff.mpr hdom), State.writeReg_wroteOnlyReg s rd _, fun i hi => ?_,
    fun i hi => ?_⟩ <;> rw [State.poly_writeReg_self]
  · exact lane_reducePoly_bound _ hi
  · exact lane_reducePoly _ hi

/-- Settles O27: INVNTT is one write of INVNTT_PRIM's result. -/
theorem invnttWritesTheUnreducedTransform : Obligations.InvnttWritesTheUnreducedTransform := by
  intro rd s h hdom
  exact ⟨_, exec_invntt h (allLanes_inLazy_iff.mpr hdom), State.writeReg_wroteOnlyReg s rd _,
    State.poly_writeReg_self s rd _⟩

/-- Settles O28: block j is the pairs 2j and 2j + 1, with the twist of each; the contract keeps every pair in L. -/
theorem basemulMultipliesBlockwise : Obligations.BasemulMultipliesBlockwise := by
  intro rd rs1 rs2 s hd h1 h2 hdom1 hdom2
  rw [← allLanes_inLazy_iff] at hdom1 hdom2
  refine ⟨_, exec_basemul hd h1 h2 hdom1 hdom2, State.writeReg_wroteOnlyReg s rd _, ?_, fun j hj => ?_⟩
  · rw [← allLanes_inLazy_iff, State.poly_writeReg_self]
    exact basemulPoly_allLanes_inLazy hdom1 hdom2
  · have hfirst := basemulPoly_pair Config.prims.fns (s.poly rs1) (s.poly rs2) (h := 2 * j) (by omega)
    have hsecond := basemulPoly_pair Config.prims.fns (s.poly rs1) (s.poly rs2) (h := 2 * j + 1) (by omega)
    rw [pairTwist_even, show 2 * (2 * j) = 4 * j by omega] at hfirst
    rw [pairTwist_odd, show 2 * (2 * j + 1) = 4 * j + 2 by omega] at hsecond
    dsimp only
    rw [State.poly_writeReg_self]
    exact ⟨hfirst, hsecond⟩

/-- Settles O41: the two commands are one write of INVNTT_PRIM(ntt(p)), which C1 of the contract compares with p. -/
theorem nttThenInvnttScalesByMontgomeryRadix : Obligations.NttThenInvnttScalesByMontgomeryRadix := by
  intro rd s hrun h hdom
  rw [← allLanes_inLazy_iff] at hdom
  refine ⟨_, execSeq_ntt_invntt hrun h hdom, State.writeReg_wroteOnlyReg s rd _, fun i hi => ?_⟩
  rw [State.poly_writeReg_self]
  exact Config.prims.contract.ntt_round_trip _ hdom i hi

/-- Settles O42: the two transforms stand in their own registers when BASEMUL reads them, so rd holds the reduction of
INVNTT_PRIM(BM(ntt(a), ntt(b))), which C2 of the contract compares with the convolution. -/
theorem ringProductThroughTheNtt : Obligations.RingProductThroughTheNtt := by
  intro rd ra rb s hrun hne hd ha hb hdoma hdomb
  rw [← allLanes_inLazy_iff] at hdoma hdomb
  have hreada := readable_writeReg_of_ne (Config.prims.fns.ntt (s.poly rb))
    (readable_writeReg_self (Config.prims.fns.ntt (s.poly ra)) ha.1) hne
  have hpolya := (State.poly_writeReg_of_ne (s.writeReg ra (Config.prims.fns.ntt (s.poly ra))) rb
    (Config.prims.fns.ntt (s.poly rb)) hne).trans (State.poly_writeReg_self s ra _)
  refine ⟨_, (execSeq_ntt_ntt _ hrun hne ha hb hdoma hdomb).trans (execSeq_basemul_invntt_reduce hrun hd hreada
    (readable_writeReg_self _ hb.1) hpolya (State.poly_writeReg_self _ _ _) (ntt_allLanes_inLazy _ _)
    (ntt_allLanes_inLazy _ _)), rfl, fun _ => rfl, fun k hk => ?_⟩
  rw [State.poly_writeReg_self, lane_reducePoly _ hk]
  exact Config.prims.contract.ntt_product _ _ hdoma hdomb k hk

end Sys2Proof.Machine
end

section
/-! The proofs of the family 46_arithmetic.md: the lanes of an exact result, the lowest lane that overflows, REDUCE after a
command, and a list of registers summed into one, then the obligations. ADD's and SUB's check phase, `exactPhase`, stands with
the pseudo-instructions that use it. -/

namespace Sys2Proof.Machine

open Sys2Proof.Claims

/-! ### Exact results -/

section Exact

variable {s : State} {rd rs1 : Reg} {f : Int → Int → Int} {v : KPoly} {i : Instr} {k : Nat}

/-- An integer that int16 does not hold lies below it or above it. -/
theorem inInt16_eq_false_iff {x : Int} : Config.inInt16 x = false ↔ x < -32768 ∨ 32767 < x := by
  rw [← Bool.not_eq_true, inInt16_iff]
  omega

/-- Where an exact result fits, the register it is written to holds it. -/
theorem lane_writeReg_exactLanes (p r : KPoly) (hk : k < 256) (hfit : Config.inInt16 (f (p.lane k) (r.lane k)) = true) :
    ((s.writeReg rd (exactLanes f p r)).poly rd).lane k = f (p.lane k) (r.lane k) := by
  rw [State.poly_writeReg_self, lane_exactLanes f p r hk hfit]

/-- The check phase of ADD and SUB faults at the lowest lane that leaves int16 (46_arithmetic.md R173). -/
theorem exactPhase_lowest_overflow (hd : s.isValid rd = true) (hs : s.isValid rs1 = true) (hk : k < 256)
    (hbad : Config.inInt16 (f ((s.poly rd).lane k) ((s.poly rs1).lane k)) = false)
    (hbelow : ∀ j, j < k → Config.inInt16 (f ((s.poly rd).lane j) ((s.poly rs1).lane j)) = true) :
    exactPhase f rd rs1 s = .error ⟨.coeffRange, BitVec.ofNat 9 k⟩ := by
  obtain ⟨l, _, hlbad, hlbelow, herr⟩ := exactPhase_overflow hd hs hk hbad
  have hkl : ¬k < l := fun h => Bool.false_ne_true (hbad.symm.trans (hlbelow k h))
  have hlk : ¬l < k := fun h => Bool.false_ne_true (hlbad.symm.trans (hbelow l h))
  obtain rfl : l = k := by omega
  exact herr

/-- ADD enters COEFF_RANGE at the lowest lane whose exact sum is no int16. -/
theorem exec_add_of_lowest_overflow (hd : Readable s rd) (hs : Readable s rs1) (hk : k < 256)
    (hbad : Config.inInt16 (sumLane ((s.poly rd).lane k) ((s.poly rs1).lane k)) = false)
    (hbelow : ∀ j, j < k → Config.inInt16 (sumLane ((s.poly rd).lane j) ((s.poly rs1).lane j)) = true) :
    exec (.add rd rs1) s = .next (s.enterFault ⟨.coeffRange, BitVec.ofNat 9 k⟩ (encode (.add rd rs1))) :=
  conclude_error (wellFormed_add hd hs) (exactPhase_lowest_overflow hd.2 hs.2 hk hbad hbelow)

/-- SUB enters COEFF_RANGE at the lowest lane whose exact difference is no int16. -/
theorem exec_sub_of_lowest_overflow (hd : Readable s rd) (hs : Readable s rs1) (hk : k < 256)
    (hbad : Config.inInt16 (diffLane ((s.poly rd).lane k) ((s.poly rs1).lane k)) = false)
    (hbelow : ∀ j, j < k → Config.inInt16 (diffLane ((s.poly rd).lane j) ((s.poly rs1).lane j)) = true) :
    exec (.sub rd rs1) s = .next (s.enterFault ⟨.coeffRange, BitVec.ofNat 9 k⟩ (encode (.sub rd rs1))) :=
  conclude_error (wellFormed_sub hd hs) (exactPhase_lowest_overflow hd.2 hs.2 hk hbad hbelow)

/-- FIDX holds a lane index as it is. -/
theorem enterFault_coeffRange_enteredFault (s : State) (w : Word) (hk : k < 256) :
    s.EnteredFault .coeffRange k w (s.enterFault ⟨.coeffRange, BitVec.ofNat 9 k⟩ w) := by
  have hfault := State.enterFault_enteredFault s ⟨.coeffRange, BitVec.ofNat 9 k⟩ w
  rwa [BitVec.toNat_ofNat, Nat.mod_eq_of_lt (by omega)] at hfault

/-- REDUCE after a command that writes its register: one write of the reduced polynomial. -/
theorem execSeq_then_reduce (hrun : Running s) (hd : rd.toNat < s.params.npoly)
    (h : exec i s = .next (s.writeReg rd v)) :
    execSeq [i, .reduce rd] s = .next (s.writeReg rd (reducePoly v)) := by
  have hred := exec_reduce (readable_writeReg_self v hd)
  rw [State.poly_writeReg_self, writeReg_writeReg] at hred
  exact (execSeq_cons h hrun.1).trans (execSeq_singleton hred)

/-- The lanes of a reduced exact result are the exact results mod Q (46_arithmetic.md R174). -/
theorem lane_writeReg_reducePoly_exactLanes (p r : KPoly) (hk : k < 256)
    (hfit : Config.inInt16 (f (p.lane k) (r.lane k)) = true) :
    ((s.writeReg rd (reducePoly (exactLanes f p r))).poly rd).lane k = f (p.lane k) (r.lane k) % 3329 := by
  rw [State.poly_writeReg_self, lane_reducePoly _ hk, lane_exactLanes f p r hk hfit]

end Exact

/-! ### Sums of many registers -/

section Sums

variable {s : State} {rd : Reg}

/-- ADD of a readable register to the contents p of rd: one write of the exact sum. -/
theorem exec_add_writeReg {p : KPoly} {r : Reg} (hd : rd.toNat < s.params.npoly) (hr : Readable s r) (hne : r ≠ rd)
    (hfit : ∀ k, k < 256 → Config.inInt16 (sumLane (p.lane k) ((s.poly r).lane k)) = true) :
    exec (.add rd r) (s.writeReg rd p) = .next (s.writeReg rd (exactLanes sumLane p (s.poly r))) := by
  have hadd := exec_add_of_fits (readable_writeReg_self p hd) (readable_writeReg_of_ne p hr hne)
  rw [State.poly_writeReg_self, State.poly_writeReg_of_ne s rd p hne, writeReg_writeReg] at hadd
  exact hadd hfit

/-- ADD of a list of canonical registers, while the largest sum they can reach is an int16, is one write of the sums. -/
theorem execSeq_adds {sources : List Reg} (is : List Instr) (hrun : Running s) (hd : rd.toNat < s.params.npoly)
    (hne : rd ∉ sources) (hsrc : ∀ r ∈ sources, Readable s r ∧ LanesIn s r 0 3328) {p : KPoly}
    (hp : ∀ i, i < 256 → 0 ≤ p.lane i ∧ p.lane i + 3328 * sources.length ≤ 32767) :
    ∃ q, execSeq (sources.map (.add rd) ++ is) (s.writeReg rd p) = execSeq is (s.writeReg rd q) ∧
      ∀ i, i < 256 → q.lane i = p.lane i + (sources.map fun r => (s.poly r).lane i).sum := by
  induction sources generalizing p with
  | nil => exact ⟨p, rfl, fun i _ => by simp⟩
  | cons r rs ih =>
    obtain ⟨hrd, hrest⟩ := not_or.mp (List.mem_cons.not.mp hne)
    obtain ⟨⟨hr, hrlanes⟩, hsrcs⟩ := List.forall_mem_cons.mp hsrc
    simp only [List.length_cons, Nat.cast_add, Nat.cast_one] at hp
    have hfit : ∀ k, k < 256 → Config.inInt16 (sumLane (p.lane k) ((s.poly r).lane k)) = true := fun k hk => by
      have := hp k hk
      have := hrlanes k hk
      rw [inInt16_iff, sumLane]
      omega
    have hsum : ∀ k, k < 256 → (exactLanes sumLane p (s.poly r)).lane k = p.lane k + (s.poly r).lane k :=
      fun k hk => lane_exactLanes sumLane p (s.poly r) hk (hfit k hk)
    obtain ⟨q, hseq, hq⟩ := ih hrest hsrcs (p := exactLanes sumLane p (s.poly r)) fun k hk => by
      have := hp k hk
      have := hrlanes k hk
      rw [hsum k hk]
      omega
    refine ⟨q, (execSeq_cons (exec_add_writeReg hd hr (Ne.symm hrd) hfit) hrun.1).trans hseq, fun k hk => ?_⟩
    rw [hq k hk, hsum k hk, List.map_cons, List.sum_cons, add_assoc]

/-- PZERO and ADD of at most 9 canonical registers: one write of their sums, at most 9 · 3328 = 29952
(46_arithmetic.md R175). -/
theorem execSeq_pzero_adds {sources : List Reg} (is : List Instr) (hrun : Running s) (hd : rd.toNat < s.params.npoly)
    (hne : rd ∉ sources) (hsrc : ∀ r ∈ sources, Readable s r ∧ LanesIn s r 0 3328) (hlen : sources.length ≤ 9) :
    ∃ q, execSeq (.pzero rd :: (sources.map (.add rd) ++ is)) s = execSeq is (s.writeReg rd q) ∧
      ∀ i, i < 256 → q.lane i = (sources.map fun r => (s.poly r).lane i).sum := by
  obtain ⟨q, hseq, hq⟩ := execSeq_adds is hrun hd hne hsrc (p := KPoly.zero) fun i _ => by
    rw [KPoly.lane_zero]
    omega
  refine ⟨q, (execSeq_cons (exec_pzero hd) hrun.1).trans hseq, fun i hi => ?_⟩
  rw [hq i hi, KPoly.lane_zero, zero_add]

/-- The tenth ADD of canonical registers with 3328 at lane 0 finds 9 · 3328 + 3328 = 33280 there
(46_arithmetic.md R175). -/
theorem execSeq_pzero_ten_adds {sources : List Reg} (hrun : Running s) (hd : rd.toNat < s.params.npoly)
    (hne : rd ∉ sources) (hsrc : ∀ r ∈ sources, Readable s r ∧ LanesIn s r 0 3328) (hlen : sources.length = 10)
    (htop : ∀ r ∈ sources, (s.poly r).lane 0 = 3328) :
    ∃ (t : State) (w : Word),
      execSeq (.pzero rd :: sources.map (.add rd)) s = .next (t.enterFault ⟨.coeffRange, 0⟩ w) := by
  obtain ⟨nine, last, rfl⟩ := (List.eq_nil_or_concat' sources).resolve_left (by rintro rfl; cases hlen)
  rw [List.length_append, List.length_singleton] at hlen
  obtain ⟨hnine, hlast⟩ := not_or.mp (List.mem_append.not.mp hne)
  have hlast : last ≠ rd := fun h => hlast (List.mem_singleton.mpr h.symm)
  obtain ⟨hsrcnine, hsrclast⟩ := List.forall_mem_append.mp hsrc
  obtain ⟨htopnine, htoplast⟩ := List.forall_mem_append.mp htop
  rw [List.forall_mem_singleton] at hsrclast htoplast
  obtain ⟨q, hseq, hq⟩ := execSeq_pzero_adds [.add rd last] hrun hd hnine hsrcnine (by omega)
  have hqtop : q.lane 0 = 29952 := by
    rw [hq 0 (by decide), List.sum_eq_card_nsmul _ 3328 (List.forall_mem_map.mpr htopnine), List.length_map,
      show nine.length = 9 by omega]
    rfl
  have hfault := exec_add_of_lowest_overflow (readable_writeReg_self q hd)
    (readable_writeReg_of_ne q hsrclast.1 hlast) (k := 0) (by decide)
    (by rw [State.poly_writeReg_self, State.poly_writeReg_of_ne s rd q hlast, hqtop, htoplast]; decide)
    fun j hj => absurd hj (Nat.not_lt_zero j)
  rw [List.map_append]
  exact ⟨_, _, hseq.trans (execSeq_singleton hfault)⟩

end Sums

/-! ### The obligations -/

/-- Settles O30: ADD is one write of the exact sums, which all fit. -/
theorem addWritesTheExactSum : Obligations.AddWritesTheExactSum := by
  intro rd rs1 s hd hs hsum
  have hfit := fun i hi => inInt16_iff.mpr (hsum i hi)
  exact ⟨_, exec_add_of_fits hd hs hfit, State.writeReg_wroteOnlyReg s rd _,
    fun i hi => lane_writeReg_exactLanes _ _ hi (hfit i hi)⟩

/-- Settles O31: SUB is one write of the exact differences, which all fit. -/
theorem subWritesTheExactDifference : Obligations.SubWritesTheExactDifference := by
  intro rd rs1 s hd hs hdiff
  have hfit := fun i hi => inInt16_iff.mpr (hdiff i hi)
  exact ⟨_, exec_sub_of_fits hd hs hfit, State.writeReg_wroteOnlyReg s rd _,
    fun i hi => lane_writeReg_exactLanes _ _ hi (hfit i hi)⟩

/-- Settles O32: the check phase faults before the write, at the lowest lane that does not fit. -/
theorem addAndSubNeverWrap : Obligations.AddAndSubNeverWrap := by
  intro rd rs1 s k hd hs hk
  refine ⟨fun hbad hbelow => ?_, fun hbad hbelow => ?_⟩
  · exact ⟨_, exec_add_of_lowest_overflow hd hs hk (inInt16_eq_false_iff.mpr hbad)
      fun j hj => inInt16_iff.mpr (hbelow j hj), enterFault_coeffRange_enteredFault s _ hk⟩
  · exact ⟨_, exec_sub_of_lowest_overflow hd hs hk (inInt16_eq_false_iff.mpr hbad)
      fun j hj => inInt16_iff.mpr (hbelow j hj), enterFault_coeffRange_enteredFault s _ hk⟩

/-- Settles O43: ADD or SUB and then REDUCE is one write of the reduced exact results. -/
theorem reducedSumsAndDifferences : Obligations.ReducedSumsAndDifferences := by
  intro rd rs1 s hrun hd hs
  refine ⟨fun hsum => ?_, fun hdiff => ?_⟩
  · have hfit := fun i hi => inInt16_iff.mpr (hsum i hi)
    exact ⟨_, execSeq_then_reduce hrun hd.1 (exec_add_of_fits hd hs hfit), State.writeReg_wroteOnlyReg s rd _,
      fun i hi => lane_writeReg_reducePoly_exactLanes _ _ hi (hfit i hi)⟩
  · have hfit := fun i hi => inInt16_iff.mpr (hdiff i hi)
    exact ⟨_, execSeq_then_reduce hrun hd.1 (exec_sub_of_fits hd hs hfit), State.writeReg_wroteOnlyReg s rd _,
      fun i hi => lane_writeReg_reducePoly_exactLanes _ _ hi (hfit i hi)⟩

/-- Settles O44: nine canonical registers sum to at most 29952 and ten can reach 33280; the sums of L lie in
[−13314, 13314]. -/
theorem nineCanonicalPolynomialsSum : Obligations.NineCanonicalPolynomialsSum := by
  refine ⟨fun rd sources s hrun hd hne hsrc => ⟨fun hlen => ?_, fun hlen htop => ?_⟩, fun rd rs1 s hd hs hrd hrs1 => ?_⟩
  · obtain ⟨q, hseq, hq⟩ := execSeq_pzero_adds [] hrun hd hne hsrc hlen
    rw [List.append_nil] at hseq
    refine ⟨_, hseq, State.writeReg_wroteOnlyReg s rd q, fun i hi => ?_⟩
    rw [State.poly_writeReg_self, hq i hi]
  · obtain ⟨t, w, hseq⟩ := execSeq_pzero_ten_adds hrun hd hne hsrc hlen htop
    exact ⟨_, hseq, rfl, rfl, rfl⟩
  · refine addWritesTheExactSum rd rs1 s hd hs fun i hi => ?_
    have := hrd i hi
    have := hrs1 i hi
    omega

end Sys2Proof.Machine
end

section
/-! The proofs of the family 47_message.md: the polynomial FROMMSG makes of a buffer and what is left of it under noise, TOMSG
after a command that writes a register that decodes to the buffer, then the obligations. -/

namespace Sys2Proof.Machine

open Sys2Proof.Claims

/-! ### Registers that decode to a message -/

section Message

variable {s : State} {addr i : Nat} {p : KPoly}

/-- The polynomial FROMMSG makes of the 32 bytes from `addr` up (47_message.md R180). -/
def messageAt (s : State) (addr : Nat) : KPoly := messagePoly (bytesAt s.bmem addr 32)

/-- Every lane of `p` lies in TOMSG's domain, and MsgBit of lane i is stream bit i of the 32 bytes from `addr` up
(47_message.md R181). -/
def DecodesTo (p : KPoly) (s : State) (addr : Nat) : Prop :=
  ∀ i, i < 256 → (0 ≤ p.lane i ∧ p.lane i ≤ 3328) ∧ decide (833 ≤ p.lane i ∧ p.lane i ≤ 2496) = streamBit s addr i

theorem lane_messageAt (s : State) (addr : Nat) (hi : i < 256) :
    (messageAt s addr).lane i = if streamBit s addr i then 1665 else 0 := by
  rw [KPoly.lane, messageAt, messagePoly, coeff_unpackPoly_bytesAt (by decide) hi, valueAt_one, msgSym_toInt]

/-- A lane within 831 of a bit's symbol is decoded to the bit once it is reduced: in [833, 2496] the upper end is nearest to
1665, 831 away, and mod Q both ends are 833 away from 0 (47_message.md R183). -/
theorem noisySymbol_decodes (b : Bool) {x : Int} (hlo : -831 ≤ x - if b then 1665 else 0)
    (hhi : x - (if b then 1665 else 0) ≤ 831) : decide (833 ≤ x % 3329 ∧ x % 3329 ≤ 2496) = b := by
  cases b
  · simp only [Bool.false_eq_true, if_false] at hlo hhi
    exact decide_eq_false (by omega)
  · simp only [if_true] at hlo hhi
    exact decide_eq_true (by omega)

/-- A polynomial within 831 of the message's decodes to the message once it is reduced. -/
theorem decodesTo_reducePoly
    (h : ∀ i, i < 256 → -831 ≤ p.lane i - (messageAt s addr).lane i ∧ p.lane i - (messageAt s addr).lane i ≤ 831) :
    DecodesTo (reducePoly p) s addr := fun i hi => by
  obtain ⟨hlo, hhi⟩ := h i hi
  rw [lane_messageAt s addr hi] at hlo hhi
  refine ⟨lane_reducePoly_bound p hi, ?_⟩
  rw [lane_reducePoly p hi]
  exact noisySymbol_decodes _ hlo hhi

/-- The symbols 0 and 1665 are canonical. -/
theorem reducePoly_messageAt (s : State) (addr : Nat) : reducePoly (messageAt s addr) = messageAt s addr :=
  KPoly.ext_coeff fun i hi => coeff_eq_of_toInt <| by
    change (reducePoly (messageAt s addr)).lane i = (messageAt s addr).lane i
    rw [lane_reducePoly _ hi, lane_messageAt s addr hi]
    split <;> rfl

/-- The message's own polynomial decodes to the message. -/
theorem decodesTo_messageAt (s : State) (addr : Nat) : DecodesTo (messageAt s addr) s addr :=
  reducePoly_messageAt s addr ▸ decodesTo_reducePoly fun i _ => by omega

end Message

/-! ### The commands in sequence -/

section Sequence

variable {s u : State} {i : Instr} {r rd : Reg} {src dst : Addr} {p v : KPoly}

/-- TOMSG of a register that decodes to 32 written bytes writes these bytes. -/
theorem exec_tomsg_of_decodesTo (hb : BytesReadable s src.toNat 32) (h : Readable u rd)
    (hr : dst.toNat + 32 ≤ u.params.bmemSize) (hp : DecodesTo (u.poly rd) s src.toNat) :
    ∃ t, exec (.tomsg rd dst) u = .next t ∧ t.status = u.status ∧
      ∀ k, k < 32 → t.bmem.read (dst.toNat + k) = s.bmem.read (src.toNat + k) := by
  obtain ⟨t, hexec, ⟨_, _, ⟨hstatus, _⟩, _⟩, hbytes⟩ :=
    tomsgWritesTheDecodedBits rd dst u h hr fun i hi => (hp i hi).1
  refine ⟨t, hexec, hstatus, fun k hk => ?_⟩
  obtain ⟨hwritten, hbits⟩ := hbytes k hk
  have hbyte : byteAt t (dst.toNat + k) = byteAt s (src.toNat + k) :=
    eq_of_low_bits (byteAt_lt _ _) (byteAt_lt _ _) fun j hj => by
      rw [hbits j hj, (hp _ (by omega)).2, streamBit_byte s _ k hj]
  rw [read_eq_byteAt hwritten, read_eq_byteAt (hb.2 k hk), hbyte]

/-- A command that writes a register that decodes to 32 written bytes, then TOMSG of it: the 32 bytes are written. -/
theorem execSeq_then_tomsg (h : exec i u = .next (u.writeReg rd p)) (hp : DecodesTo p s src.toNat)
    (hb : BytesReadable s src.toNat 32) (hrun : Running u) (hd : rd.toNat < u.params.npoly)
    (hr : dst.toNat + 32 ≤ u.params.bmemSize) :
    ∃ t, execSeq [i, .tomsg rd dst] u = .next t ∧ t.status = u.status ∧
      ∀ k, k < 32 → t.bmem.read (dst.toNat + k) = s.bmem.read (src.toNat + k) := by
  rw [← State.poly_writeReg_self u rd p] at hp
  obtain ⟨t, htomsg, hstatus, hbytes⟩ := exec_tomsg_of_decodesTo hb (readable_writeReg_self p hd) hr hp
  exact ⟨t, (execSeq_cons h hrun.1).trans (execSeq_singleton htomsg), hstatus, hbytes⟩

/-- FROMMSG, a command whose result is within 831 of the message's polynomial, REDUCE and TOMSG: the message is written. -/
theorem execSeq_frommsg_noise_reduce_tomsg (hrun : Running s) (hr : r.toNat < s.params.npoly)
    (hrd : rd.toNat < s.params.npoly) (hb : BytesReadable s src.toNat 32) (hdst : dst.toNat + 32 ≤ s.params.bmemSize)
    (h : exec i (s.writeReg r (messageAt s src.toNat)) = .next ((s.writeReg r (messageAt s src.toNat)).writeReg rd v))
    (hv : ∀ k, k < 256 →
      -831 ≤ v.lane k - (messageAt s src.toNat).lane k ∧ v.lane k - (messageAt s src.toNat).lane k ≤ 831) :
    ∃ t, execSeq [.frommsg r src, i, .reduce rd, .tomsg rd dst] s = .next t ∧ t.status = s.status ∧
      ∀ k, k < 32 → t.bmem.read (dst.toNat + k) = s.bmem.read (src.toNat + k) := by
  have hred := exec_reduce (readable_writeReg_self (s := s.writeReg r (messageAt s src.toNat)) v hrd)
  rw [State.poly_writeReg_self] at hred
  obtain ⟨t, hseq, hstatus, hbytes⟩ := execSeq_then_tomsg hred (decodesTo_reducePoly hv) hb hrun hrd hdst
  exact ⟨t, ((execSeq_cons (exec_frommsg hr hb) hrun.1).trans (execSeq_cons h hrun.1)).trans hseq, hstatus, hbytes⟩

end Sequence

/-! ### The obligations -/

/-- Settles O45: the register FROMMSG writes decodes to the bytes it read. -/
theorem messageRoundTrip : Obligations.MessageRoundTrip := by
  intro r src dst s hrun hr hb hdst
  exact execSeq_then_tomsg (exec_frommsg hr hb) (decodesTo_messageAt s src.toNat) hb hrun hr hdst

/-- Settles O46: the exact sum and the exact difference are within 831 of the message's polynomial, whose lanes are 0 or 1665,
so neither leaves int16. -/
theorem messageSurvivesBoundedNoise : Obligations.MessageSurvivesBoundedNoise := by
  refine ⟨fun r e src dst s hrun hne hr he hnoise hb hdst => ?_, by decide⟩
  have hsymbol : ∀ k, k < 256 → 0 ≤ (messageAt s src.toNat).lane k ∧ (messageAt s src.toNat).lane k ≤ 1665 :=
    fun k hk => by rw [lane_messageAt s _ hk]; split <;> decide
  have hreg := readable_writeReg_self (messageAt s src.toNat) hr
  have hereg := readable_writeReg_of_ne (messageAt s src.toNat) he hne.symm
  have hmsg := State.poly_writeReg_self s r (messageAt s src.toNat)
  have herr := State.poly_writeReg_of_ne s r (messageAt s src.toNat) hne.symm
  constructor
  · have hfit : ∀ k, k < 256 →
        Config.inInt16 (sumLane ((messageAt s src.toNat).lane k) ((s.poly e).lane k)) = true := fun k hk => by
      have := hsymbol k hk
      have := hnoise k hk
      rw [inInt16_iff, sumLane]
      omega
    refine execSeq_frommsg_noise_reduce_tomsg hrun hr hr hb hdst
      (exec_add_of_fits hreg hereg (by rwa [hmsg, herr])) fun k hk => ?_
    rw [hmsg, herr, lane_exactLanes _ _ _ hk (hfit k hk), sumLane, add_sub_cancel_left]
    exact hnoise k hk
  · have hfit : ∀ k, k < 256 →
        Config.inInt16 (diffLane ((s.poly e).lane k) ((messageAt s src.toNat).lane k)) = true := fun k hk => by
      have := hsymbol k hk
      have := hnoise k hk
      rw [inInt16_iff, diffLane]
      omega
    refine execSeq_frommsg_noise_reduce_tomsg hrun hr he.1 hb hdst
      (exec_sub_of_fits hereg hreg (by rwa [hmsg, herr])) fun k hk => ?_
    have := hnoise k hk
    rw [hmsg, herr, lane_exactLanes _ _ _ hk (hfit k hk), diffLane]
    omega

end Sys2Proof.Machine
end

section
/-! The proofs of the family 60_exceptions.md: first the rules they share (the must-be-zero fields and the illegal words, the
order of the checks, what a command and a step keep), then the obligations. -/

namespace Sys2Proof.Machine

open Sys2Proof.Claims

/-! ### The illegal words -/

section Illegal

variable {npoly : Nat} {w : Word} {f : Format} {i : Instr}

/-- The must-be-zero fields of a format, each as its lowest bit and its length (30_encoding.md R62). -/
def mustBeZero : Format → List (Nat × Nat)
  | .Z => [(8, 24)]
  | .D => [(12, 20)]
  | .R2 => [(16, 16)]
  | .R3 => [(20, 12)]
  | .S => [(16, 4), (8, 4)]
  | .L => [(12, 8)]
  | .N => []

/-- Every must-be-zero field lies above the opcode and in the mask of its format (30_encoding.md R66). -/
theorem mustBeZero_masked (f : Format) :
    ∀ p ∈ mustBeZero f, 8 ≤ p.1 ∧ f.mask.extractLsb' p.1 p.2 = BitVec.allOnes p.2 := by
  cases f <;> decide

/-- Every bit of a mask above the opcode is in a must-be-zero field (30_encoding.md R66). -/
theorem mask_covered (f : Format) : ∀ j, j < 32 → 8 ≤ j → f.mask.getLsbD j = true →
    ∃ p ∈ mustBeZero f, p.1 ≤ j ∧ j < p.1 + p.2 := by
  cases f <;> decide

/-- Every mask holds the opcode (30_encoding.md R66). -/
theorem mask_opcode (f : Format) : ∀ j, j < 8 → f.mask.getLsbD j = true := by
  cases f <;> decide

/-- A word passes the check of a format exactly when its must-be-zero fields are 0. -/
theorem masked_iff_fields : Masked f w ↔ ∀ p ∈ mustBeZero f, w.extractLsb' p.1 p.2 = 0 := by
  constructor
  · intro h p hp
    obtain ⟨hs, hm⟩ := mustBeZero_masked f p hp
    exact h.field_eq_zero hs hm
  · intro h
    refine BitVec.eq_of_getLsbD_eq fun j hj => ?_
    rw [BitVec.getLsbD_and]
    by_cases hlow : j < 8
    · simp [mask_opcode f j hlow, opcodeField, hlow, hj]
    · have hop : ((opcodeField w).setWidth 32).getLsbD j = false := by
        simp [BitVec.getLsbD_of_ge _ _ (Nat.le_of_not_lt hlow)]
      rw [hop, Bool.and_eq_false_iff]
      by_cases hm : f.mask.getLsbD j = true
      · obtain ⟨p, hp, hle, hlt⟩ := mask_covered f j hj (by omega) hm
        have hbit := congrArg (·.getLsbD (j - p.1)) (h p hp)
        simp only [BitVec.getLsbD_extractLsb', show j - p.1 < p.2 by omega, Nat.add_sub_cancel' hle] at hbit
        exact .inl (by simpa using hbit)
      · exact .inr (by simpa using hm)

/-- A word passes the check of a format exactly when the numbers of its must-be-zero fields are 0. -/
theorem masked_iff_toNat : Masked f w ↔ ∀ p ∈ mustBeZero f, w.toNat / 2 ^ p.1 % 2 ^ p.2 = 0 := by
  rw [masked_iff_fields]
  refine forall₂_congr fun p _ => ?_
  rw [← BitVec.toNat_inj, BitVec.extractLsb'_toNat, Nat.shiftRight_eq_div_pow]
  rfl

/-- The register fields a format uses (30_encoding.md R62). -/
def formatRegs (w : Word) : Format → List Reg
  | .Z => []
  | .D | .L | .N => [rdField w]
  | .R2 => [rdField w, rs1Field w]
  | .R3 => [rdField w, rs1Field w, rs2Field w]
  | .S => [rs1Field w]

/-- Every listed opcode has a command, with the register fields of its format (30_encoding.md R65). -/
theorem commandOf_of_formatOf {op : Nat} (h : formatOf op = some f) (w : Word) :
    ∃ i, commandOf op w = some i ∧ i.regs = formatRegs w f := by
  unfold formatOf at h
  split at h <;> cases h <;> exact ⟨_, rfl, rfl⟩

/-- A command names a register that does not exist exactly when it is not well formed. -/
theorem wellFormed_eq_false_iff : i.wellFormed npoly = false ↔ ∃ r ∈ i.regs, npoly ≤ r.toNat := by
  simp [Instr.wellFormed]

/-- What keeps a word from decoding: its opcode, its must-be-zero fields or its registers (30_encoding.md R68). -/
theorem decode_eq_none_iff : decode npoly w = none ↔
    ∀ f, formatOf (opcodeField w).toNat = some f → Masked f w → ∃ r ∈ formatRegs w f, npoly ≤ r.toNat := by
  rw [Option.eq_none_iff_forall_ne_some]
  constructor
  · intro h f hf hm
    obtain ⟨i, hi, hregs⟩ := commandOf_of_formatOf hf w
    rw [← hregs, ← wellFormed_eq_false_iff, ← Bool.not_eq_true]
    exact fun hw => h i (decode_eq_some_iff.mpr ⟨matchesFormat_iff.mpr ⟨f, hf, hm⟩, hi, hw⟩)
  · intro h i hd
    obtain ⟨hmatch, hi, hw⟩ := decode_eq_some_iff.mp hd
    obtain ⟨f, hf, hm⟩ := matchesFormat_iff.mp hmatch
    obtain ⟨i', hi', hregs⟩ := commandOf_of_formatOf hf w
    obtain rfl : i' = i := Option.some.inj (hi'.symm.trans hi)
    have hbad := wellFormed_eq_false_iff.mpr (hregs ▸ h f hf hm)
    simp [hw] at hbad

/-- The line of 60_exceptions.md R191 for a format: a must-be-zero field that is not 0, or a register of NPOLY or more. -/
def IllegalLine (npoly : Nat) (w : Word) : Format → Prop
  | .Z => w.toNat / 2 ^ 8 ≠ 0
  | .D => w.toNat / 2 ^ 12 ≠ 0 ∨ npoly ≤ w.toNat / 2 ^ 8 % 16
  | .R2 => w.toNat / 2 ^ 16 ≠ 0 ∨ npoly ≤ w.toNat / 2 ^ 8 % 16 ∨ npoly ≤ w.toNat / 2 ^ 12 % 16
  | .R3 => w.toNat / 2 ^ 20 ≠ 0 ∨ npoly ≤ w.toNat / 2 ^ 8 % 16 ∨ npoly ≤ w.toNat / 2 ^ 12 % 16 ∨
      npoly ≤ w.toNat / 2 ^ 16 % 16
  | .S => w.toNat / 2 ^ 16 % 16 ≠ 0 ∨ w.toNat / 2 ^ 8 % 16 ≠ 0 ∨ npoly ≤ w.toNat / 2 ^ 12 % 16
  | .L => w.toNat / 2 ^ 12 % 2 ^ 8 ≠ 0 ∨ npoly ≤ w.toNat / 2 ^ 8 % 16
  | .N => npoly ≤ w.toNat / 2 ^ 8 % 16

/-- The opcodes from 0x11 up have no format (30_encoding.md R67). -/
theorem formatOf_of_reserved {op : Nat} (h : 0x11 ≤ op) : formatOf op = none := by
  obtain ⟨k, rfl⟩ := Nat.exists_eq_add_of_le' h
  rfl

/-- The table of R191 is a line for each format, and every word with a reserved opcode. -/
theorem illegalWord_iff_line :
    IllegalWord npoly w ↔ ∀ f, formatOf (w.toNat % 2 ^ 8) = some f → IllegalLine npoly w f := by
  simp only [IllegalWord]
  generalize w.toNat % 2 ^ 8 = op
  by_cases hop : 0x11 ≤ op
  · simp [hop, formatOf_of_reserved hop]
  · interval_cases op <;> simp [formatOf, IllegalLine]

/-- A format's line says that the word fails the format's check or names a register that does not exist. -/
theorem illegalLine_iff :
    IllegalLine npoly w f ↔ (Masked f w → ∃ r ∈ formatRegs w f, npoly ≤ r.toNat) := by
  have hw := w.isLt
  rw [masked_iff_toNat]
  cases f <;>
    simp [IllegalLine, mustBeZero, formatRegs, rdField, rs1Field, rs2Field,
      Nat.shiftRight_eq_div_pow] <;> omega

/-- The words of R191 are the words that do not decode. -/
theorem illegalWord_iff_decode : IllegalWord npoly w ↔ decode npoly w = none := by
  have hop : (opcodeField w).toNat = w.toNat % 2 ^ 8 := by simp [opcodeField]
  simp only [illegalWord_iff_line, decode_eq_none_iff, illegalLine_iff, hop]

/-- A running machine enters Fault(ILLEGAL, 0) on a word that does not decode (60_exceptions.md R191, R199). -/
theorem issue_of_undecodable {s : State} (hh : s.status.halted = false) (hd : decode s.params.npoly w = none) :
    issue w s = .next { s.enterFault illegalFault w with pc := s.pc + 1 } := by
  simp [issue, runWord, advancePc, hh, hd]

end Illegal

/-! ### The order of the checks -/

section Order

variable {s : State} {i : Instr} {addr n : Nat} {rd rs r1 r2 : Reg} {c : Cause}

/-- A check meets the fault that `o` names, or passes with `a` when `o` names none. -/
def Answers {α : Type} (x : Check α) (o : Option (Cause × Nat)) (a : α) : Prop :=
  x = o.elim (.ok a) fun p => .error ⟨p.1, BitVec.ofNat 9 p.2⟩

/-- The first fault of two checks in sequence is the fault of the first that fails (60_exceptions.md R198). -/
theorem answers_bind {α β : Type} {x : Check α} {k : α → Check β} {o o' : Option (Cause × Nat)} {a : α} {b : β}
    (hx : Answers x o a) (hk : Answers (k a) o' b) : Answers (x >>= k) (o.or o') b := by
  subst hx
  cases o with
  | none => exact hk
  | some p => rfl

/-! The parts of `firstFault` after ILLEGAL, in the order of 60_exceptions.md R198. -/

/-- BUFFER_RANGE: the BMEM access of the command passes the end of BMEM. -/
def rangeFault (i : Instr) (s : State) : Option (Cause × Nat) :=
  if ((accessOf s.params i).any fun a => decide (s.params.bmemSize < a.1 + a.2)) = true then some (.bufferRange, 0) else none

/-- UNINIT_REG: the first source that is not valid. -/
def regFault (i : Instr) (s : State) : Option (Cause × Nat) :=
  ((sourcesOf i).find? fun r => !s.isValid r).map fun r => (.uninitReg, r.toNat)

/-- UNINIT_MEM: the lowest unwritten byte of a BMEM read. -/
def memFault (i : Instr) (s : State) : Option (Cause × Nat) :=
  ((if readsBmem i then accessOf s.params i else none).bind fun a =>
    (List.range a.2).find? fun k => !s.bmem.written (a.1 + k)).map fun k => (.uninitMem, k)

/-- COEFF_RANGE: the lowest lane outside the domain. -/
def laneFault (i : Instr) (s : State) : Option (Cause × Nat) :=
  ((List.range 256).find? fun k => laneBad s k i).map fun k => (.coeffRange, k)

/-- The first failing check after ILLEGAL. -/
def checksFault (i : Instr) (s : State) : Option (Cause × Nat) :=
  (rangeFault i s).or ((regFault i s).or ((memFault i s).or (laneFault i s)))

theorem firstFault_of_illegal (h : i.wellFormed s.params.npoly = false) : firstFault i s = some (.illegal, 0) := by
  rw [firstFault, if_pos (by simpa using wellFormed_eq_false_iff.mp h)]

theorem firstFault_of_wellFormed (h : i.wellFormed s.params.npoly = true) : firstFault i s = checksFault i s := by
  have hregs : ¬(i.regs.any fun r => decide (s.params.npoly ≤ r.toNat)) = true := by
    simpa [Instr.wellFormed] using h
  rw [firstFault, if_neg hregs, checksFault, rangeFault]
  split
  · rfl
  · rw [Option.none_or, regFault]
    split
    next r hr => rw [hr]; rfl
    next hr =>
      rw [hr, memFault]
      split
      next k hm => rw [hm]; rfl
      next hm =>
        rw [hm, laneFault]
        split
        next k hl => rw [hl]; rfl
        next hl => rw [hl]; rfl

/-! One check each, with its part of `firstFault`. -/

theorem checkRange_answers (ha : accessOf s.params i = some (addr, n)) :
    Answers (checkRange s addr n) (rangeFault i s) () := by
  by_cases h : addr + n ≤ s.params.bmemSize
  · simp [Answers, rangeFault, ha, Nat.not_lt_of_le h, checkRange_ok h]
  · simp [Answers, rangeFault, ha, Nat.lt_of_not_le h, checkRange_error h]

/-- The fault of a register source (60_exceptions.md R194). -/
def sourceFault (s : State) (r : Reg) : Option (Cause × Nat) :=
  if s.isValid r then none else some (.uninitReg, r.toNat)

theorem readReg_answers (s : State) (r : Reg) : Answers (readReg s r) (sourceFault s r) (s.poly r) := by
  cases h : s.isValid r with
  | true => simp [Answers, sourceFault, h, readReg_ok h]
  | false => simp [Answers, sourceFault, h, readReg_error h, BitVec.ofNat_toNat]

theorem memRead_answers (ha : accessOf s.params i = some (addr, n)) (hm : readsBmem i = true) :
    Answers (memRead s addr n) ((rangeFault i s).or (memFault i s)) (bytesAt s.bmem addr n) := by
  by_cases h : addr + n ≤ s.params.bmemSize
  · have hmem : memFault i s = (firstUnwritten s.bmem addr n).map fun k => (.uninitMem, k) := by
      simp [memFault, hm, ha, firstUnwritten]
    have hrange : rangeFault i s = none := by simp [rangeFault, ha, Nat.not_lt_of_le h]
    rw [hrange, hmem, Answers, memRead, if_pos h]
    cases firstUnwritten s.bmem addr n <;> rfl
  · simp [Answers, rangeFault, ha, Nat.lt_of_not_le h, memRead_range h]

/-- A domain check whose good lanes are those that are not bad answers the lowest bad lane. -/
theorem checkLanes_answers {good : List Bool} (hl : good.length = 256)
    (hg : ∀ k (hk : k < good.length), good[k] = !laneBad s k i) : Answers (checkLanes good) (laneFault i s) () := by
  rcases checkLanes_cases good with ⟨hok, hall⟩ | ⟨k, hk, hbad, hbelow, herr⟩
  · have hnone : (List.range 256).find? (fun k => laneBad s k i) = none :=
      List.find?_range_eq_none.mpr fun k hk => by
        simpa using (hg k (hl ▸ hk)).symm.trans (hall _ (List.getElem_mem (hl ▸ hk)))
    rw [Answers, hok, laneFault, hnone]
    rfl
  · have hsome : (List.range 256).find? (fun k => laneBad s k i) = some k :=
      List.find?_range_eq_some.mpr ⟨by simpa [hg] using hbad, List.mem_range.mpr (hl ▸ hk), fun j hj => by
        simpa [hg] using hbelow j hj⟩
    rw [Answers, herr, laneFault, hsome]
    rfl

theorem goodLanes_answers {ok : Int → Bool} {p : KPoly} (hl : ∀ k, laneBad s k i = !ok (p.lane k)) :
    Answers (checkLanes (goodLanes ok p)) (laneFault i s) () :=
  checkLanes_answers (length_goodLanes ok p) fun k hk => by
    rw [getElem_goodLanes ok p (by simpa using hk), hl, Bool.not_not]

/-! The parts of `firstFault` that a command without the operand does not have, and the sources one by one. -/

theorem rangeFault_of_no_access (h : accessOf s.params i = none) : rangeFault i s = none := by
  simp [rangeFault, h]

theorem memFault_of_no_read (h : readsBmem i = false) : memFault i s = none := by
  simp [memFault, h]

theorem laneFault_of_all_good (h : ∀ k, laneBad s k i = false) : laneFault i s = none := by
  simp [laneFault, h]

theorem regFault_of_no_source (h : sourcesOf i = []) : regFault i s = none := by
  simp [regFault, h]

theorem regFault_of_source (h : sourcesOf i = [r1]) : regFault i s = sourceFault s r1 := by
  cases hv : s.isValid r1 <;> simp [regFault, sourceFault, h, hv]

theorem regFault_of_sources (h : sourcesOf i = [r1, r2]) :
    regFault i s = (sourceFault s r1).or (sourceFault s r2) := by
  cases hv1 : s.isValid r1 <;> cases hv2 : s.isValid r2 <;> simp [regFault, sourceFault, h, hv1, hv2]

/-! The check phases by their shape; `i` is any command with the operands and the domain of the shape. -/

/-- The commit makes no check. -/
theorem answers_ok (t : State) : Answers (.ok t) none t := rfl

/-- A command that makes no check but ILLEGAL. -/
theorem unchecked_answers (ha : accessOf s.params i = none) (hm : readsBmem i = false) (hs : sourcesOf i = [])
    (hl : ∀ k, laneBad s k i = false) (t : State) : Answers (.ok t) (checksFault i s) t := by
  rw [checksFault, rangeFault_of_no_access ha, regFault_of_no_source hs, memFault_of_no_read hm,
    laneFault_of_all_good hl]
  exact answers_ok t

/-- A command that reads BMEM and writes a register. -/
theorem reader_answers {g : List Byte → KPoly} (ha : accessOf s.params i = some (addr, n)) (hm : readsBmem i = true)
    (hs : sourcesOf i = []) (hl : ∀ k, laneBad s k i = false) :
    Answers (memRead s addr n >>= fun b => .ok (s.writeReg rd (g b))) (checksFault i s)
      (s.writeReg rd (g (bytesAt s.bmem addr n))) := by
  rw [checksFault, regFault_of_no_source hs, laneFault_of_all_good hl, Option.none_or, ← Option.or_assoc]
  exact answers_bind (memRead_answers ha hm) (answers_ok _)

/-- A command that stores a register of its domain. -/
theorem writer_answers {ok : Int → Bool} {g : KPoly → List Byte} (ha : accessOf s.params i = some (addr, n))
    (hm : readsBmem i = false) (hs : sourcesOf i = [rs]) (hl : ∀ k, laneBad s k i = !ok ((s.poly rs).lane k)) :
    Answers (checkRange s addr n >>= fun _ => readReg s rs >>= fun x => checkLanes (goodLanes ok x) >>= fun _ =>
      .ok (s.memWrite addr (g x))) (checksFault i s) (s.memWrite addr (g (s.poly rs))) := by
  rw [checksFault, regFault_of_source hs, memFault_of_no_read hm, Option.none_or, ← Option.or_none (o := laneFault i s)]
  exact answers_bind (checkRange_answers ha) (answers_bind (readReg_answers s rs)
    (answers_bind (goodLanes_answers hl) (answers_ok _)))

/-- A command on one register of its domain. -/
theorem unary_answers {ok : Int → Bool} {g : KPoly → KPoly} (ha : accessOf s.params i = none)
    (hm : readsBmem i = false) (hs : sourcesOf i = [rs]) (hl : ∀ k, laneBad s k i = !ok ((s.poly rs).lane k)) :
    Answers (readReg s rs >>= fun x => checkLanes (goodLanes ok x) >>= fun _ => .ok (s.writeReg rd (g x)))
      (checksFault i s) (s.writeReg rd (g (s.poly rs))) := by
  rw [checksFault, rangeFault_of_no_access ha, regFault_of_source hs, memFault_of_no_read hm, Option.none_or,
    Option.none_or, ← Option.or_none (o := laneFault i s)]
  exact answers_bind (readReg_answers s rs) (answers_bind (goodLanes_answers hl) (answers_ok _))

/-- A command on one register, with no domain check. -/
theorem totalUnary_answers {g : KPoly → KPoly} (ha : accessOf s.params i = none) (hm : readsBmem i = false)
    (hs : sourcesOf i = [rs]) (hl : ∀ k, laneBad s k i = false) :
    Answers (readReg s rs >>= fun x => .ok (s.writeReg rd (g x))) (checksFault i s)
      (s.writeReg rd (g (s.poly rs))) := by
  rw [checksFault, rangeFault_of_no_access ha, regFault_of_source hs, memFault_of_no_read hm,
    laneFault_of_all_good hl, Option.none_or]
  exact answers_bind (readReg_answers s rs) (answers_ok _)

/-- A command on two registers. -/
theorem binary_answers {good : KPoly → KPoly → List Bool} {g : KPoly → KPoly → KPoly}
    (ha : accessOf s.params i = none) (hm : readsBmem i = false) (hs : sourcesOf i = [r1, r2])
    (hlen : (good (s.poly r1) (s.poly r2)).length = 256)
    (hl : ∀ k (hk : k < (good (s.poly r1) (s.poly r2)).length),
      (good (s.poly r1) (s.poly r2))[k] = !laneBad s k i) :
    Answers (readReg s r1 >>= fun a => readReg s r2 >>= fun b => checkLanes (good a b) >>= fun _ =>
      .ok (s.writeReg rd (g a b))) (checksFault i s) (s.writeReg rd (g (s.poly r1) (s.poly r2))) := by
  rw [checksFault, rangeFault_of_no_access ha, regFault_of_sources hs, memFault_of_no_read hm, Option.none_or,
    Option.none_or, Option.or_assoc, ← Option.or_none (o := laneFault i s)]
  exact answers_bind (readReg_answers s r1) (answers_bind (readReg_answers s r2)
    (answers_bind (checkLanes_answers hlen hl) (answers_ok _)))

/-- Outside a range is not inside it. -/
theorem outside_eq_not_inside (lo hi x : Int) :
    decide (x < lo ∨ hi < x) = !(decide (lo ≤ x) && decide (x ≤ hi)) := by
  simp only [Bool.decide_or, Bool.not_and, ← decide_not, Int.not_le]

/-- Two values outside a range, as one test. -/
theorem pairOutside_eq_not_inside (lo hi x y : Int) :
    decide (x < lo ∨ hi < x ∨ y < lo ∨ hi < y) =
      !((decide (lo ≤ x) && decide (x ≤ hi)) && (decide (lo ≤ y) && decide (y ≤ hi))) := by
  simp only [Bool.decide_or, Bool.not_and, ← decide_not, Int.not_le, Bool.or_assoc]

/-- Every command is the conclusion of a check phase that meets the first fault of R198, or passes with STATUS and FCMD
untouched. -/
theorem exec_answers (i : Instr) (s : State) :
    ∃ c t, exec i s = conclude i s c ∧ Answers c (checksFault i s) t ∧ s.SameStatus t := by
  cases i with
  | nop => exact ⟨.ok s, s, rfl, unchecked_answers rfl rfl rfl (fun _ => rfl) s, rfl, rfl⟩
  | pzero rd =>
    exact ⟨.ok (s.writeReg rd KPoly.zero), _, rfl, unchecked_answers rfl rfl rfl (fun _ => rfl) _, rfl, rfl⟩
  | frombytes rd addr | decompress rd addr | getnoise1 rd addr nonce | getnoise2 rd addr nonce | frommsg rd addr =>
    exact ⟨_, _, rfl, reader_answers rfl rfl rfl fun _ => rfl, rfl, rfl⟩
  | tobytes rs1 addr | compress rs1 addr | tomsg rs1 addr =>
    exact ⟨_, _, rfl, writer_answers rfl rfl rfl fun _ => outside_eq_not_inside .., rfl, rfl⟩
  | ntt rd | invntt rd =>
    exact ⟨_, _, rfl, unary_answers rfl rfl rfl fun _ => outside_eq_not_inside .., rfl, rfl⟩
  | tomont rd | reduce rd => exact ⟨_, _, rfl, totalUnary_answers rfl rfl rfl fun _ => rfl, rfl, rfl⟩
  | basemul rd rs1 rs2 =>
    refine ⟨_, _, rfl, binary_answers rfl rfl rfl (length_goodPairs ..) fun k hk => ?_, rfl, rfl⟩
    rw [getElem_goodPairs _ _ _ (by simpa using hk), laneBad, pairOutside_eq_not_inside, Bool.not_not]
    rfl
  | add rd rs1 | sub rd rs1 =>
    refine ⟨_, _, rfl, binary_answers rfl rfl rfl (length_goodResults ..) fun k hk => ?_, rfl, rfl⟩
    rw [getElem_goodResults _ _ _ (by simpa using hk), laneBad, outside_eq_not_inside, Bool.not_not]
    rfl

/-- What each fault after ILLEGAL needs: a BMEM access, a source, a BMEM read, a lane outside the domain. -/
theorem checksFault_cases (h : checksFault i s = some (c, n)) :
    (c = .bufferRange ∧ accessOf s.params i ≠ none) ∨ (c = .uninitReg ∧ sourcesOf i ≠ []) ∨
      (c = .uninitMem ∧ readsBmem i = true) ∨ (c = .coeffRange ∧ ∃ k, laneBad s k i = true) := by
  simp only [checksFault, Option.or_eq_some_iff] at h
  rcases h with h | ⟨_, h | ⟨_, h | ⟨_, h⟩⟩⟩
  · refine .inl ⟨?_, fun ha => by simp [rangeFault_of_no_access ha] at h⟩
    unfold rangeFault at h
    split at h <;> cases h
    rfl
  · obtain ⟨_, _, he⟩ := Option.map_eq_some_iff.mp h
    cases he
    exact .inr (.inl ⟨rfl, fun hs => by simp [regFault_of_no_source hs] at h⟩)
  · obtain ⟨_, _, he⟩ := Option.map_eq_some_iff.mp h
    cases he
    exact .inr (.inr (.inl ⟨rfl, Bool.of_not_eq_false fun hm => by simp [memFault_of_no_read hm] at h⟩))
  · obtain ⟨k, hk, he⟩ := Option.map_eq_some_iff.mp h
    cases he
    exact .inr (.inr (.inr ⟨rfl, n, List.find?_some (p := fun k => laneBad s k i) hk⟩))

/-- `firstFault` names only causes of the row of R202. -/
theorem firstFault_mem_causesOf (h : firstFault i s = some (c, n)) : c ∈ causesOf i := by
  cases hw : i.wellFormed s.params.npoly with
  | false =>
    rw [firstFault_of_illegal hw] at h
    cases h
    cases i <;> simp [causesOf]
  | true =>
    rw [firstFault_of_wellFormed hw] at h
    rcases checksFault_cases h with ⟨rfl, ha⟩ | ⟨rfl, hs⟩ | ⟨rfl, hm⟩ | ⟨rfl, k, hl⟩
    · cases i <;> simp [causesOf, accessOf] at ha ⊢
    · cases i <;> simp [causesOf, sourcesOf] at hs ⊢
    · cases i <;> simp [causesOf, readsBmem] at hm ⊢
    · cases i <;> simp [causesOf, laneBad] at hl ⊢

end Order

/-! ### What a command and a step keep -/

/-- What a command commits leaves STATUS as it is. -/
theorem Committed.status_eq {i : Instr} {s t : State} (h : Committed i s t) : t.status = s.status := by
  rcases h with rfl | ⟨_, _, _, rfl⟩ | ⟨_, _, _, _, _, _, rfl⟩ <;> rfl

/-- No step changes the elaboration parameters (00_scope.md R9). -/
theorem step_params {s t : State} (h : step s = .next t) : t.params = s.params := by
  rcases step_cases h with ⟨rfl, _⟩ | ⟨op, rest, _, hop⟩
  · rfl
  · rcases hop with ⟨_, rfl⟩ | ⟨_, _, _, _, rfl⟩ | ⟨w, _, hi⟩ | ⟨_, _, _, _, _, rfl | ⟨_, _, _, rfl⟩⟩
    · rfl
    · rfl
    · rcases issue_cases hi with ⟨_, rfl⟩ | ⟨_, i, u, _, he, rfl⟩ | ⟨_, _, rfl⟩
      · rfl
      · obtain ⟨hparams, _⟩ := exec_sameRest he
        exact hparams
      · rfl
    · rfl
    · rfl

/-- With an unsupported CBYTES the machine is halted with CONFIG and has run no command (60_exceptions.md R196). -/
theorem State.Inv.config_fault {s : State} (h : s.Inv) (hc : s.params.supported = false) :
    s.status.halted = true ∧ s.status.cause = .config ∧ s.status.fidx = 0 ∧ s.fcmd = 0 ∧
      ∀ r : Reg, s.isValid r = false := by
  have hcause : s.status.cause = .config := h.config_iff_unsupported.mpr hc
  have hfidx := h.fidx_range
  rw [hcause] at hfidx
  exact ⟨h.halted_iff_fault.mpr (by simp [hcause]), hcause, hfidx, h.config_runs_nothing hc⟩

/-! ### The obligations -/

/-- Settles O3: the words of R191 are those that do not decode, and the CMD write of such a word is the fault entry. -/
theorem illegalWordsFaultFirst : Obligations.IllegalWordsFaultFirst := by
  intro s w rest hh ⟨hhalt, hbusy⟩
  refine ⟨fun hw => ?_, fun hw => Option.ne_none_iff_exists'.mp (mt illegalWord_iff_decode.mpr hw)⟩
  have hissue := issue_of_undecodable (s := { s with host := rest }) hhalt (illegalWord_iff_decode.mp hw)
  exact ⟨_, (step_eq_perform hh hbusy).trans hissue,
    State.enterFault_enteredFault { s with host := rest, pc := s.pc + 1 } illegalFault w⟩

/-- Settles O14: ILLEGAL comes before the check phase, and the check phase is `exec_answers`. -/
theorem firstFailingCheckIsReported : Obligations.FirstFailingCheckIsReported := by
  intro i s
  obtain ⟨c, t, he, hc, hsame⟩ := exec_answers i s
  rw [he]
  cases hw : i.wellFormed s.params.npoly with
  | false =>
    rw [firstFault_of_illegal hw]
    refine ⟨?_, nofun⟩
    rintro _ _ ⟨⟩
    exact ⟨_, conclude_illegal hw, State.enterFault_enteredFault s illegalFault _⟩
  | true =>
    rw [firstFault_of_wellFormed hw]
    refine ⟨fun cause n hf => ?_, fun hf => ?_⟩
    · rw [hf] at hc
      exact ⟨_, conclude_error hw hc, rfl, rfl, rfl, rfl, rfl, fun _ => ⟨rfl, rfl⟩, fun _ => rfl,
        rfl, rfl, rfl, rfl, rfl⟩
    · rw [hf] at hc
      have hnext : exec i s = .next t := he.trans (conclude_ok hw hc)
      exact ⟨t, conclude_ok hw hc, hsame, exec_sameRest hnext⟩

/-- Settles O15: a command that halts the machine has entered a fault, for what it commits leaves STATUS as it is. -/
theorem faultCommitsNothing : Obligations.FaultCommitsNothing := by
  intro i s t hs h ht
  rcases exec_committed h with hcommit | ⟨f, rfl⟩
  · rw [hcommit.status_eq, hs] at ht
    cases ht
  · rfl

/-- Settles O16: the cause is that of `firstFault`, and each of its parts needs the operand that the row of R202 has. -/
theorem commandsRaiseOnlyTheirCauses : Obligations.CommandsRaiseOnlyTheirCauses := by
  intro i s t hs h ht
  obtain ⟨hfault, hpass⟩ := firstFailingCheckIsReported i s
  cases hf : firstFault i s with
  | none =>
    obtain ⟨u, hu, ⟨hstatus, _⟩, _⟩ := hpass hf
    obtain rfl : u = t := by simpa using hu.symm.trans h
    rw [hstatus, hs] at ht
    cases ht
  | some p =>
    obtain ⟨u, hu, _, hcause, _⟩ := hfault p.1 p.2 hf
    obtain rfl : u = t := by simpa using hu.symm.trans h
    rw [hcause]
    exact firstFault_mem_causesOf hf

/-- Settles O9: a command is the conclusion of its check phase, which always answers. -/
theorem everyCommandAnswersANextState : Obligations.EveryCommandAnswersANextState := by
  intro i s
  obtain ⟨c, he, _⟩ := exec_checkPhase i s
  exact he ▸ conclude_total i s c

/-- Settles O13: the invariant holds after the step, and says it of every state with an unsupported CBYTES. -/
theorem unsupportedWidthRunsNoCommand : Obligations.UnsupportedWidthRunsNoCommand := by
  intro c hl h128 h160
  have hc : c.supported = false := by simp [Params.supported, h128, h160]
  refine ⟨?_, fun s t hs hp h => ?_⟩
  · obtain ⟨hhalted, hcause, hfidx, hfcmd, _⟩ := (State.Inv.resetOf hl).config_fault hc
    exact ⟨hhalted, hcause, hfidx, hfcmd⟩
  · exact (stepKeepsTheInvariant s t hs h).config_fault (by rw [step_params h, hp, hc])

/-- Settles O51: a byte read answers the byte of the window, which is one byte whatever its value. -/
theorem hostReadOfBmemNeverFaults : Obligations.HostReadOfBmemNeverFaults := by
  intro s a rest hb hl ha hh
  have hm := legal_ranges hl
  refine ⟨(windowByte s (0x1000 + a)).setWidth 32, ?_, ?_⟩
  · rw [BitVec.toNat_setWidth_of_le (by decide)]
    exact BitVec.isLt _
  · rw [step_read hh hb (insideWindow_iff.mpr (by omega)) (supportedForm_iff.mpr (by omega)), readValue,
      if_neg (by omega), if_pos rfl]

end Sys2Proof.Machine
end
